-- ==== Sys2Proof/Word.lean ====
section
/-! DEFINITION. Bytes, packets, Symbols and digits: the words HTB and its host exchange. -/

namespace Sys2Proof

/-- A byte, bits 7 (most significant) to 0 (R9). -/
abbrev Byte := BitVec 8

/-- A packet: a finite byte sequence, byte 0 sent first, of any length including 0 (R70). -/
abbrev Packet := List Byte

/-- A Symbol: a sequence of bytes, byte 0 first (R11). Its length bound is checked by `Symbol.ok`. -/
abbrev Symbol := List Byte

/-- A digit, a member of the set of 0 and 1 (R9). -/
inductive Digit
  | zero
  | one
  deriving DecidableEq, Repr, Inhabited

/-- A digit string, first digit first (R9). -/
abbrev Digits := List Digit

end Sys2Proof
end

