-- ==== Sys2Proof/Config.lean ====
section
/-! DEFINITION. The implementation parameters of HTB (R6, D12), the reference configuration (D26), and the one
free value: what a NODE record that holds "nothing a command can read" would read as (R24, R38, U12). -/

namespace Sys2Proof

/-- The optional switch MERGE_SLOT of decision D12: which slot receives the merged node.
`lo`, the smaller position, is the spec's reading (R116) and the default. -/
inductive MergeSlot
  | lo
  | m1
  deriving DecidableEq, Repr

/-- The named parameters HTB leaves open (R6, and the list at the end of 92_eei_decisions.md). -/
structure Config where
  /-- SYM_MAX_BYTES: greatest length of a Symbol in bytes. -/
  symMaxBytes : Nat
  /-- N_MAX: greatest number of distinct Symbols the Frequency Table holds. -/
  nMax : Nat
  /-- FREQ_W: width in bits of every count and every node frequency. -/
  freqW : Nat
  /-- MERGE_SLOT. -/
  mergeSlot : MergeSlot
  deriving DecidableEq, Repr

/-- The constraints of R6 on the parameters. -/
abbrev Config.wf (c : Config) : Prop :=
  1 ≤ c.symMaxBytes ∧ c.symMaxBytes ≤ 255 ∧ 1 ≤ c.nMax ∧ 1 ≤ c.freqW ∧ c.freqW ≤ 64

/-- The reference configuration of D26, with the default MERGE_SLOT of D12. -/
def Config.reference : Config :=
  { symMaxBytes := 4, nMax := 256, freqW := 32, mergeSlot := .lo }

/-- A Tree Node record (R23). -/
inductive Node
  | leaf (sym : Symbol) (freq : Nat)
  | internal (freq left right : Nat)
  deriving DecidableEq, Repr, Inhabited

/-- FREE VALUE (U12: "any value", "a model may not depend on the value"): the record at an index where NODE
holds nothing. No reachable state reads it (log entry 5). -/
opaque Config.unspecifiedNode : Nat → Node

end Sys2Proof
end

