-- ==== Sys2Proof/Machine/Widths.lean ====
section
/-! DEFINITION. The widths derived from the parameters (R7) and the length check of a Symbol (R11). -/

namespace Sys2Proof

/-- NODE_W = ceil(log2(2 * N_MAX)), the bits that hold 0 .. 2 * N_MAX - 1 (R7). -/
def Config.nodeW (c : Config) : Nat := Nat.log2 (2 * c.nMax - 1) + 1

/-- NODE_B = ceil(NODE_W / 8) (R7). -/
def Config.nodeB (c : Config) : Nat := (c.nodeW + 7) / 8

/-- FREQ_B = ceil(FREQ_W / 8) (R7). -/
def Config.freqB (c : Config) : Nat := (c.freqW + 7) / 8

/-- 2^FREQ_W - 1, the greatest value of a count and of TOTAL (R20). -/
def Config.maxCount (c : Config) : Nat := 2 ^ c.freqW - 1

/-- A Symbol has 1 to SYM_MAX_BYTES bytes (R11). -/
def Symbol.ok (c : Config) (s : Symbol) : Bool :=
  decide (1 ≤ s.length) && decide (s.length ≤ c.symMaxBytes)

end Sys2Proof
end

