-- ==== Sys2Proof/Syntax.lean ====
section
/-! DEFINITION. The command set of HTB: one constructor per row of the opcode map (R72). -/

namespace Sys2Proof

/-- The 14 commands without their operands: the rows of R72. -/
inductive Op
  | clear | rdsr
  | count | items
  | build | rdnode
  | derive | rdcode
  | encBegin | encSym | encEnd
  | decBegin | decBit | decEnd
  deriving DecidableEq, Repr

/-- A command with its operand (R72, R73). -/
inductive Instr
  /-- CLEAR, format Z (R160). -/
  | clear
  /-- RDSR r: `r` is the status register number, one byte (R161). -/
  | rdsr (r : Byte)
  /-- COUNT s, format S (R100). -/
  | count (s : Symbol)
  /-- ITEMS, format Z (R101). -/
  | items
  /-- BUILD, format Z (R110). -/
  | build
  /-- RDNODE i: `i` is a node index, NODE_B bytes in the packet (R121). -/
  | rdnode (i : Nat)
  /-- DERIVE, format Z (R130). -/
  | derive
  /-- RDCODE s, format S (R134). -/
  | rdcode (s : Symbol)
  /-- ENC_BEGIN, format Z (R140). -/
  | encBegin
  /-- ENC_SYM s, format S (R141). -/
  | encSym (s : Symbol)
  /-- ENC_END, format Z (R142). -/
  | encEnd
  /-- DEC_BEGIN, format Z (R150). -/
  | decBegin
  /-- DEC_BIT c: `c` is one character of the encoded stream, any byte (R151). -/
  | decBit (c : Byte)
  /-- DEC_END, format Z (R152). -/
  | decEnd
  deriving DecidableEq, Repr

/-- The opcode-map row a command belongs to. -/
def Instr.op : Instr → Op
  | .clear => .clear
  | .rdsr _ => .rdsr
  | .count _ => .count
  | .items => .items
  | .build => .build
  | .rdnode _ => .rdnode
  | .derive => .derive
  | .rdcode _ => .rdcode
  | .encBegin => .encBegin
  | .encSym _ => .encSym
  | .encEnd => .encEnd
  | .decBegin => .decBegin
  | .decBit _ => .decBit
  | .decEnd => .decEnd

end Sys2Proof
end

