-- ==== Sys2Proof/WellFormed.lean ====
section
/-! DEFINITION. Which commands a packet can carry: the operand bounds of the formats (R71, R73). -/

namespace Sys2Proof

/-- A command is well formed when some packet carries it: a Symbol operand has 1 to SYM_MAX_BYTES bytes, a node
index fits in NODE_B bytes; a byte operand is any byte, a reserved register number and a character that is no
digit included (R73). -/
def WellFormed (c : Config) : Instr → Bool
  | .clear => true
  | .rdsr _ => true
  | .count s => Symbol.ok c s
  | .items => true
  | .build => true
  | .rdnode i => decide (i < 256 ^ c.nodeB)
  | .derive => true
  | .rdcode s => Symbol.ok c s
  | .encBegin => true
  | .encSym s => Symbol.ok c s
  | .encEnd => true
  | .decBegin => true
  | .decBit _ => true
  | .decEnd => true

end Sys2Proof
end

