-- ==== Sys2Proof/Decode.lean ====
section
/-! DEFINITION. Command packets: byte order (R51), the opcode map (R72), the decoder, total on any byte sequence
(R74, R75), and the encoder written from the same tables (R71, R73). -/

namespace Sys2Proof

/-! ### Byte order (R9, R51) -/

/-- `be_k(v)`: the `k` bytes that hold `v`, most significant first. R9 needs `v < 2^(8k)`; a larger value keeps
its low `8k` bits (log entry 7). -/
def beBytes : Nat → Nat → List Byte
  | 0, _ => []
  | k + 1, v => BitVec.ofNat 8 (v / 256 ^ k) :: beBytes k v

/-- The number a byte sequence holds, most significant byte first: the sum of R73's `ID`. -/
def ofBytes : List Byte → Nat
  | [] => 0
  | b :: bs => b.toNat * 256 ^ bs.length + ofBytes bs

/-! ### Opcode map (R71, R72) -/

/-- The four command formats of R71. -/
inductive Format
  | z | b | n | s
  deriving DecidableEq, Repr

/-- One row of R72. -/
structure OpRow where
  op : Op
  opc : Byte
  format : Format
  deriving DecidableEq, Repr

/-- The opcode map, row by row (R72). -/
def Op.row : Op → OpRow
  | .clear    => ⟨.clear,    0x01, .z⟩
  | .rdsr     => ⟨.rdsr,     0x02, .b⟩
  | .count    => ⟨.count,    0x10, .s⟩
  | .items    => ⟨.items,    0x11, .z⟩
  | .build    => ⟨.build,    0x20, .z⟩
  | .rdnode   => ⟨.rdnode,   0x21, .n⟩
  | .derive   => ⟨.derive,   0x30, .z⟩
  | .rdcode   => ⟨.rdcode,   0x31, .s⟩
  | .encBegin => ⟨.encBegin, 0x40, .z⟩
  | .encSym   => ⟨.encSym,   0x41, .s⟩
  | .encEnd   => ⟨.encEnd,   0x42, .z⟩
  | .decBegin => ⟨.decBegin, 0x50, .z⟩
  | .decBit   => ⟨.decBit,   0x51, .b⟩
  | .decEnd   => ⟨.decEnd,   0x52, .z⟩

/-- The 14 rows of R72; every other value of OPC is illegal (R75). -/
def opTable : List OpRow :=
  [Op.clear, .rdsr, .count, .items, .build, .rdnode, .derive, .rdcode,
    .encBegin, .encSym, .encEnd, .decBegin, .decBit, .decEnd].map Op.row

/-- The row of an opcode byte, if it is a command. -/
def opRow? (opc : Byte) : Option OpRow := opTable.find? (fun r => r.opc == opc)

/-- OPC of a command. -/
def Instr.opc (i : Instr) : Byte := i.op.row.opc

/-! ### Decoder (R73, R74) -/

/-- Whether an operand of `len` bytes fits the format (R71; the length tests of R74, on `|p| - 1`). -/
def Format.fits (c : Config) : Format → Nat → Bool
  | .z, len => len == 0
  | .b, len => len == 1
  | .n, len => len == c.nodeB
  | .s, len => decide (1 ≤ len) && decide (len ≤ c.symMaxBytes)

/-- The command of a row with its operand assembled from the operand bytes (R73). -/
def Op.assemble : Op → List Byte → Instr
  | .clear, _ => .clear
  | .rdsr, bs => .rdsr (bs.headD 0)
  | .count, bs => .count bs
  | .items, _ => .items
  | .build, _ => .build
  | .rdnode, bs => .rdnode (ofBytes bs)
  | .derive, _ => .derive
  | .rdcode, bs => .rdcode bs
  | .encBegin, _ => .encBegin
  | .encSym, bs => .encSym bs
  | .encEnd, _ => .encEnd
  | .decBegin, _ => .decBegin
  | .decBit, bs => .decBit (bs.headD 0)
  | .decEnd, _ => .decEnd

/-- What a packet decodes to: "exactly one of a command, IllegalCommand or BadOperand" (R74). -/
inductive Decoded
  | command (i : Instr)
  | illegalCommand
  | badOperand
  deriving DecidableEq, Repr

/-- The decoder of R74. -/
def decode (c : Config) : Packet → Decoded
  | [] => .illegalCommand
  | opc :: operand =>
    match opRow? opc with
    | none => .illegalCommand
    | some row =>
      if row.format.fits c operand.length then .command (row.op.assemble operand) else .badOperand

/-! ### Encoder (R71, R73) -/

/-- The operand bytes of a command. -/
def Instr.operand (c : Config) : Instr → List Byte
  | .clear => []
  | .rdsr r => [r]
  | .count s => s
  | .items => []
  | .build => []
  | .rdnode i => beBytes c.nodeB i
  | .derive => []
  | .rdcode s => s
  | .encBegin => []
  | .encSym s => s
  | .encEnd => []
  | .decBegin => []
  | .decBit ch => [ch]
  | .decEnd => []

/-- The packet of a command: its opcode byte, then its operand (R70, R71). -/
def encode (c : Config) (i : Instr) : Packet := i.opc :: i.operand c

/-! ### Words of the opcode table -/

/-- The `n` low bytes of `w`, bits 7..0 first: byte 0 of a packet is the table's first byte. -/
def lowBytesFirst : Nat → Nat → List Byte
  | 0, _ => []
  | n + 1, w => BitVec.ofNat 8 w :: lowBytesFirst n (w / 256)

/-- The shortest operand a format allows (R71). -/
def Format.minOperand (c : Config) : Format → Nat
  | .z => 0
  | .b => 1
  | .n => c.nodeB
  | .s => 1

/-- The packet of an opcode-table word of `nbits` bits: its bytes, then bytes of zeros as far as the command's
format needs an operand (log entry 13). -/
def tablePacket (c : Config) (nbits w : Nat) : Packet :=
  let p := lowBytesFirst (nbits / 8) w
  match p with
  | [] => []
  | opc :: operand =>
    match opRow? opc with
    | none => p
    | some row => p ++ List.replicate (row.format.minOperand c - operand.length) 0

/-- The command the decoder reads from a table word, in the reference configuration (D26). -/
def decodeTableWord (nbits w : Nat) : Option Instr :=
  match decode Config.reference (tablePacket Config.reference nbits w) with
  | .command i => some i
  | .illegalCommand => none
  | .badOperand => none

end Sys2Proof
end

