-- ==== Sys2Proof/Machine/State.lean ====
section
/-! DEFINITION. The state of HTB as plain data (R20), its values after reset (R38), and the reasons a step can stop. -/

namespace Sys2Proof.Machine

/-- MODE, 2 bits: which commands HTB accepts (R29). -/
inductive Mode
  | idle
  | enc
  | dec
  | fault
  deriving DecidableEq, Repr

/-- The ten fault causes of R201. -/
inductive Cause
  | illegalCommand
  | badOperand
  | sequenceError
  | tableFull
  | countOverflow
  | noTree
  | lookupFailure
  | leafTransition
  | truncated
  | badDigit
  deriving DecidableEq, Repr

/-- What the host can do to HTB: send a command packet (R70) or apply the platform's reset (R230). -/
inductive HostEvent
  | packet (p : Packet)
  | reset
  deriving DecidableEq, Repr

/-- A response before it is put into bytes (R77). -/
inductive Response
  | ok (payload : List Byte)
  | absent
  | fault (cause : Byte)
  deriving DecidableEq, Repr

/-- The state of HTB: every line of R20 that is state, and three fields of the model's own (log entries 2, 4).
Counts and node indices are natural numbers, with their widths kept as an invariant (log entry 6). -/
structure State where
  /-- The parameters; no step changes them (the model's own field). -/
  cfg : Config
  /-- FT, the Frequency Table: entries in ascending Symbol order (R21). -/
  ft : List (Symbol × Nat)
  /-- NFT (R22). -/
  nft : Nat
  /-- TOTAL (R22). -/
  total : Nat
  /-- NODE: the records at indices 0, 1, .. that hold something (R23, R24). -/
  node : List Node
  /-- TREE_PRESENT (R25). -/
  treePresent : Bool
  /-- ROOT (R25). -/
  root : Nat
  /-- NLEAF (R25). -/
  nleaf : Nat
  /-- NNODE (R25). -/
  nnode : Nat
  /-- CT, the Code Table: entries in ascending Symbol order (R28). -/
  ct : List (Symbol × Digits)
  /-- CT_VALID (R28). -/
  ctValid : Bool
  /-- NCT (R28). -/
  nct : Nat
  /-- MODE (R29). -/
  mode : Mode
  /-- CUR (R30). -/
  cur : Nat
  /-- EBUF (R31). -/
  ebuf : Digits
  /-- DBUF (R31). -/
  dbuf : List Symbol
  /-- FCAUSE (R32). -/
  fcause : Byte
  /-- FCMD (R32). -/
  fcmd : Byte
  /-- Host events not taken yet, oldest first (the model's own field). -/
  inbox : List HostEvent
  /-- Response packets sent, oldest first (the model's own field). -/
  outbox : List Packet
  deriving DecidableEq, Repr

/-- Reasons the machine itself stops with a fault. There is none: every fault of HTB is an entry into MODE = FAULT
with a response to the host (R203), which is a next state, and every command ends (R237). Nothing raises it; safe. -/
inductive Fault
  deriving DecidableEq, Repr

/-- Reasons the model gives an instruction no meaning. -/
inductive Refusal
  /-- Raised only by an arm of `exec` whose command has no meaning yet, by its mnemonic; safe. No arm does. -/
  | notModelled (mnemonic : String)
  deriving DecidableEq, Repr

/-- The state after reset in the configuration `c` (R38), with no host event waiting and no response sent. -/
def State.initial (c : Config) : State where
  cfg := c
  ft := []
  nft := 0
  total := 0
  node := []
  treePresent := false
  root := 0
  nleaf := 0
  nnode := 0
  ct := []
  ctValid := false
  nct := 0
  mode := .idle
  cur := 0
  ebuf := []
  dbuf := []
  fcause := 0
  fcmd := 0
  inbox := []
  outbox := []

/-- The machine right after reset, in the reference configuration (R38, R230, D26). -/
def State.reset : State := State.initial Config.reference

end Sys2Proof.Machine
end

