-- ==== Sys2Proof/Machine/Operands.lean ====
section
/-! DEFINITION. The operand forms of HTB: Symbols and their order (R12), digits and their characters (R13), fault
cause codes (R201), response packets (R77). -/

namespace Sys2Proof.Machine

/-- The Symbol order of R12: at the first difference the smaller unsigned byte, and a proper prefix is smaller. -/
def symLt : Symbol → Symbol → Bool
  | [], [] => false
  | [], _ :: _ => true
  | _ :: _, [] => false
  | a :: s, b :: t => if a = b then symLt s t else decide (a.toNat < b.toNat)

/-- `chr(d) = 0x30 + d` (R13). -/
def chr : Digit → Byte
  | .zero => 0x30
  | .one => 0x31

/-- The characters of a digit string, first digit first (R78). -/
def chars (ds : Digits) : List Byte := ds.map chr

/-- `digit(c)`, defined only for the characters 0x30 and 0x31 (R13). -/
def digit (c : Byte) : Option Digit :=
  if c = 0x30 then some .zero else if c = 0x31 then some .one else none

/-- The code of a fault cause (R201). -/
def Cause.code : Cause → Byte
  | .illegalCommand => 0x01
  | .badOperand => 0x02
  | .sequenceError => 0x03
  | .tableFull => 0x04
  | .countOverflow => 0x05
  | .noTree => 0x06
  | .lookupFailure => 0x10
  | .leafTransition => 0x20
  | .truncated => 0x21
  | .badDigit => 0x22

/-- The bytes of a response: the code byte, then the payload or the cause (R77). -/
def Response.packet : Response → Packet
  | .ok payload => 0x00 :: payload
  | .absent => [0x01]
  | .fault cause => [0xFF, cause]

/-- The two bits of MODE (R29). -/
def Mode.bits : Mode → BitVec 2
  | .idle => 0
  | .enc => 1
  | .dec => 2
  | .fault => 3

/-- The frequency field of a record of either tag, `freq(i)` (R23). -/
def nodeFreq : Node → Nat
  | .leaf _ f => f
  | .internal f _ _ => f

/-- Whether a record is a Leaf (R23). -/
def isLeaf : Node → Bool
  | .leaf _ _ => true
  | .internal _ _ _ => false

end Sys2Proof.Machine
end

