-- ==== Sys2Proof/Machine/Ops.lean ====
section
/-! DEFINITION. The named operations every command shares: the keyed stores and the NODE store (R10, R50), responses
(R77), fault entry and the standing fault (R203, R205), the way out of a fault (R160, R230), and the mode table (R204). -/

namespace Sys2Proof.Machine

/-! ### Keyed stores: FT and CT (R50)

A store is the list of its entries in ascending Symbol order, one entry per Symbol (log entry 9). -/

/-- The record at a key, if the key has an entry: `MemRead`, and the test `s in FT` (R10). -/
def lookup {α : Type} : List (Symbol × α) → Symbol → Option α
  | [], _ => none
  | (k, v) :: rest, s => if k = s then some v else lookup rest s

/-- `MemWrite` of the record at a key (R10), the key inserted at its place in the order when it has no entry. -/
def store {α : Type} : List (Symbol × α) → Symbol → α → List (Symbol × α)
  | [], s, v => [(s, v)]
  | (k, w) :: rest, s, v =>
    if k = s then (s, v) :: rest
    else if symLt s k then (s, v) :: (k, w) :: rest
    else (k, w) :: store rest s v

/-- The canonical form of a store: keys strictly ascending in the order of R12, so no key twice (R21). -/
abbrev Sorted {α : Type} (m : List (Symbol × α)) : Prop :=
  m.Pairwise (fun a b => symLt a.1 b.1 = true)

/-- The stores are in canonical form: FT and CT ascending, and FT lists no count of 0 (R21: "counts are positive
integers"), which is what an absent Symbol counts as. -/
abbrev Memory.wf (s : State) : Prop :=
  Sorted s.ft ∧ (∀ e ∈ s.ft, 1 ≤ e.2) ∧ Sorted s.ct

/-! ### The NODE store (R23, R24) -/

/-- `NODE[i]`. At an index that holds nothing the record is the free value of U12, which no reachable state reads. -/
def readNode (nodes : List Node) (i : Nat) : Node := nodes.getD i (Config.unspecifiedNode i)

/-! ### Responses (R70, R77) -/

/-- End a command with its one response packet. -/
def respond (r : Response) (s : State) : State := { s with outbox := s.outbox ++ [r.packet] }

/-! ### Faults (R203, R205) -/

/-- Fault entry: `raise Fault(cause)` in a command whose packet begins with the byte `cmd` (R203). -/
def faultEntry (cause : Cause) (cmd : Byte) (s : State) : State :=
  respond (.fault cause.code) { s with fcause := cause.code, fcmd := cmd, mode := .fault }

/-- The answer in MODE = FAULT to everything but CLEAR and RDSR: the standing fault, nothing changed (R205). -/
def standingFault (s : State) : State := respond (.fault s.fcause) s

/-- A command turned away: in MODE = FAULT the standing fault (step 1 of R202), otherwise fault entry (steps 2, 3). -/
def refuse (cause : Cause) (cmd : Byte) (s : State) : State :=
  if s.mode = .fault then standingFault s else faultEntry cause cmd s

/-- The way out of a fault, and what reset does: every element of R20 at its value of R38. The parameters, the
waiting events and the responses already sent are not HTB's state and stay. -/
def clearAll (s : State) : State :=
  { State.initial s.cfg with inbox := s.inbox, outbox := s.outbox }

/-! ### Modes (R204) -/

/-- One row of the table of R204: the columns IDLE, ENC, DEC, FAULT, with "performed" as true and "standing fault"
as false. -/
structure LegalRow where
  idle : Bool
  enc : Bool
  dec : Bool
  fault : Bool

/-- The table of R204, without the conditions it repeats from ENC_BEGIN (R140) and DEC_BEGIN (R150). -/
def legalRow : Op → LegalRow
  | .clear    => ⟨true,  true,  true,  true⟩
  | .rdsr     => ⟨true,  true,  true,  true⟩
  | .count    => ⟨true,  false, false, false⟩
  | .items    => ⟨true,  true,  true,  false⟩
  | .build    => ⟨true,  false, false, false⟩
  | .rdnode   => ⟨true,  true,  true,  false⟩
  | .derive   => ⟨true,  false, false, false⟩
  | .rdcode   => ⟨true,  true,  true,  false⟩
  | .encBegin => ⟨true,  false, false, false⟩
  | .encSym   => ⟨false, true,  false, false⟩
  | .encEnd   => ⟨false, true,  false, false⟩
  | .decBegin => ⟨true,  false, false, false⟩
  | .decBit   => ⟨false, false, true,  false⟩
  | .decEnd   => ⟨false, false, true,  false⟩

/-- The entry of the table of R204 for a command and a mode. -/
def legal (op : Op) : Mode → Bool
  | .idle => (legalRow op).idle
  | .enc => (legalRow op).enc
  | .dec => (legalRow op).dec
  | .fault => (legalRow op).fault

/-- The mode check, then the command's own rule `body` (steps 1, 3 and 4 of R202). -/
def whenLegal (op : Op) (s : State) (body : State) : State :=
  if legal op s.mode then body else refuse .sequenceError op.row.opc s

end Sys2Proof.Machine
end

