-- ==== Sys2Proof/Machine/CodeTable.lean ====
section
/-! DEFINITION. The Code Table Deriver commands DERIVE and RDCODE (R130 to R134). -/

namespace Sys2Proof.Machine

/-- The breadth-first traversal of R131: the pairs (Symbol, path) produced, from a queue of (node, path so far). The
first argument bounds the number of dequeues; DERIVE "dequeues each of the NNODE nodes once" (R237, log entry 8). -/
def bfs (nodes : List Node) : Nat → List (Nat × Digits) → List (Symbol × Digits)
  | 0, _ => []
  | _ + 1, [] => []
  | k + 1, (x, p) :: q =>
    match readNode nodes x with
    | .leaf sym _ => (sym, p) :: bfs nodes k q
    | .internal _ l r => bfs nodes k (q ++ [(l, p ++ [.zero]), (r, p ++ [.one])])

/-- `CT[sym] <- path` for every pair produced, from the empty table (R130). -/
def tableOf (pairs : List (Symbol × Digits)) : List (Symbol × Digits) :=
  pairs.foldl (fun m e => store m e.1 e.2) []

/-- The Code Table DERIVE computes: empty without a tree (R130). -/
def derivedTable (s : State) : List (Symbol × Digits) :=
  if s.treePresent then tableOf (bfs s.node s.nnode [(s.root, [])]) else []

/-- DERIVE (R130). -/
def execDerive (s : State) : Host.Outcome State Fault Refusal :=
  .next (whenLegal .derive s (
    respond (.ok (beBytes s.cfg.nodeB (derivedTable s).length))
      { s with ct := derivedTable s, nct := (derivedTable s).length, ctValid := true }))

/-- RDCODE s (R134). -/
def execRdcode (sym : Symbol) (s : State) : Host.Outcome State Fault Refusal :=
  .next (whenLegal .rdcode s (
    match lookup s.ct sym with
    | some code => respond (.ok (chars code)) s
    | none => respond .absent s))

end Sys2Proof.Machine
end

