-- ==== Sys2Proof/Machine/Decoder.lean ====
section
/-! DEFINITION. The Decoder commands DEC_BEGIN, DEC_BIT and DEC_END (R150 to R152). -/

namespace Sys2Proof.Machine

/-- DEC_BEGIN: needs a tree (R150). -/
def execDecBegin (s : State) : Host.Outcome State Fault Refusal :=
  .next (whenLegal .decBegin s (
    if s.treePresent = false then faultEntry .noTree Op.decBegin.row.opc s
    else respond (.ok []) { s with cur := s.root, dbuf := [], mode := .dec }))

/-- The child a digit leads to: '0' left, '1' right (R151). -/
def child : Digit → Nat → Nat → Nat
  | .zero, l, _ => l
  | .one, _, r => r

/-- The state machine's arrival at node `nxt`: a Leaf emits its Symbol and goes back to the root (R151). -/
def arrive (nxt : Nat) (s : State) : State :=
  match readNode s.node nxt with
  | .leaf sym _ => respond (.ok sym) { s with dbuf := s.dbuf ++ [sym], cur := s.root }
  | .internal _ _ _ => respond (.ok []) { s with cur := nxt }

/-- DEC_BIT c: BadDigit is tested before LeafTransition (R151, R202). -/
def execDecBit (c : Byte) (s : State) : Host.Outcome State Fault Refusal :=
  .next (whenLegal .decBit s (
    match digit c with
    | none => faultEntry .badDigit Op.decBit.row.opc s
    | some d =>
      match readNode s.node s.cur with
      | .leaf _ _ => faultEntry .leafTransition Op.decBit.row.opc s
      | .internal _ l r => arrive (child d l r) s))

/-- DEC_END: Truncated when the traversal is not at the root (R152). -/
def execDecEnd (s : State) : Host.Outcome State Fault Refusal :=
  .next (whenLegal .decEnd s (
    if s.cur ≠ s.root then faultEntry .truncated Op.decEnd.row.opc s
    else respond (.ok []) { s with mode := .idle }))

end Sys2Proof.Machine
end

