-- ==== Sys2Proof/Machine/Encoder.lean ====
section
/-! DEFINITION. The Encoder commands ENC_BEGIN, ENC_SYM and ENC_END (R140 to R142). -/

namespace Sys2Proof.Machine

/-- ENC_BEGIN: needs CT_VALID = 1 (R140). -/
def execEncBegin (s : State) : Host.Outcome State Fault Refusal :=
  .next (whenLegal .encBegin s (
    if s.ctValid = false then faultEntry .sequenceError Op.encBegin.row.opc s
    else respond (.ok []) { s with ebuf := [], mode := .enc }))

/-- ENC_SYM s: appends the code of `s` to EBUF (R141). -/
def execEncSym (sym : Symbol) (s : State) : Host.Outcome State Fault Refusal :=
  .next (whenLegal .encSym s (
    match lookup s.ct sym with
    | none => faultEntry .lookupFailure Op.encSym.row.opc s
    | some code => respond (.ok (chars code)) { s with ebuf := s.ebuf ++ code }))

/-- ENC_END: discards the Code Table; ABSENT when it was empty (R142). -/
def execEncEnd (s : State) : Host.Outcome State Fault Refusal :=
  .next (whenLegal .encEnd s (
    respond (if s.nct = 0 then .absent else .ok [])
      { s with ct := [], nct := 0, ctValid := false, mode := .idle }))

end Sys2Proof.Machine
end

