-- ==== Sys2Proof/Machine/FrequencyTable.lean ====
section
/-! DEFINITION. The Frequency Table commands COUNT and ITEMS (R100, R101). -/

namespace Sys2Proof.Machine

/-- The writes of COUNT once its two tests have passed (R100): the new count, NFT and TOTAL, and the response. -/
def countSym (sym : Symbol) (s : State) : State :=
  match lookup s.ft sym with
  | some c =>
    respond (.ok (beBytes s.cfg.freqB (c + 1)))
      { s with ft := store s.ft sym (c + 1), total := s.total + 1 }
  | none =>
    respond (.ok (beBytes s.cfg.freqB 1))
      { s with ft := store s.ft sym 1, nft := s.nft + 1, total := s.total + 1 }

/-- COUNT s: CountOverflow is tested before TableFull (R100, R202). -/
def execCount (sym : Symbol) (s : State) : Host.Outcome State Fault Refusal :=
  .next (whenLegal .count s (
    if s.total = s.cfg.maxCount then faultEntry .countOverflow Op.count.row.opc s
    else if (lookup s.ft sym).isNone ∧ s.nft = s.cfg.nMax then faultEntry .tableFull Op.count.row.opc s
    else countSym sym s))

/-- One entry of the ITEMS response: the length byte, the Symbol, the count (R101). -/
def itemBytes (c : Config) (e : Symbol × Nat) : List Byte :=
  BitVec.ofNat 8 e.1.length :: (e.1 ++ beBytes c.freqB e.2)

/-- ITEMS: the entries of FT in ascending Symbol order, which is the order FT is held in (R101). -/
def execItems (s : State) : Host.Outcome State Fault Refusal :=
  .next (whenLegal .items s (respond (.ok (s.ft.flatMap (itemBytes s.cfg))) s))

end Sys2Proof.Machine
end

