-- ==== Sys2Proof/Machine/Flags.lean ====
section
/-! DEFINITION. The flags and the status registers, all functions of the state (R33, R34, R37). -/

namespace Sys2Proof.Machine

/-- DEGEN: a tree is present and its root is a Leaf (R33). -/
def degen (s : State) : Bool := s.treePresent && isLeaf (readNode s.node s.root)

/-- STATUS: bits 7:5 read as 0, 4 CT_VALID, 3 DEGEN, 2 TREE_PRESENT, 1:0 MODE (R33). -/
def statusByte (s : State) : Byte :=
  0#3 ++ BitVec.ofBool s.ctValid ++ BitVec.ofBool (degen s) ++ BitVec.ofBool s.treePresent ++ s.mode.bits

/-- The status register of a number; 10 and above are reserved (R34). -/
def statusRegister (s : State) : Nat → Option Nat
  | 0 => some (statusByte s).toNat
  | 1 => some s.fcause.toNat
  | 2 => some s.fcmd.toNat
  | 3 => some s.nft
  | 4 => some s.total
  | 5 => some s.nleaf
  | 6 => some s.nnode
  | 7 => some s.root
  | 8 => some s.cur
  | 9 => some s.nct
  | _ => none

end Sys2Proof.Machine
end

