-- ==== Sys2Proof/Machine/System.lean ====
section
/-! DEFINITION. The system commands CLEAR and RDSR (R160, R161). -/

namespace Sys2Proof.Machine

/-- CLEAR: everything to its reset value, in every mode (R160). -/
def execClear (s : State) : Host.Outcome State Fault Refusal :=
  .next (whenLegal .clear s (respond (.ok []) (clearAll s)))

/-- RDSR r: the register as a 64-bit value, in every mode; a reserved number is BadOperand, and in MODE = FAULT the
standing fault (R161). -/
def execRdsr (r : Byte) (s : State) : Host.Outcome State Fault Refusal :=
  .next (whenLegal .rdsr s (
    match statusRegister s r.toNat with
    | none => refuse .badOperand Op.rdsr.row.opc s
    | some v => respond (.ok (beBytes 8 v)) s))

end Sys2Proof.Machine
end

