-- ==== Sys2Proof/Machine/TreeBuilder.lean ====
section
/-! DEFINITION. The Tree Builder commands BUILD and RDNODE (R110 to R121). -/

namespace Sys2Proof.Machine

/-- A position of the active collection and the frequency it holds. -/
structure Pick where
  pos : Nat
  freq : Nat
  deriving DecidableEq, Repr

/-- The left-to-right two-minimum scan of R115 over the slots' frequencies (`none` for Absent): position of the next
slot, current minimum, current second-minimum. Equal frequencies never displace; a displaced minimum becomes the
second-minimum (D11). -/
def scan : List (Option Nat) → Nat → Option Pick → Option Pick → Option Pick × Option Pick
  | [], _, m1, m2 => (m1, m2)
  | none :: rest, i, m1, m2 => scan rest (i + 1) m1 m2
  | some f :: rest, i, m1, m2 =>
    match m1 with
    | none => scan rest (i + 1) (some ⟨i, f⟩) m2
    | some a =>
      if f < a.freq then scan rest (i + 1) (some ⟨i, f⟩) (some a)
      else
        match m2 with
        | none => scan rest (i + 1) (some a) (some ⟨i, f⟩)
        | some b =>
          if f < b.freq then scan rest (i + 1) (some a) (some ⟨i, f⟩)
          else scan rest (i + 1) (some a) (some b)

/-- `select2`: the minimum and the second-minimum of the active collection (R114, R115). -/
def select2 (freqs : List (Option Nat)) : Option Pick × Option Pick := scan freqs 0 none none

/-- What BUILD works on: the records written so far, and SLOT, the active collection (R27, R110). -/
structure Work where
  nodes : List Node
  slots : List (Option Nat)
  deriving DecidableEq, Repr

/-- The frequencies of the active collection, position by position: `f(i)` of R114. -/
def slotFreqs (w : Work) : List (Option Nat) :=
  w.slots.map (Option.map (fun j => nodeFreq (readNode w.nodes j)))

/-- The node index in a slot; the scan picks only slots that hold one. -/
def slotNode (w : Work) (i : Nat) : Nat := (w.slots.getD i none).getD 0

/-- Step 1: one Leaf per entry of the item sequence, in its order, each in the slot of its own index (R111). -/
def leaves (items : List (Symbol × Nat)) : Work where
  nodes := items.map (fun e => .leaf e.1 e.2)
  slots := (List.range items.length).map some

/-- One merge of step 4 (R116): the new Internal record goes to the next free index, with the child of the smaller
position on the left; it replaces the slot `lo` (or `m1`, under the other reading of D12) and the other selected slot
becomes Absent. -/
def merge (ms : MergeSlot) (w : Work) : Work :=
  match select2 (slotFreqs w) with
  | (some a, some b) =>
    let lo := min a.pos b.pos
    let hi := max a.pos b.pos
    let kept := match ms with | .lo => lo | .m1 => a.pos
    let dropped := match ms with | .lo => hi | .m1 => b.pos
    { nodes := w.nodes ++ [.internal (a.freq + b.freq) (slotNode w lo) (slotNode w hi)]
      slots := (w.slots.set kept (some w.nodes.length)).set dropped none }
  | _ => w

/-- Step 4: the merges, `k` times (R110). -/
def merges (ms : MergeSlot) : Nat → Work → Work
  | 0, w => w
  | k + 1, w => merges ms k (merge ms w)

/-- Steps 1 to 4 on an item sequence: n leaves, then n - 1 merges, none for n = 0 and n = 1 (R111 to R116). -/
def buildWork (ms : MergeSlot) (items : List (Symbol × Nat)) : Work :=
  merges ms (items.length - 1) (leaves items)

/-- Step 5: the node index in the one slot that is not Absent; 0 for the empty table (R110, R117). -/
def rootOf (w : Work) : Nat := (w.slots.filterMap id).headD 0

/-- BUILD (R110): the tree registers from the work, FT and CT emptied (R118). -/
def execBuild (s : State) : Host.Outcome State Fault Refusal :=
  let n := s.nft
  let w := buildWork s.cfg.mergeSlot s.ft
  .next (whenLegal .build s (
    respond (if n = 0 then .absent else .ok (beBytes s.cfg.nodeB (rootOf w)))
      { s with
        node := w.nodes, treePresent := decide (1 ≤ n), root := rootOf w, nleaf := n, nnode := w.nodes.length
        ft := [], nft := 0, total := 0
        ct := [], nct := 0, ctValid := false }))

/-- The payload of RDNODE (R78, R121). -/
def nodeBytes (c : Config) : Node → List Byte
  | .leaf sym f => 0x00 :: (beBytes c.freqB f ++ sym)
  | .internal f l r => 0x01 :: (beBytes c.freqB f ++ beBytes c.nodeB l ++ beBytes c.nodeB r)

/-- RDNODE i: one Tree Node, ABSENT for an index at or above NNODE (R121). -/
def execRdnode (i : Nat) (s : State) : Host.Outcome State Fault Refusal :=
  .next (whenLegal .rdnode s (
    if s.nnode ≤ i then respond .absent s
    else respond (.ok (nodeBytes s.cfg (readNode s.node i))) s))

end Sys2Proof.Machine
end

