-- ==== Sys2Proof/Machine/Dispatch.lean ====
section
/-! DEFINITION. One arm per command: the meaning of each (R72). -/

namespace Sys2Proof.Machine

def exec (i : Instr) (s : State) : Host.Outcome State Fault Refusal :=
  match i with
  | .clear => Sys2Proof.Machine.execClear s
  | .rdsr r => Sys2Proof.Machine.execRdsr r s
  | .count sym => Sys2Proof.Machine.execCount sym s
  | .items => Sys2Proof.Machine.execItems s
  | .build => Sys2Proof.Machine.execBuild s
  | .rdnode n => Sys2Proof.Machine.execRdnode n s
  | .derive => Sys2Proof.Machine.execDerive s
  | .rdcode sym => Sys2Proof.Machine.execRdcode sym s
  | .encBegin => Sys2Proof.Machine.execEncBegin s
  | .encSym sym => Sys2Proof.Machine.execEncSym sym s
  | .encEnd => Sys2Proof.Machine.execEncEnd s
  | .decBegin => Sys2Proof.Machine.execDecBegin s
  | .decBit c => Sys2Proof.Machine.execDecBit c s
  | .decEnd => Sys2Proof.Machine.execDecEnd s

end Sys2Proof.Machine
end

