-- ==== Sys2Proof/Machine/HostPort.lean ====
section
/-! DEFINITION. The host's side of HTB: taking a command packet (R70, R74, R202) or a reset (R230). -/

namespace Sys2Proof.Machine

/-- A command packet: decode it and run the command, or turn it away (R202). In MODE = FAULT a packet that is no
command gets the standing fault, and so does every command but CLEAR and RDSR (the FAULT column of R204), so that
step 1 of R202 comes first. FCMD of a fault is byte 0 of the packet, 0x00 for the empty packet (R203). -/
def takePacket (p : Packet) (s : State) : Host.Outcome State Fault Refusal :=
  match decode s.cfg p with
  | .command i => exec i s
  | .illegalCommand => .next (refuse .illegalCommand (p.headD 0x00) s)
  | .badOperand => .next (refuse .badOperand (p.headD 0x00) s)

/-- One host event (R70, R230). Reset answers nothing. -/
def takeEvent (e : HostEvent) (s : State) : Host.Outcome State Fault Refusal :=
  match e with
  | .packet p => takePacket p s
  | .reset => .next (clearAll s)

/-- Take the oldest waiting host event; with none HTB is idle (R213, R237). -/
def takeNext (s : State) : Host.Outcome State Fault Refusal :=
  match s.inbox with
  | [] => .next s
  | e :: rest => takeEvent e { s with inbox := rest }

/-- A table word's packet put before the waiting events, so that HTB takes it next. -/
def deliverWord (nbits w : Nat) (s : State) : State :=
  { s with inbox := .packet (tablePacket s.cfg nbits w) :: s.inbox }

end Sys2Proof.Machine
end

