-- ==== Sys2Proof/Machine/Step.lean ====
section
/-! DEFINITION. One step of the machine: HTB takes one host event, completely (R5, R8, R56). -/

namespace Sys2Proof.Machine

/-- One step: the oldest waiting host event, as one indivisible step. -/
def step (s : State) : Host.Outcome State Fault Refusal := takeNext s

/-- The state in which the next step takes the packet of an opcode-table word. HTB fetches nothing (R59): a program
comes to run because the host sends its packets, and this stands for the sending of one (log entry 4). -/
def State.withFetchWord (s : State) (nbits w : Nat) : State := deliverWord nbits w s

end Sys2Proof.Machine
end

