-- ==== Sys2Proof/Machine/Pseudo.lean ====
section
/-! DEFINITION. The five pseudo-commands, one per operation of the source's interface, as command sequences (R80, R170
to R174), and what a command sequence does. -/

namespace Sys2Proof.Machine

/-- The pseudo-commands of R80. -/
inductive Pseudo
  /-- FREQ: `build_frequency_table` (R170). -/
  | freq (w : List Symbol)
  /-- TREE: `build_tree` (R171). -/
  | tree
  /-- CODES: `derive_code_table` (R172). -/
  | codes
  /-- ENCODE: `encode` (R173). -/
  | encode (w : List Symbol)
  /-- DECODE: `decode` (R174). -/
  | decode (b : Digits)
  deriving DecidableEq, Repr

/-- The expansion column of R80. -/
def Pseudo.expand : Pseudo → List Instr
  | .freq w => w.map .count
  | .tree => [.build]
  | .codes => [.derive]
  | .encode w => [.derive, .encBegin] ++ w.map .encSym ++ [.encEnd]
  | .decode b => [.decBegin] ++ b.map (fun d => .decBit (chr d)) ++ [.decEnd]

/-- A command sequence: the commands one after the other, each on the state the one before it left (R56). -/
def execAll : List Instr → State → Host.Outcome State Fault Refusal
  | [], s => .next s
  | i :: rest, s =>
    match exec i s with
    | .next t => execAll rest t
    | .fault r => .fault r
    | .refused r => .refused r

end Sys2Proof.Machine
end

