-- ==== Sys2Proof/Machine/Assembler.lean ====
section
/-! DEFINITION. The notation of R79 and R80 for commands, pseudo-commands and responses. A line is a list of characters.
What R79 leaves open is in log entry 15. -/

namespace Sys2Proof.Machine

/-! ### Numbers -/

/-- The hexadecimal digit of a number below 16. -/
def hexChar (n : Nat) : Char := if n < 10 then Char.ofNat (48 + n) else Char.ofNat (55 + n)

/-- The value of a hexadecimal digit, of either case. -/
def hexVal (c : Char) : Option Nat :=
  let n := c.toNat
  if 48 ≤ n ∧ n ≤ 57 then some (n - 48)
  else if 65 ≤ n ∧ n ≤ 70 then some (n - 55)
  else if 97 ≤ n ∧ n ≤ 102 then some (n - 87)
  else none

/-- A byte as two hexadecimal digits. -/
def hexByte (b : Byte) : List Char := [hexChar (b.toNat / 16), hexChar (b.toNat % 16)]

/-- Pairs of hexadecimal digits as bytes, up to the first character that is none. -/
def readHex : List Char → List Byte × List Char
  | a :: b :: rest =>
    match hexVal a, hexVal b with
    | some x, some y =>
      match readHex rest with
      | (bs, rest') => (BitVec.ofNat 8 (16 * x + y) :: bs, rest')
    | _, _ => ([], a :: b :: rest)
  | rest => ([], rest)

/-- The value of a decimal digit. -/
def decVal (c : Char) : Option Nat :=
  if 48 ≤ c.toNat ∧ c.toNat ≤ 57 then some (c.toNat - 48) else none

/-- A run of decimal digits, after the number read so far. -/
def readDecFrom : Nat → List Char → Nat × List Char
  | acc, [] => (acc, [])
  | acc, c :: rest =>
    match decVal c with
    | some d => readDecFrom (10 * acc + d) rest
    | none => (acc, c :: rest)

/-- A decimal number of at least one digit. -/
def readDec : List Char → Option (Nat × List Char)
  | [] => none
  | c :: rest =>
    match decVal c with
    | some d => some (readDecFrom d rest)
    | none => none

/-- The decimal digits of a number, before those already written; the first argument bounds their count. -/
def decFrom : Nat → Nat → List Char → List Char
  | 0, _, acc => acc
  | k + 1, n, acc =>
    if n < 10 then Char.ofNat (48 + n) :: acc else decFrom k (n / 10) (Char.ofNat (48 + n % 10) :: acc)

/-- A number in decimal. -/
def decChars (n : Nat) : List Char := decFrom (n + 1) n []

/-! ### Names -/

/-- The double quote. -/
def quoteChar : Char := Char.ofNat 34

/-- The single quote. -/
def tick : Char := Char.ofNat 39

/-- The mnemonic of a command (R72). -/
def mnemonic : Op → List Char
  | .clear => ['C', 'L', 'E', 'A', 'R']
  | .rdsr => ['R', 'D', 'S', 'R']
  | .count => ['C', 'O', 'U', 'N', 'T']
  | .items => ['I', 'T', 'E', 'M', 'S']
  | .build => ['B', 'U', 'I', 'L', 'D']
  | .rdnode => ['R', 'D', 'N', 'O', 'D', 'E']
  | .derive => ['D', 'E', 'R', 'I', 'V', 'E']
  | .rdcode => ['R', 'D', 'C', 'O', 'D', 'E']
  | .encBegin => ['E', 'N', 'C', '_', 'B', 'E', 'G', 'I', 'N']
  | .encSym => ['E', 'N', 'C', '_', 'S', 'Y', 'M']
  | .encEnd => ['E', 'N', 'C', '_', 'E', 'N', 'D']
  | .decBegin => ['D', 'E', 'C', '_', 'B', 'E', 'G', 'I', 'N']
  | .decBit => ['D', 'E', 'C', '_', 'B', 'I', 'T']
  | .decEnd => ['D', 'E', 'C', '_', 'E', 'N', 'D']

/-- The command of a mnemonic. -/
def opOfName (name : List Char) : Option Op :=
  (opTable.map OpRow.op).find? (fun op => mnemonic op == name)

/-- The names of the status registers in number order (R34). -/
def registerNames : List (List Char) :=
  [['S', 'T', 'A', 'T', 'U', 'S'], ['F', 'C', 'A', 'U', 'S', 'E'], ['F', 'C', 'M', 'D'], ['N', 'F', 'T'],
    ['T', 'O', 'T', 'A', 'L'], ['N', 'L', 'E', 'A', 'F'], ['N', 'N', 'O', 'D', 'E'], ['R', 'O', 'O', 'T'],
    ['C', 'U', 'R'], ['N', 'C', 'T']]

/-- The name of a fault cause, by its code (R201). -/
def causeName (code : Byte) : List Char :=
  match [Cause.illegalCommand, .badOperand, .sequenceError, .tableFull, .countOverflow, .noTree, .lookupFailure,
      .leafTransition, .truncated, .badDigit].find? (fun c => c.code == code) with
  | some .illegalCommand => ['I', 'l', 'l', 'e', 'g', 'a', 'l', 'C', 'o', 'm', 'm', 'a', 'n', 'd']
  | some .badOperand => ['B', 'a', 'd', 'O', 'p', 'e', 'r', 'a', 'n', 'd']
  | some .sequenceError => ['S', 'e', 'q', 'u', 'e', 'n', 'c', 'e', 'E', 'r', 'r', 'o', 'r']
  | some .tableFull => ['T', 'a', 'b', 'l', 'e', 'F', 'u', 'l', 'l']
  | some .countOverflow => ['C', 'o', 'u', 'n', 't', 'O', 'v', 'e', 'r', 'f', 'l', 'o', 'w']
  | some .noTree => ['N', 'o', 'T', 'r', 'e', 'e']
  | some .lookupFailure => ['L', 'o', 'o', 'k', 'u', 'p', 'F', 'a', 'i', 'l', 'u', 'r', 'e']
  | some .leafTransition => ['L', 'e', 'a', 'f', 'T', 'r', 'a', 'n', 's', 'i', 't', 'i', 'o', 'n']
  | some .truncated => ['T', 'r', 'u', 'n', 'c', 'a', 't', 'e', 'd']
  | some .badDigit => ['B', 'a', 'd', 'D', 'i', 'g', 'i', 't']
  | none => hexByte code

/-! ### Reading -/

/-- The rest of a line after its spaces. -/
def skipSpaces : List Char → List Char
  | [] => []
  | c :: rest => if c = ' ' then skipSpaces rest else c :: rest

/-- Whether nothing but spaces and a comment is left on a line. -/
def lineEnds (cs : List Char) : Bool :=
  match skipSpaces cs with
  | [] => true
  | c :: _ => c == ';'

/-- The word a line begins with: the characters before the first space or comment. -/
def readWord : List Char → List Char × List Char
  | [] => ([], [])
  | c :: rest =>
    if c = ' ' ∨ c = ';' then ([], c :: rest)
    else
      match readWord rest with
      | (word, rest') => (c :: word, rest')

/-- The byte of a printable ASCII character. -/
def printable (c : Char) : Option Byte :=
  if 32 ≤ c.toNat ∧ c.toNat ≤ 126 then some (BitVec.ofNat 8 c.toNat) else none

/-- A Symbol operand: a printable character between single quotes, or bytes in hexadecimal (R79). -/
def readSymbol : List Char → Option (Symbol × List Char)
  | [] => none
  | a :: rest =>
    if a = tick then
      match rest with
      | c :: e :: rest' => if e = tick then (printable c).map (fun b => ([b], rest')) else none
      | _ => none
    else if a = 'x' then
      match rest with
      | q :: hex =>
        if q = quoteChar then
          match readHex hex with
          | (bs, e :: rest') => if e = quoteChar then some (bs, rest') else none
          | (_, []) => none
        else none
      | [] => none
    else none

/-- The operand of DEC_BIT: a digit between single quotes, or any byte as 0xHH (R79). -/
def readDigitOperand : List Char → Option (Byte × List Char)
  | a :: b :: c :: rest =>
    if a = tick ∧ c = tick then
      if b = '0' then some (chr .zero, rest) else if b = '1' then some (chr .one, rest) else none
    else if a = '0' ∧ b = 'x' then
      match readHex (c :: rest) with
      | ([v], rest') => some (v, rest')
      | _ => none
    else none
  | _ => none

/-- The operand of RDSR: a register name or a number (R79). -/
def readRegister (cs : List Char) : Option (Byte × List Char) :=
  match registerNames.findIdx? (fun name => name == (readWord cs).1) with
  | some n => some (BitVec.ofNat 8 n, (readWord cs).2)
  | none =>
    match readDec cs with
    | some (n, rest) => if n < 256 then some (BitVec.ofNat 8 n, rest) else none
    | none => none

/-- The operand of a command, and the rest of the line. -/
def readOperand (op : Op) (cs : List Char) : Option (Instr × List Char) :=
  match op with
  | .clear => some (.clear, cs)
  | .rdsr => (readRegister (skipSpaces cs)).map (fun x => (.rdsr x.1, x.2))
  | .count => (readSymbol (skipSpaces cs)).map (fun x => (.count x.1, x.2))
  | .items => some (.items, cs)
  | .build => some (.build, cs)
  | .rdnode => (readDec (skipSpaces cs)).map (fun x => (.rdnode x.1, x.2))
  | .derive => some (.derive, cs)
  | .rdcode => (readSymbol (skipSpaces cs)).map (fun x => (.rdcode x.1, x.2))
  | .encBegin => some (.encBegin, cs)
  | .encSym => (readSymbol (skipSpaces cs)).map (fun x => (.encSym x.1, x.2))
  | .encEnd => some (.encEnd, cs)
  | .decBegin => some (.decBegin, cs)
  | .decBit => (readDigitOperand (skipSpaces cs)).map (fun x => (.decBit x.1, x.2))
  | .decEnd => some (.decEnd, cs)

/-- A command line: mnemonic, operand, then nothing but spaces and a comment (R79). -/
def readCommand (cs : List Char) : Option Instr :=
  match opOfName (readWord (skipSpaces cs)).1 with
  | none => none
  | some op =>
    match readOperand op (readWord (skipSpaces cs)).2 with
    | some (i, rest) => if lineEnds rest then some i else none
    | none => none

/-- The characters up to a closing double quote, and the rest. -/
def readQuoted : List Char → Option (List Char × List Char)
  | [] => none
  | c :: rest => if c = quoteChar then some ([], rest) else (readQuoted rest).map (fun x => (c :: x.1, x.2))

/-- A sequence of Symbols: Symbol operands, and double-quoted strings of printable characters, one one-byte Symbol per
character (R80). The first argument bounds the number of items. -/
def readSymbols : Nat → List Char → Option (List Symbol)
  | 0, cs => if lineEnds cs then some [] else none
  | k + 1, cs =>
    if lineEnds cs then some []
    else
      match skipSpaces cs with
      | [] => none
      | c :: rest =>
        if c = quoteChar then
          match readQuoted rest with
          | none => none
          | some (chs, rest') =>
            match chs.mapM printable, readSymbols k rest' with
            | some bs, some w => some (bs.map (fun b => [b]) ++ w)
            | _, _ => none
        else
          match readSymbol (c :: rest) with
          | none => none
          | some (sym, rest') => (readSymbols k rest').map (fun w => sym :: w)

/-- The digit a character stands for in a digit string. -/
def digitOfChar (c : Char) : Option Digit :=
  if c = '0' then some .zero else if c = '1' then some .one else none

/-- A digit string in double quotes (R9, R80), then the end of the line. -/
def readDigits (cs : List Char) : Option Digits :=
  match skipSpaces cs with
  | [] => none
  | c :: rest =>
    if c = quoteChar then
      match readQuoted rest with
      | none => none
      | some (chs, rest') => if lineEnds rest' then chs.mapM digitOfChar else none
    else none

/-- A pseudo-command line (R80). -/
def readPseudo (cs : List Char) : Option Pseudo :=
  let name := (readWord (skipSpaces cs)).1
  let rest := (readWord (skipSpaces cs)).2
  if name = ['F', 'R', 'E', 'Q'] then (readSymbols rest.length rest).map .freq
  else if name = ['T', 'R', 'E', 'E'] then if lineEnds rest then some .tree else none
  else if name = ['C', 'O', 'D', 'E', 'S'] then if lineEnds rest then some .codes else none
  else if name = ['E', 'N', 'C', 'O', 'D', 'E'] then (readSymbols rest.length rest).map .encode
  else if name = ['D', 'E', 'C', 'O', 'D', 'E'] then (readDigits rest).map .decode
  else none

/-- The commands of a line: none for a blank line or a comment, one for a command, the expansion for a
pseudo-command. -/
def assembleLine (cs : List Char) : Option (List Instr) :=
  if lineEnds cs then some []
  else
    match readCommand cs with
    | some i => some [i]
    | none => (readPseudo cs).map Pseudo.expand

/-! ### Writing -/

/-- Bytes in hexadecimal between x-quote and quote. -/
def writeSymbol (s : Symbol) : List Char := 'x' :: quoteChar :: (s.flatMap hexByte ++ [quoteChar])

/-- The operand of DEC_BIT. -/
def writeDigitOperand (c : Byte) : List Char :=
  match digit c with
  | some .zero => [tick, '0', tick]
  | some .one => [tick, '1', tick]
  | none => '0' :: 'x' :: hexByte c

/-- The operand of a command, with the space before it. -/
def writeOperand : Instr → List Char
  | .clear => []
  | .rdsr r => ' ' :: decChars r.toNat
  | .count s => ' ' :: writeSymbol s
  | .items => []
  | .build => []
  | .rdnode i => ' ' :: decChars i
  | .derive => []
  | .rdcode s => ' ' :: writeSymbol s
  | .encBegin => []
  | .encSym s => ' ' :: writeSymbol s
  | .encEnd => []
  | .decBegin => []
  | .decBit c => ' ' :: writeDigitOperand c
  | .decEnd => []

/-- A command as its mnemonic followed by its operand (R79). -/
def writeCommand (i : Instr) : List Char := mnemonic i.op ++ writeOperand i

/-- A packet as hexadecimal bytes, byte 0 first, a space between two (R79). -/
def writePacket : Packet → List Char
  | [] => []
  | [b] => hexByte b
  | b :: c :: rest => hexByte b ++ ' ' :: writePacket (c :: rest)

/-- A response as R79 writes it; none for a packet that is no response. -/
def writeResponse (p : Packet) : Option (List Char) :=
  match p with
  | [] => none
  | code :: rest =>
    if code = 0x00 then
      some (['-', '>', ' ', 'O', 'K'] ++ if rest = [] then [] else ' ' :: writePacket rest)
    else if code = 0x01 ∧ rest = [] then some ['-', '>', ' ', 'A', 'B', 'S', 'E', 'N', 'T']
    else
      match rest with
      | [cause] => if code = 0xFF then some (['-', '>', ' ', 'F', 'A', 'U', 'L', 'T', ' '] ++ causeName cause) else none
      | _ => none

end Sys2Proof.Machine
end

