-- ==== Sys2Proof/Machine/Tree.lean ====
section
/-! DEFINITION. The tree value of a NODE index: "The tree value is the normative object" (R23), with its leaves, paths
and lengths (R131 to R133, R176). -/

namespace Sys2Proof.Machine

/-- The tree value: `Leaf(sym, freq)` or `Node(freq, left, right)` (R23). -/
inductive HuffTree
  | leaf (sym : Symbol) (freq : Nat)
  | node (freq : Nat) (left right : HuffTree)
  deriving DecidableEq, Repr

/-- The frequency field of a tree's root. -/
def HuffTree.freq : HuffTree → Nat
  | .leaf _ f => f
  | .node f _ _ => f

/-- The leaves, left to right, as (Symbol, frequency) pairs. -/
def HuffTree.leaves : HuffTree → List (Symbol × Nat)
  | .leaf s f => [(s, f)]
  | .node _ l r => l.leaves ++ r.leaves

/-- The paths of the leaves: "left edges append 0, right edges append 1", the first digit being the edge that leaves
the root (R132). -/
def HuffTree.codes : HuffTree → List (Symbol × Digits)
  | .leaf s _ => [(s, [])]
  | .node _ l r =>
    l.codes.map (fun e => (e.1, Digit.zero :: e.2)) ++ r.codes.map (fun e => (e.1, Digit.one :: e.2))

/-- The frequencies of the Internal nodes, root first. -/
def HuffTree.internalFreqs : HuffTree → List Nat
  | .leaf _ _ => []
  | .node f l r => f :: (l.internalFreqs ++ r.internalFreqs)

/-- The number of edges from the root to the deepest leaf. -/
def HuffTree.height : HuffTree → Nat
  | .leaf _ _ => 0
  | .node _ l r => max l.height r.height + 1

/-- The sum of leaf frequency times leaf depth, for a tree whose root stands at depth `d`. -/
def HuffTree.weightFrom : Nat → HuffTree → Nat
  | d, .leaf _ f => f * d
  | d, .node _ l r => weightFrom (d + 1) l + weightFrom (d + 1) r

/-- The weighted path length of R176. -/
def HuffTree.weight (t : HuffTree) : Nat := t.weightFrom 0

/-- Every Internal node's frequency is the sum of its children's (R26 (a)). -/
def HuffTree.summed : HuffTree → Bool
  | .leaf _ _ => true
  | .node f l r => f == l.freq + r.freq && l.summed && r.summed

/-- `tree(i)` (R23), for a walk of at most as many levels as the first number; none when a record is missing or the
walk does not end. -/
def treeAt (nodes : List Node) : Nat → Nat → Option HuffTree
  | 0, _ => none
  | k + 1, i =>
    match nodes[i]? with
    | none => none
    | some (.leaf s f) => some (.leaf s f)
    | some (.internal f l r) =>
      match treeAt nodes k l, treeAt nodes k r with
      | some a, some b => some (.node f a b)
      | _, _ => none

/-- The source's `Option<Tree>`: the pair (TREE_PRESENT, ROOT) (R25). -/
def currentTree (s : State) : Option HuffTree :=
  if s.treePresent then treeAt s.node s.nnode s.root else none

/-- The Leaf records of NODE in index order, as (Symbol, frequency) pairs. -/
def leafEntries (nodes : List Node) : List (Symbol × Nat) :=
  nodes.filterMap (fun n => match n with | .leaf s f => some (s, f) | .internal _ _ _ => none)

/-- The child indices of all Internal records of NODE. -/
def childIndices (nodes : List Node) : List Nat :=
  nodes.flatMap (fun n => match n with | .leaf _ _ => [] | .internal _ l r => [l, r])

end Sys2Proof.Machine
end

