-- ==== Sys2Proof/Safety.lean ====
section
/-! DEFINITION. What a sound state of HTB is (the invariants of R22, R25, R26, R28, R29, R30, R32, R153), which states
are reached, and the terms the statements use. -/

namespace Sys2Proof.Machine

/-! ### Invariants -/

/-- The Frequency Table and its registers (R20, R21, R22). -/
structure TableInv (s : State) : Prop where
  /-- "no duplicate symbols", in the canonical order. -/
  sorted : Sorted s.ft
  /-- Every Symbol is within its length bounds (R11). -/
  symbols : ∀ e ∈ s.ft, Symbol.ok s.cfg e.1 = true
  /-- "counts are positive integers" (R21). -/
  counts : ∀ e ∈ s.ft, 1 ≤ e.2
  /-- NFT is the number of entries (R22). -/
  nft : s.nft = s.ft.length
  /-- TOTAL is the sum of the counts (R22). -/
  total : s.total = (s.ft.map Prod.snd).sum
  /-- At most N_MAX entries (R20). -/
  capacity : s.nft ≤ s.cfg.nMax
  /-- TOTAL fits in FREQ_W bits, so every count does (R22). -/
  bound : s.total ≤ s.cfg.maxCount

/-- The shape of a tree that is present (R24, R25, R26). -/
structure TreeShape (s : State) : Prop where
  nleaf_pos : 1 ≤ s.nleaf
  nleaf_le : s.nleaf ≤ s.cfg.nMax
  /-- NNODE = 2 NLEAF - 1 (R25). -/
  nnode : s.nnode = 2 * s.nleaf - 1
  /-- The root is the last record (R24). -/
  root : s.root = s.nnode - 1
  /-- Indices below NLEAF are the leaves, with positive frequencies (R23, R24). -/
  leaves : ∀ i, i < s.nleaf → ∃ sym f, s.node[i]? = some (.leaf sym f) ∧ Symbol.ok s.cfg sym = true ∧ 1 ≤ f
  /-- The leaves stand in ascending Symbol order (R24), so their Symbols are pairwise different (R26 (d)). -/
  order : Sorted (leafEntries s.node)
  /-- The other indices are Internal records whose children have smaller indices (R23, R119 (b)) and whose frequency is
  the sum of theirs (R26 (a)). -/
  internals : ∀ i, s.nleaf ≤ i → i < s.nnode → ∃ f l r, s.node[i]? = some (.internal f l r) ∧ l < i ∧ r < i ∧
    f = nodeFreq (readNode s.node l) + nodeFreq (readNode s.node r)
  /-- Every index but ROOT is the child of exactly one Internal record, and ROOT of none (R26 (c)). -/
  children : (childIndices s.node).Perm (List.range s.root)
  /-- The greatest frequency fits in FREQ_W bits (R22). -/
  bound : nodeFreq (readNode s.node s.root) ≤ s.cfg.maxCount

/-- The tree registers and NODE (R25). -/
structure TreeInv (s : State) : Prop where
  /-- NODE lists exactly the records a command can read. -/
  records : s.node.length = s.nnode
  /-- TREE_PRESENT = 0 means ROOT = NLEAF = NNODE = 0 (R25). -/
  absent : s.treePresent = false → s.root = 0 ∧ s.nleaf = 0 ∧ s.nnode = 0
  present : s.treePresent = true → TreeShape s

/-- The Code Table and its registers (R28). -/
structure CodeInv (s : State) : Prop where
  sorted : Sorted s.ct
  /-- NCT is the number of entries. -/
  nct : s.nct = s.ct.length
  /-- Without CT_VALID the table is empty. -/
  invalid : s.ctValid = false → s.ct = []
  /-- "CT = {} exactly when TREE_PRESENT = 0" (R28). -/
  absent : s.ctValid = true → s.treePresent = false → s.ct = []
  /-- One entry per leaf of the current tree (R28), its code the leaf's path (R132). -/
  present : s.ctValid = true → s.treePresent = true → s.nct = s.nleaf ∧
    ∃ t, currentTree s = some t ∧ ∀ sym code, lookup s.ct sym = some code ↔ (sym, code) ∈ t.codes

/-- The sequencing and fault registers (R29, R30, R32, R153). -/
structure SequenceInv (s : State) : Prop where
  /-- "FCAUSE ≠ 0 exactly when MODE = FAULT" (R32). -/
  fault : s.mode = .fault ↔ s.fcause ≠ 0
  /-- FCMD is 0 when no fault stands (R32). -/
  noFault : s.mode ≠ .fault → s.fcmd = 0
  /-- An encode session has a valid Code Table (R140). -/
  encode : s.mode = .enc → s.ctValid = true
  /-- A decode session has a tree (R150). -/
  decode : s.mode = .dec → s.treePresent = true
  /-- In a decode session CUR is ROOT or an Internal node of the tree (R153). -/
  walk : s.mode = .dec → s.cur = s.root ∨ ∃ f l r, s.node[s.cur]? = some (.internal f l r)
  /-- CUR holds a node index of some tree, or its reset value 0 (R20, R30). -/
  cur : s.cur ≤ 2 * s.cfg.nMax - 2

/-- A sound state of HTB. -/
structure Inv (s : State) : Prop where
  config : s.cfg.wf
  table : TableInv s
  tree : TreeInv s
  codes : CodeInv s
  sequence : SequenceInv s

/-! ### Reached states -/

/-- The states a run from reset reaches: the host may send any event at any time (R8). -/
inductive Reachable : State → Prop
  | start (c : Config) (h : c.wf) : Reachable (State.initial c)
  | send (s : State) (e : HostEvent) (h : Reachable s) : Reachable { s with inbox := s.inbox ++ [e] }
  | step (s t : State) (h : Reachable s) (hs : step s = .next t) : Reachable t

/-! ### Terms of the statements -/

/-- Fault entry written out (R203): FCAUSE, FCMD, MODE, and the response FF cause; nothing else. -/
def faulted (cause cmd : Byte) (s : State) : State :=
  { s with fcause := cause, fcmd := cmd, mode := .fault, outbox := s.outbox ++ [[0xFF, cause]] }

/-- One response packet sent, nothing else. -/
def answered (p : Packet) (s : State) : State := { s with outbox := s.outbox ++ [p] }

/-- The "yes" entries of R204 for the modes other than FAULT, and "performed" for FAULT. -/
def AcceptedIn : Instr → Mode → Prop
  | .clear, _ => True
  | .rdsr _, _ => True
  | .count _, m => m = .idle
  | .items, m => m ≠ .fault
  | .build, m => m = .idle
  | .rdnode _, m => m ≠ .fault
  | .derive, m => m = .idle
  | .rdcode _, m => m ≠ .fault
  | .encBegin, m => m = .idle
  | .encSym _, m => m = .enc
  | .encEnd, m => m = .enc
  | .decBegin, m => m = .idle
  | .decBit _, m => m = .dec
  | .decEnd, m => m = .dec

/-- The order of R114 on positions of the active collection: smaller frequency first, then earlier position. -/
def Before (i f j g : Nat) : Prop := f < g ∨ (f = g ∧ i < j)

/-- `m1` and `m2`, holding the frequencies `f1` and `f2`, are the least and second-least of the positions that hold a
frequency (R114). -/
structure LeastTwo (freqs : List (Option Nat)) (m1 f1 m2 f2 : Nat) : Prop where
  at1 : freqs[m1]? = some (some f1)
  at2 : freqs[m2]? = some (some f2)
  differ : m1 ≠ m2
  least : ∀ j g, freqs[j]? = some (some g) → j ≠ m1 → Before m1 f1 j g
  second : ∀ j g, freqs[j]? = some (some g) → j ≠ m1 → j ≠ m2 → Before m2 f2 j g

/-- The codes of the Symbols of a stream, one after the other, as a set of codes gives them (R173). -/
def Encodes (codes : List (Symbol × Digits)) : List Symbol → Digits → Prop
  | [], b => b = []
  | s :: w, b => ∃ c b', (s, c) ∈ codes ∧ b = c ++ b' ∧ Encodes codes w b'

end Sys2Proof.Machine
end

