-- ==== Sys2Proof/Certificates/Slice0/Obligations.lean ====
section
/-! DEFINITION. The statements for the provers, from the numbered rules of spec/. -/

open Sys2Proof Sys2Proof.Machine

/-! ### Encoding (R12, R71 to R75, R79) -/

/-- R71 to R74: decoding the packet of a well-formed command gives the command back, with every operand. -/
def Obligations.EncodedCommandsDecode : Prop :=
  ∀ (c : Config) (i : Instr), WellFormed c i = true → decode c (encode c i) = .command i

/-- R74: a packet that decodes to a command is that command's only packet, and the command is well formed. -/
def Obligations.EachPacketHasOneCommand : Prop :=
  ∀ (c : Config) (p : Packet) (i : Instr), decode c p = .command i → WellFormed c i = true ∧ encode c i = p

/-- R74, R75: which packets are IllegalCommand and which BadOperand, the 14 opcode bytes written out. -/
def Obligations.MalformedPacketsAreNamed : Prop :=
  ∀ (c : Config) (p : Packet),
    (decode c p = .illegalCommand ↔
      p = [] ∨ ∃ opc rest, p = opc :: rest ∧
        opc ∉ [0x01, 0x02, 0x10, 0x11, 0x20, 0x21, 0x30, 0x31, 0x40, 0x41, 0x42, 0x50, 0x51, (0x52 : Byte)]) ∧
    (decode c p = .badOperand ↔
      ∃ opc rest, p = opc :: rest ∧
        ((opc ∈ [0x01, 0x11, 0x20, 0x30, 0x40, 0x42, 0x50, (0x52 : Byte)] ∧ rest.length ≠ 0) ∨
          (opc ∈ [0x02, (0x51 : Byte)] ∧ rest.length ≠ 1) ∨
          (opc = 0x21 ∧ rest.length ≠ c.nodeB) ∨
          (opc ∈ [0x10, 0x31, (0x41 : Byte)] ∧ (rest.length < 1 ∨ c.symMaxBytes < rest.length))))

/-- R71, R72, R73: packets written out byte by byte, one per format and unit, in the reference configuration. -/
def Obligations.WrittenOutPacketsDecode : Prop :=
  decode Config.reference [0x01] = .command .clear ∧
  decode Config.reference [0x02, 0x06] = .command (.rdsr 6) ∧
  decode Config.reference [0x10, 0xC3, 0xA9] = .command (.count [0xC3, 0xA9]) ∧
  decode Config.reference [0x20] = .command .build ∧
  decode Config.reference [0x21, 0x01, 0x04] = .command (.rdnode 260) ∧
  decode Config.reference [0x31, 0x62] = .command (.rdcode [0x62]) ∧
  decode Config.reference [0x41, 0x7A] = .command (.encSym [0x7A]) ∧
  decode Config.reference [0x51, 0x31] = .command (.decBit 0x31) ∧
  decode Config.reference [0x00] = .illegalCommand ∧
  decode Config.reference [0x20, 0x00] = .badOperand

/-- R12: the Symbol order is "smaller unsigned byte at the first difference, or a proper prefix". -/
def Obligations.SymbolOrderIsLexicographic : Prop :=
  ∀ s t : Symbol, symLt s t = true ↔
    (∃ k a b, s.take k = t.take k ∧ s[k]? = some a ∧ t[k]? = some b ∧ a.toNat < b.toNat) ∨
      (s.length < t.length ∧ ∀ k, k < s.length → s[k]? = t[k]?)

/-- R79: the written form of a command reads back as the command. The details of the notation are the model's
choice (log entry 15). -/
def Obligations.WrittenCommandsReadBack : Prop :=
  ∀ i : Instr, readCommand (writeCommand i) = some i

/-! ### The step (R5, R56, R70, R74, R202, R237) -/

/-- A waiting packet that decodes to a command is executed as that command, and is gone from the queue. -/
def Obligations.StepRunsTheDecodedCommand : Prop :=
  ∀ (s : State) (p : Packet) (rest : List HostEvent) (i : Instr),
    s.inbox = .packet p :: rest → decode s.cfg p = .command i →
    step s = exec i { s with inbox := rest }

/-- R202: the order of the checks, all of them, for every packet in every state; the last two clauses are the orders
inside step 4 (CountOverflow also where TableFull applies, BadDigit also at a leaf). -/
def Obligations.ChecksComeInOrder : Prop :=
  ∀ (s u : State) (p : Packet) (rest : List HostEvent),
    s.inbox = .packet p :: rest → u = { s with inbox := rest } →
    (s.mode = .fault → p = [0x01] → step s = exec .clear u) ∧
    (s.mode = .fault → ∀ r : Byte, p = [0x02, r] → r.toNat ≤ 9 → step s = exec (.rdsr r) u) ∧
    (s.mode = .fault → p ≠ [0x01] → (∀ r : Byte, r.toNat ≤ 9 → p ≠ [0x02, r]) →
      step s = .next (answered [0xFF, s.fcause] u)) ∧
    (s.mode ≠ .fault → decode s.cfg p = .illegalCommand → step s = .next (faulted 0x01 (p.headD 0x00) u)) ∧
    (s.mode ≠ .fault → decode s.cfg p = .badOperand → step s = .next (faulted 0x02 (p.headD 0x00) u)) ∧
    (s.mode ≠ .fault → ∀ i, decode s.cfg p = .command i → ¬ AcceptedIn i s.mode →
      step s = .next (faulted 0x03 (p.headD 0x00) u)) ∧
    (s.mode ≠ .fault → ∀ i, decode s.cfg p = .command i → AcceptedIn i s.mode → step s = exec i u) ∧
    (s.mode = .idle → s.total = 2 ^ s.cfg.freqW - 1 → ∀ sym, decode s.cfg p = .command (.count sym) →
      step s = .next (faulted 0x05 0x10 u)) ∧
    (s.mode = .dec → ∀ ch : Byte, p = [0x51, ch] → ch ≠ 0x30 → ch ≠ 0x31 → step s = .next (faulted 0x22 0x51 u))

/-- R70, R77: every packet is answered by exactly one response packet, which begins with 00, is 01, or is FF and the
cause; an FF response leaves HTB in MODE = FAULT. -/
def Obligations.OneResponsePerPacket : Prop :=
  ∀ (s : State) (p : Packet) (rest : List HostEvent), s.inbox = .packet p :: rest →
    ∃ t r, step s = .next t ∧ t.inbox = rest ∧ t.outbox = s.outbox ++ [r] ∧ t.cfg = s.cfg ∧
      ((∃ payload, r = 0x00 :: payload) ∨ r = [0x01] ∨ (r = [0xFF, t.fcause] ∧ t.mode = .fault))

/-- R237: every step and every command ends in a next state, and with no packet waiting HTB stays as it is. -/
def Obligations.EveryCommandEnds : Prop :=
  (∀ s, ∃ t, step s = .next t) ∧ (∀ i s, ∃ t, exec i s = .next t) ∧ (∀ s : State, s.inbox = [] → step s = .next s)

/-- R56: packets waiting in the queue take effect one at a time, each completely, in the order they arrived. -/
def Obligations.PacketsTakeEffectInArrivalOrder : Prop :=
  ∀ (is : List Instr) (s : State) (q : List HostEvent), (∀ i ∈ is, WellFormed s.cfg i = true) →
    Sys2Proof.core.run is.length
      ({ s with inbox := is.map (fun i => HostEvent.packet (encode s.cfg i)) ++ q } : State) =
    execAll is { s with inbox := q }

/-! ### Faults and modes (R203, R204, R205, R208) -/

/-- R204: the whole mode table, with the two conditions it repeats and the FAULT column of R205: "performed" is the
effect of CLEAR (R160) and, for a register 0 to 9, of RDSR (R161). -/
def Obligations.ModeTable : Prop :=
  ∀ (i : Instr) (s : State),
    (s.mode ≠ .fault → ¬ AcceptedIn i s.mode → exec i s = .next (faulted 0x03 i.opc s)) ∧
    (s.mode ≠ .fault → AcceptedIn i s.mode → (i = .encBegin → s.ctValid = true) →
      exec i s ≠ .next (faulted 0x03 i.opc s)) ∧
    (s.mode = .idle → i = .encBegin → s.ctValid = false → exec i s = .next (faulted 0x03 0x40 s)) ∧
    (s.mode = .idle → i = .decBegin → s.treePresent = false → exec i s = .next (faulted 0x06 0x50 s)) ∧
    (s.mode = .fault → ¬ AcceptedIn i s.mode → exec i s = .next (answered [0xFF, s.fcause] s)) ∧
    (s.mode = .fault → i = .clear →
      exec i s = .next (answered [0x00] { State.initial s.cfg with inbox := s.inbox, outbox := s.outbox })) ∧
    (s.mode = .fault → ∀ r : Byte, i = .rdsr r → r.toNat ≤ 9 →
      ∃ v, statusRegister s r.toNat = some v ∧ exec i s = .next (answered (0x00 :: beBytes 8 v) s))

/-- R203: a step that enters MODE = FAULT writes FCAUSE, FCMD and MODE, answers FF cause, and changes nothing else. -/
def Obligations.FaultsArePrecise : Prop :=
  ∀ (s t : State) (p : Packet) (rest : List HostEvent), s.inbox = .packet p :: rest → s.mode ≠ .fault →
    step s = .next t → t.mode = .fault →
    ∃ cause : Cause, t = { s with
      inbox := rest, fcause := cause.code, fcmd := (if p.length = 0 then 0x00 else p.headD 0x00), mode := .fault,
      outbox := s.outbox ++ [[0xFF, cause.code]] }

/-- R205: the standing fault, and the only ways out of it. -/
def Obligations.StandingFaultUntilClearOrReset : Prop :=
  ∀ (s : State) (e : HostEvent) (rest : List HostEvent), s.inbox = e :: rest → s.mode = .fault →
    (∀ p, e = .packet p → p ≠ [0x01] → (∀ r : Byte, r.toNat ≤ 9 → p ≠ [0x02, r]) →
      step s = .next { s with inbox := rest, outbox := s.outbox ++ [[0xFF, s.fcause]] }) ∧
    (∀ t, step s = .next t → t.mode ≠ .fault →
      (e = .packet [0x01] ∨ e = .reset) ∧
      t = { State.initial s.cfg with
        inbox := rest, outbox := s.outbox ++ (if e = .reset then [] else [[0x00]]) })

/-- R208: an ABSENT answer is no fault: it is given only outside MODE = FAULT, does not lead there, and leaves the fault
registers alone. -/
def Obligations.AbsenceIsNoFault : Prop :=
  ∀ (i : Instr) (s t : State), exec i s = .next t → t.outbox = s.outbox ++ [[0x01]] →
    s.mode ≠ .fault ∧ t.mode ≠ .fault ∧ t.fcause = s.fcause ∧ t.fcmd = s.fcmd

/-! ### Reset and the system commands (R38, R160, R161, R230) -/

/-- R38: the values after the platform's reset, after CLEAR and in `State.reset`, and that no NODE record is readable
then. The reference parameters and empty queues of `State.reset` are the model's choice (log entries 2, 4). -/
def Obligations.ResetValues : Prop :=
  ∀ s t : State,
    (t = State.reset ∨ (∃ rest, s.inbox = .reset :: rest ∧ step s = .next t) ∨ exec .clear s = .next t) →
    t.ft = [] ∧ t.nft = 0 ∧ t.total = 0 ∧ t.treePresent = false ∧ t.root = 0 ∧ t.nleaf = 0 ∧ t.nnode = 0 ∧
    t.ct = [] ∧ t.ctValid = false ∧ t.nct = 0 ∧ t.mode = .idle ∧ t.cur = 0 ∧ t.ebuf = [] ∧ t.dbuf = [] ∧
    t.fcause = 0 ∧ t.fcmd = 0 ∧ (∀ n, exec (.rdnode n) t = .next (answered [0x01] t))

/-- R160: CLEAR completes in every mode and writes everything. -/
def Obligations.ClearWritesEverything : Prop :=
  ∀ s : State, exec .clear s = .next { s with
    ft := [], nft := 0, total := 0, node := [], treePresent := false, root := 0, nleaf := 0, nnode := 0
    ct := [], nct := 0, ctValid := false, mode := .idle, cur := 0, ebuf := [], dbuf := [], fcause := 0, fcmd := 0
    outbox := s.outbox ++ [[0x00]] }

/-- R230: reset leaves the same state as CLEAR and sends no response. -/
def Obligations.ResetEvent : Prop :=
  ∀ (s : State) (rest : List HostEvent), s.inbox = .reset :: rest →
    ∃ t, step s = .next t ∧ exec .clear { s with inbox := rest } = .next (answered [0x00] t) ∧ t.outbox = s.outbox

/-- R33: the bits of STATUS, read by RDSR 0 in every mode. -/
def Obligations.StatusBits : Prop :=
  ∀ s : State, ∃ b : Byte,
    exec (.rdsr 0) s = .next (answered [0x00, 0x00, 0x00, 0x00, 0x00, 0x00, 0x00, 0x00, b] s) ∧
    b.extractLsb' 0 2 = (match s.mode with | .idle => 0 | .enc => 1 | .dec => 2 | .fault => 3) ∧
    b.getLsbD 2 = s.treePresent ∧
    (b.getLsbD 3 = true ↔ s.treePresent = true ∧ ∃ sym f, readNode s.node s.root = .leaf sym f) ∧
    b.getLsbD 4 = s.ctValid ∧ b.getLsbD 5 = false ∧ b.getLsbD 6 = false ∧ b.getLsbD 7 = false

/-- R34, R161: registers 1 to 9 read as 64-bit values, most significant byte first, in every mode, and a reserved
number is BadOperand, or the standing fault in MODE = FAULT. That a value of 2^64 or more, which no sound state holds
(R7, R22), answers its low 64 bits is the model's choice (log entry 7). -/
def Obligations.StatusRegistersRead : Prop :=
  ∀ (s : State) (r : Byte),
    (∀ v, [s.fcause.toNat, s.fcmd.toNat, s.nft, s.total, s.nleaf, s.nnode, s.root, s.cur, s.nct][r.toNat - 1]? = some v →
      1 ≤ r.toNat →
      ∃ payload, exec (.rdsr r) s = .next (answered (0x00 :: payload) s) ∧ payload.length = 8 ∧
        ofBytes payload = v % 2 ^ 64) ∧
    (9 < r.toNat → s.mode ≠ .fault → exec (.rdsr r) s = .next (faulted 0x02 0x02 s)) ∧
    (9 < r.toNat → s.mode = .fault → exec (.rdsr r) s = .next (answered [0xFF, s.fcause] s))

/-- R7, R20, R34: in a sound state every register fits in its width. -/
def Obligations.RegistersFitTheirWidths : Prop :=
  ∀ s : State, Inv s →
    s.nft < 2 ^ s.cfg.nodeW ∧ s.nleaf < 2 ^ s.cfg.nodeW ∧ s.nnode < 2 ^ s.cfg.nodeW ∧ s.root < 2 ^ s.cfg.nodeW ∧
    s.cur < 2 ^ s.cfg.nodeW ∧ s.nct < 2 ^ s.cfg.nodeW ∧ s.total < 2 ^ s.cfg.freqW ∧
    (∀ e ∈ s.ft, e.2 < 2 ^ s.cfg.freqW) ∧ (∀ n ∈ s.node, nodeFreq n < 2 ^ s.cfg.freqW)

/-! ### Frequency Table (R100, R101, R102, R170) -/

/-- R100: COUNT completes when neither capacity test applies, adds one to the Symbol's count and to TOTAL, and to NFT for
a new Symbol; every other count and every other piece of state is unchanged. -/
def Obligations.CountAddsOne : Prop :=
  ∀ (s : State) (sym : Symbol), s.mode = .idle → s.total ≠ 2 ^ s.cfg.freqW - 1 →
    (lookup s.ft sym = none → s.nft ≠ s.cfg.nMax) →
    ∃ ft', exec (.count sym) s = .next { s with
        ft := ft', total := s.total + 1, nft := (if lookup s.ft sym = none then s.nft + 1 else s.nft)
        outbox := s.outbox ++ [0x00 :: beBytes s.cfg.freqB ((lookup s.ft sym).getD 0 + 1)] } ∧
      lookup ft' sym = some ((lookup s.ft sym).getD 0 + 1) ∧
      (∀ k, k ≠ sym → lookup ft' k = lookup s.ft k) ∧ (Sorted s.ft → Sorted ft')

/-- R100, R202: when a capacity test applies COUNT faults and counts nothing; CountOverflow is tested first. -/
def Obligations.CountCapacityFaults : Prop :=
  ∀ (s : State) (sym : Symbol), s.mode = .idle →
    (s.total = 2 ^ s.cfg.freqW - 1 → exec (.count sym) s = .next (faulted 0x05 0x10 s)) ∧
    (s.total ≠ 2 ^ s.cfg.freqW - 1 → lookup s.ft sym = none → s.nft = s.cfg.nMax →
      exec (.count sym) s = .next (faulted 0x04 0x10 s))

/-- R101: ITEMS answers every entry of the table once, in ascending Symbol order, as length, Symbol, count, and changes
nothing. -/
def Obligations.ItemsReadsTheTableInOrder : Prop :=
  ∀ s : State, s.mode ≠ .fault → Memory.wf s →
    ∃ items : List (Symbol × Nat),
      exec .items s = .next (answered
        (0x00 :: items.flatMap (fun e => [BitVec.ofNat 8 e.1.length] ++ e.1 ++ beBytes s.cfg.freqB e.2)) s) ∧
      items.Pairwise (fun a b => symLt a.1 b.1 = true) ∧
      (∀ k c, (k, c) ∈ items ↔ lookup s.ft k = some c)

/-- R102, R170: counting the Symbols of a stream from an empty table, within capacity, leaves exactly the occurrence
counts. -/
def Obligations.FreqCountsOccurrences : Prop :=
  ∀ (s : State) (w : List Symbol), s.mode = .idle → s.ft = [] → s.nft = 0 → s.total = 0 →
    w.dedup.length ≤ s.cfg.nMax → w.length ≤ 2 ^ s.cfg.freqW - 1 →
    ∃ t, execAll (Pseudo.freq w).expand s = .next t ∧
      t = { s with ft := t.ft, nft := w.dedup.length, total := w.length, outbox := t.outbox } ∧
      (∀ k, lookup t.ft k = if k ∈ w then some (w.count k) else none) ∧ t.ft.length = w.dedup.length

/-- R102: the table depends on the multiset of the Symbols counted, not on their order. -/
def Obligations.CountingOrderDoesNotMatter : Prop :=
  ∀ (s t t' : State) (w w' : List Symbol), Sorted s.ft → w.Perm w' →
    execAll (Pseudo.freq w).expand s = .next t → execAll (Pseudo.freq w').expand s = .next t' →
    t.mode = .idle → t'.mode = .idle →
    t.ft = t'.ft ∧ t.nft = t'.nft ∧ t.total = t'.total

/-! ### Tree Builder (R110 to R121) -/

/-- R114: with at least two positions occupied, the least and the second-least position, ties going to the earlier one,
exist, and the scan returns them. -/
def Obligations.ScanFindsTheLeastTwo : Prop :=
  ∀ freqs : List (Option Nat), 2 ≤ (freqs.filterMap id).length →
    (∃ m1 f1 m2 f2, LeastTwo freqs m1 f1 m2 f2) ∧
    ∀ m1 f1 m2 f2, LeastTwo freqs m1 f1 m2 f2 → select2 freqs = (some ⟨m1, f1⟩, some ⟨m2, f2⟩)

/-- R116: a merge writes the Internal record with the child of the smaller position on the left, puts it in the slot of
the smaller position and empties the other; under the other reading of D12 it goes to the slot of the minimum. -/
def Obligations.MergeFollowsTheSlotRule : Prop :=
  ∀ (w : Work) (m1 f1 m2 f2 : Nat), LeastTwo (slotFreqs w) m1 f1 m2 f2 →
    ∃ l r, w.slots[min m1 m2]? = some (some l) ∧ w.slots[max m1 m2]? = some (some r) ∧
      merge .lo w =
        { nodes := w.nodes ++ [.internal (nodeFreq (readNode w.nodes l) + nodeFreq (readNode w.nodes r)) l r]
          slots := (w.slots.set (min m1 m2) (some w.nodes.length)).set (max m1 m2) none } ∧
      merge .m1 w =
        { nodes := w.nodes ++ [.internal (nodeFreq (readNode w.nodes l) + nodeFreq (readNode w.nodes r)) l r]
          slots := (w.slots.set m1 (some w.nodes.length)).set m2 none }

/-- R117: each merge lowers the number of occupied slots by one, from n to 1; after the n - 1 merges slot 0 holds the
node of the last merge, index 2n - 2, which is the root, and every other slot is Absent. All of it is for the
configuration switch MERGE_SLOT = lo, the default of D12; that the model has the switch, with that default, is log
entry 3. -/
def Obligations.OneSlotRemains : Prop :=
  ∀ items : List (Symbol × Nat), items ≠ [] →
    (Nat.iterate (merge .lo) (items.length - 1) (leaves items)).slots =
      some (2 * items.length - 2) :: List.replicate (items.length - 1) none ∧
    rootOf (buildWork .lo items) = 2 * items.length - 2 ∧
    ∀ k, k ≤ items.length - 1 →
      ((Nat.iterate (merge .lo) k (leaves items)).slots.filterMap id).length = items.length - k

/-- R112: BUILD of the empty table leaves no tree, answers ABSENT, and is no fault. -/
def Obligations.BuildOfNothingIsAbsent : Prop :=
  ∀ s : State, s.mode = .idle → s.ft = [] → s.nft = 0 →
    exec .build s = .next { s with
      node := [], treePresent := false, root := 0, nleaf := 0, nnode := 0, total := 0
      ct := [], nct := 0, ctValid := false, outbox := s.outbox ++ [[0x01]] }

/-- R113: BUILD of one entry makes the leaf the root, without a merge, and STATUS.DEGEN then reads 1. -/
def Obligations.BuildOfOneSymbol : Prop :=
  ∀ (s : State) (sym : Symbol) (c : Nat), s.mode = .idle → s.ft = [(sym, c)] → s.nft = 1 →
    ∃ t, exec .build s = .next t ∧
      t = { s with
        node := [.leaf sym c], treePresent := true, root := 0, nleaf := 1, nnode := 1, ft := [], nft := 0, total := 0
        ct := [], nct := 0, ctValid := false, outbox := s.outbox ++ [0x00 :: beBytes s.cfg.nodeB 0] } ∧
      (statusByte t).getLsbD 3 = true ∧ (s.cfg = Config.reference → (0x00 :: beBytes s.cfg.nodeB 0) = [0x00, 0x00, 0x00])

/-- R110, R111, R118: BUILD completes on every non-empty table, with the leaves first in Symbol order, the records of
n - 1 merges after them, the root last, and the Frequency Table and the Code Table discarded. -/
def Obligations.BuildMakesTheTree : Prop :=
  ∀ (s : State), s.mode = .idle → s.ft ≠ [] → s.nft = s.ft.length →
    ∃ nodes : List Node, exec .build s = .next { s with
        node := nodes, treePresent := true, root := 2 * s.nft - 2, nleaf := s.nft, nnode := 2 * s.nft - 1
        ft := [], nft := 0, total := 0, ct := [], nct := 0, ctValid := false
        outbox := s.outbox ++ [0x00 :: beBytes s.cfg.nodeB (2 * s.nft - 2)] } ∧
      nodes.length = 2 * s.nft - 1 ∧
      (∀ (i : Nat) (e : Symbol × Nat), s.ft[i]? = some e → nodes[i]? = some (Node.leaf e.1 e.2)) ∧
      nodes = (Nat.iterate (merge s.cfg.mergeSlot) (s.ft.length - 1) (leaves s.ft)).nodes

/-- R26, R119: the facts about the tree BUILD makes from a sound table: its shape, its leaves, its sums, the order of its
Internal frequencies and its depth. -/
def Obligations.BuiltTreeFacts : Prop :=
  ∀ s t : State, s.mode = .idle → TableInv s → s.ft ≠ [] → exec .build s = .next t →
    TreeShape t ∧
    (∀ i j, t.nleaf ≤ i → i ≤ j → j < t.nnode →
      nodeFreq (readNode t.node i) ≤ nodeFreq (readNode t.node j)) ∧
    ∃ tr, currentTree t = some tr ∧ tr.leaves.Perm s.ft ∧ tr.internalFreqs.length = s.ft.length - 1 ∧
      tr.summed = true ∧ tr.freq = s.total ∧ tr.height ≤ s.ft.length - 1

/-- R119 (d): the tree's weighted path length is minimal among all binary trees with that leaf multiset. -/
def Obligations.BuiltTreeIsOptimal : Prop :=
  ∀ (s t : State) (tr other : HuffTree), s.mode = .idle → TableInv s → exec .build s = .next t →
    currentTree t = some tr → other.leaves.Perm tr.leaves → tr.weight ≤ other.weight

/-- R120: the tree is determined by the items alone: two states with the same items get the same records and root. -/
def Obligations.TreeDependsOnItemsOnly : Prop :=
  ∀ s s' t t' : State, s.mode = .idle → s'.mode = .idle → s.ft = s'.ft → s.nft = s'.nft →
    s.cfg.mergeSlot = s'.cfg.mergeSlot → exec .build s = .next t → exec .build s' = .next t' →
    t.node = t'.node ∧ t.root = t'.root ∧ t.nleaf = t'.nleaf ∧ t.nnode = t'.nnode ∧ t.treePresent = t'.treePresent

/-- R121: RDNODE answers the record, or ABSENT at and above NNODE, and changes nothing. -/
def Obligations.RdnodeReadsOneRecord : Prop :=
  ∀ (s : State) (i : Nat), s.mode ≠ .fault →
    (s.nnode ≤ i → exec (.rdnode i) s = .next (answered [0x01] s)) ∧
    (i < s.nnode → ∀ sym f, s.node[i]? = some (.leaf sym f) →
      exec (.rdnode i) s = .next (answered ([0x00, 0x00] ++ beBytes s.cfg.freqB f ++ sym) s)) ∧
    (i < s.nnode → ∀ f l r, s.node[i]? = some (.internal f l r) →
      exec (.rdnode i) s = .next (answered
        ([0x00, 0x01] ++ beBytes s.cfg.freqB f ++ beBytes s.cfg.nodeB l ++ beBytes s.cfg.nodeB r) s))

/-! ### Code Table Deriver (R130 to R134) -/

/-- R130, R131, R132: DERIVE completes in a sound state and gives every leaf of the tree its path, or the empty table
without a tree; only CT, NCT and CT_VALID change. -/
def Obligations.DeriveGivesThePaths : Prop :=
  ∀ s : State, s.mode = .idle → TreeInv s →
    ∃ table, exec .derive s = .next { s with
        ct := table, nct := s.nleaf, ctValid := true
        outbox := s.outbox ++ [0x00 :: beBytes s.cfg.nodeB s.nleaf] } ∧
      Sorted table ∧ table.length = s.nleaf ∧ (s.treePresent = false → table = []) ∧
      (s.treePresent = true → ∃ tr, currentTree s = some tr ∧
        ∀ sym code, lookup table sym = some code ↔ (sym, code) ∈ tr.codes)

/-- R133: the properties of a valid table with a tree: one entry per leaf, a prefix code, the bounds on the lengths, and
completeness. -/
def Obligations.CodesFormACompletePrefixCode : Prop :=
  ∀ s : State, Inv s → s.ctValid = true → s.treePresent = true →
    s.nct = s.nleaf ∧
    (∀ a b ca cb, lookup s.ct a = some ca → lookup s.ct b = some cb → a ≠ b → ¬ ca <+: cb) ∧
    (2 ≤ s.nleaf → ∀ a ca, lookup s.ct a = some ca → 1 ≤ ca.length ∧ ca.length ≤ s.nleaf - 1) ∧
    (s.nleaf = 1 → ∀ a ca, lookup s.ct a = some ca → ca = []) ∧
    (∀ ds : Digits, s.nleaf - 1 ≤ ds.length → ∃ a ca, lookup s.ct a = some ca ∧ ca <+: ds)

/-- R134: RDCODE answers the characters of the code, or ABSENT, and changes nothing. -/
def Obligations.RdcodeReadsOneCode : Prop :=
  ∀ (s : State) (sym : Symbol), s.mode ≠ .fault →
    (∀ code, lookup s.ct sym = some code →
      exec (.rdcode sym) s = .next (answered
        (0x00 :: code.map (fun d => match d with | .zero => 0x30 | .one => 0x31)) s)) ∧
    (lookup s.ct sym = none → exec (.rdcode sym) s = .next (answered [0x01] s))

/-! ### Encoder (R140 to R142, R173) -/

/-- R140, R141, R142: the three Encoder commands complete, and what each writes. -/
def Obligations.EncoderCommands : Prop :=
  ∀ s : State,
    (s.mode = .idle → s.ctValid = true →
      exec .encBegin s = .next { s with ebuf := [], mode := .enc, outbox := s.outbox ++ [[0x00]] }) ∧
    (s.mode = .enc → ∀ sym code, lookup s.ct sym = some code →
      exec (.encSym sym) s = .next { s with
        ebuf := s.ebuf ++ code
        outbox := s.outbox ++ [0x00 :: code.map (fun d => match d with | .zero => 0x30 | .one => 0x31)] }) ∧
    (s.mode = .enc →
      exec .encEnd s = .next { s with
        ct := [], nct := 0, ctValid := false, mode := .idle
        outbox := s.outbox ++ [if s.nct = 0 then [0x01] else [0x00]] })

/-- R141: a Symbol without a code raises LookupFailure; EBUF and everything else but the fault registers stay. -/
def Obligations.UnknownSymbolIsLookupFailure : Prop :=
  ∀ (s : State) (sym : Symbol), s.mode = .enc → lookup s.ct sym = none →
    exec (.encSym sym) s = .next (faulted 0x10 0x41 s)

/-- R173: the four outcomes of the pseudo-command ENCODE. -/
def Obligations.EncodeOutcomes : Prop :=
  ∀ (s : State) (w : List Symbol), Inv s → s.mode = .idle →
    (s.treePresent = false → w = [] → ∃ t, execAll (Pseudo.encode w).expand s = .next t ∧
      t.mode = .idle ∧ t.ctValid = false ∧ t.outbox.getLast? = some [0x01]) ∧
    (s.treePresent = false → w ≠ [] → ∃ (t : State) (first : Packet), execAll (Pseudo.encode w).expand s = .next t ∧
      t.mode = .fault ∧ t.fcause = 0x10 ∧
      t.outbox = s.outbox ++ [first, [0x00]] ++ List.replicate (w.length + 1) [0xFF, 0x10]) ∧
    (∀ tr, currentTree s = some tr → (∀ x ∈ w, x ∈ tr.codes.map Prod.fst) →
      ∃ t, execAll (Pseudo.encode w).expand s = .next t ∧ t.mode = .idle ∧ t.ctValid = false ∧
        t.outbox.getLast? = some [0x00] ∧ Encodes tr.codes w t.ebuf) ∧
    (∀ tr u x v, currentTree s = some tr → w = u ++ x :: v → (∀ y ∈ u, y ∈ tr.codes.map Prod.fst) →
      x ∉ tr.codes.map Prod.fst →
      ∃ (t : State) (first : Packet) (sent : List Packet), execAll (Pseudo.encode w).expand s = .next t ∧ t.mode = .fault ∧ t.fcause = 0x10 ∧
        Encodes tr.codes u t.ebuf ∧ sent.length = u.length ∧
        sent.flatten = chars t.ebuf ∧
        t.outbox = s.outbox ++ [first, [0x00]] ++ sent.map (fun p => 0x00 :: p) ++
          List.replicate (v.length + 2) [0xFF, 0x10])

/-! ### Decoder (R150 to R154, R174) -/

/-- R150, R152: DEC_BEGIN and DEC_END complete, and what each writes; DEC_END away from the root is Truncated. -/
def Obligations.DecodeSessionCommands : Prop :=
  ∀ s : State,
    (s.mode = .idle → s.treePresent = true →
      exec .decBegin s = .next { s with cur := s.root, dbuf := [], mode := .dec, outbox := s.outbox ++ [[0x00]] }) ∧
    (s.mode = .dec → s.cur = s.root →
      exec .decEnd s = .next { s with mode := .idle, outbox := s.outbox ++ [[0x00]] }) ∧
    (s.mode = .dec → s.cur ≠ s.root → exec .decEnd s = .next (faulted 0x21 0x52 s))

/-- R151: a digit moves to the left or right child; a leaf there is emitted and the walk goes back to the root. -/
def Obligations.DecBitMoves : Prop :=
  ∀ (s : State) (f l r nxt : Nat) (c : Byte), s.mode = .dec → s.node[s.cur]? = some (.internal f l r) →
    ((c = 0x30 ∧ nxt = l) ∨ (c = 0x31 ∧ nxt = r)) →
    (∀ sym g, s.node[nxt]? = some (.leaf sym g) →
      exec (.decBit c) s = .next { s with dbuf := s.dbuf ++ [sym], cur := s.root, outbox := s.outbox ++ [0x00 :: sym] }) ∧
    (∀ g a b, s.node[nxt]? = some (.internal g a b) →
      exec (.decBit c) s = .next { s with cur := nxt, outbox := s.outbox ++ [[0x00]] })

/-- R151, R202: a character that is no digit is BadDigit, also at a leaf; a digit at a leaf is LeafTransition. -/
def Obligations.DecBitFaults : Prop :=
  ∀ (s : State) (c : Byte), s.mode = .dec →
    (c ≠ 0x30 → c ≠ 0x31 → exec (.decBit c) s = .next (faulted 0x22 0x51 s)) ∧
    (∀ sym f, s.node[s.cur]? = some (.leaf sym f) → (c = 0x30 ∨ c = 0x31) →
      exec (.decBit c) s = .next (faulted 0x20 0x51 s))

/-- R153: in a decode session CUR is at a leaf exactly when the tree is a single leaf. -/
def Obligations.LeafTransitionOnlyInTheSingleLeafTree : Prop :=
  ∀ s : State, Inv s → s.mode = .dec →
    ((∃ sym f, s.node[s.cur]? = some (.leaf sym f)) ↔ s.nleaf = 1) ∧
    (s.nleaf = 1 ↔ degen s = true) ∧
    (∀ c t, exec (.decBit c) s = .next t → (t.mode = .fault ∧ t.fcause = 0x20 ↔ s.nleaf = 1 ∧ (c = 0x30 ∨ c = 0x31)))

/-- R174: the outcomes of the pseudo-command DECODE, and that every digit string has one of them. -/
def Obligations.DecodeOutcomes : Prop :=
  ∀ (s : State) (b : Digits), Inv s → s.mode = .idle →
    (s.treePresent = false → ∃ t, execAll (Pseudo.decode b).expand s = .next t ∧ t.mode = .fault ∧ t.fcause = 0x06) ∧
    (∀ tr w, currentTree s = some tr → 2 ≤ s.nleaf → Encodes tr.codes w b →
      ∃ t, execAll (Pseudo.decode b).expand s = .next t ∧ t.mode = .idle ∧ t.dbuf = w ∧ t.cur = s.root ∧
        t.outbox.getLast? = some [0x00]) ∧
    (∀ tr w b1 p c x, currentTree s = some tr → 2 ≤ s.nleaf → Encodes tr.codes w b1 → b = b1 ++ p → p ≠ [] →
      (x, c) ∈ tr.codes → p <+: c → p ≠ c →
      ∃ t, execAll (Pseudo.decode b).expand s = .next t ∧ t.mode = .fault ∧ t.fcause = 0x21 ∧ t.dbuf = w) ∧
    (∀ tr, currentTree s = some tr → 2 ≤ s.nleaf →
      ∃ w b1 p, Encodes tr.codes w b1 ∧ b = b1 ++ p ∧ ∃ x c, (x, c) ∈ tr.codes ∧ p <+: c ∧ p ≠ c) ∧
    (s.treePresent = true → s.nleaf = 1 → b = [] →
      ∃ t, execAll (Pseudo.decode b).expand s = .next t ∧ t.mode = .idle ∧ t.dbuf = []) ∧
    (s.treePresent = true → s.nleaf = 1 → b ≠ [] →
      ∃ t, execAll (Pseudo.decode b).expand s = .next t ∧ t.mode = .fault ∧ t.fcause = 0x20 ∧ t.dbuf = [])

/-! ### Who writes what (R25, R30, R31, R32, R40, R53) -/

/-- R40: each store and its registers are written by the commands of their rules alone. -/
def Obligations.StoresHaveTheirWriters : Prop :=
  ∀ (i : Instr) (s t : State), exec i s = .next t →
    (i ≠ .build → i ≠ .clear →
      t.node = s.node ∧ t.treePresent = s.treePresent ∧ t.root = s.root ∧ t.nleaf = s.nleaf ∧ t.nnode = s.nnode) ∧
    ((∀ x, i ≠ .count x) → i ≠ .build → i ≠ .clear → t.ft = s.ft ∧ t.nft = s.nft ∧ t.total = s.total) ∧
    (i ≠ .derive → i ≠ .build → i ≠ .encEnd → i ≠ .clear →
      t.ct = s.ct ∧ t.nct = s.nct ∧ t.ctValid = s.ctValid) ∧
    t.cfg = s.cfg ∧ t.inbox = s.inbox

/-- R30, R31, R32, R36: the sequencing registers and output records are written by the commands of their rules alone,
and MODE leaves IDLE, ENC and DEC only as R36 says. -/
def Obligations.SessionsHaveTheirWriters : Prop :=
  ∀ (i : Instr) (s t : State), exec i s = .next t →
    (i ≠ .decBegin → (∀ c, i ≠ .decBit c) → i ≠ .clear → t.cur = s.cur ∧ t.dbuf = s.dbuf) ∧
    (i ≠ .encBegin → (∀ x, i ≠ .encSym x) → i ≠ .clear → t.ebuf = s.ebuf) ∧
    (t.mode ≠ .fault → i ≠ .clear → t.fcause = s.fcause ∧ t.fcmd = s.fcmd) ∧
    (t.mode = s.mode ∨ t.mode = .fault ∨ i = .clear ∨
      (i = .encBegin ∧ s.mode = .idle ∧ t.mode = .enc) ∨ (i = .encEnd ∧ s.mode = .enc ∧ t.mode = .idle) ∨
      (i = .decBegin ∧ s.mode = .idle ∧ t.mode = .dec) ∨ (i = .decEnd ∧ s.mode = .dec ∧ t.mode = .idle))

/-- R53: the read-outs change no state and may be repeated with the same answer. -/
def Obligations.ReadOutsChangeNothing : Prop :=
  ∀ (i : Instr) (s : State),
    ((i = .items ∨ (∃ n, i = .rdnode n) ∨ (∃ x, i = .rdcode x)) ∧ s.mode ≠ .fault ∨
      (∃ r : Byte, i = .rdsr r ∧ r.toNat ≤ 9)) →
    ∃ p, exec i s = .next (answered p s) ∧ exec i (answered p s) = .next (answered p (answered p s))

/-! ### Invariants -/

/-- The invariant holds in the reset state of every configuration. -/
def Obligations.InvAtReset : Prop := (∀ c : Config, c.wf → Inv (State.initial c)) ∧ Inv State.reset

/-- Every step keeps the stores in canonical form (R21, R28; log entry 9). -/
def Obligations.StepKeepsStoresCanonical : Prop :=
  ∀ s t : State, Memory.wf s → step s = .next t → Memory.wf t

/-- R22: every step keeps the Frequency Table's invariant. -/
def Obligations.StepKeepsTheTable : Prop :=
  ∀ s t : State, TableInv s → step s = .next t → TableInv t

/-- Every step keeps the whole invariant: R22, R25, R26, R28, R29, R30, R32 and R153. -/
def Obligations.StepKeepsInv : Prop :=
  ∀ s t : State, Inv s → step s = .next t → Inv t

/-! ### The laws of the source's operations (R175 to R179) -/

/-- R175: the round trip, for the stream counted and for every stream of its Symbols. -/
def Obligations.RoundTrip : Prop :=
  ∀ (s : State) (w v : List Symbol), Inv s → s.mode = .idle → s.ft = [] →
    (∀ x ∈ w, Symbol.ok s.cfg x = true) → 2 ≤ w.dedup.length → w.dedup.length ≤ s.cfg.nMax →
    w.length ≤ 2 ^ s.cfg.freqW - 1 → (∀ x ∈ v, x ∈ w) →
    ∃ t u, execAll ((Pseudo.freq w).expand ++ Pseudo.tree.expand ++ (Pseudo.encode v).expand) s = .next t ∧
      t.mode = .idle ∧ t.outbox.getLast? = some [0x00] ∧
      execAll (Pseudo.decode t.ebuf).expand t = .next u ∧
      u.mode = .idle ∧ u.outbox.getLast? = some [0x00] ∧ u.dbuf = v

/-- R176: the length of the encoding of the stream counted is the tree's weighted path length and the sum of its Internal
frequencies. -/
def Obligations.EncodedLength : Prop :=
  ∀ (s : State) (w : List Symbol), Inv s → s.mode = .idle → s.ft = [] →
    (∀ x ∈ w, Symbol.ok s.cfg x = true) → w ≠ [] → w.dedup.length ≤ s.cfg.nMax → w.length ≤ 2 ^ s.cfg.freqW - 1 →
    ∃ t tr, execAll ((Pseudo.freq w).expand ++ Pseudo.tree.expand ++ (Pseudo.encode w).expand) s = .next t ∧
      currentTree t = some tr ∧ t.ebuf.length = tr.weight ∧ t.ebuf.length = tr.internalFreqs.sum

/-- R177: permuted streams end with the same records, the same root and the same codes. -/
def Obligations.PermutedStreamsGiveTheSameCodes : Prop :=
  ∀ (s : State) (w w' : List Symbol), Inv s → s.mode = .idle → s.ft = [] → w.Perm w' →
    w.dedup.length ≤ s.cfg.nMax → w.length ≤ 2 ^ s.cfg.freqW - 1 →
    ∃ t t', execAll ((Pseudo.freq w).expand ++ Pseudo.tree.expand ++ Pseudo.codes.expand) s = .next t ∧
      execAll ((Pseudo.freq w').expand ++ Pseudo.tree.expand ++ Pseudo.codes.expand) s = .next t' ∧
      t.mode = .idle ∧ t'.mode = .idle ∧ t.node = t'.node ∧ t.root = t'.root ∧ t.ct = t'.ct

/-- R178: absence runs through the chain: BUILD and the encoding of the empty stream answer ABSENT, and nothing faults. -/
def Obligations.AbsenceRunsThroughTheChain : Prop :=
  ∀ s : State, s.mode = .idle → s.ft = [] → s.nft = 0 →
    ∃ t, execAll ((Pseudo.freq []).expand ++ Pseudo.tree.expand ++ (Pseudo.encode []).expand) s = .next t ∧
      t.mode = .idle ∧ t.fcause = s.fcause ∧ t.treePresent = false ∧ t.ebuf = [] ∧
      t.outbox = s.outbox ++ [[0x01], 0x00 :: beBytes s.cfg.nodeB 0, [0x00], [0x01]]

/-- R179: a stream of one distinct Symbol is encoded as the empty string, with DEGEN set, and decodes to nothing. -/
def Obligations.SingleSymbolStreamIsLost : Prop :=
  ∀ (s : State) (x : Symbol) (n : Nat), Inv s → s.mode = .idle → s.ft = [] → 1 ≤ n → n ≤ 2 ^ s.cfg.freqW - 1 →
    ∃ t u, execAll ((Pseudo.freq (List.replicate n x)).expand ++ Pseudo.tree.expand ++
        (Pseudo.encode (List.replicate n x)).expand) s = .next t ∧
      t.mode = .idle ∧ t.outbox.getLast? = some [0x00] ∧ t.root = 0 ∧ degen t = true ∧ t.ebuf = [] ∧
      t.node = [.leaf x n] ∧
      execAll (Pseudo.decode t.ebuf).expand t = .next u ∧ u.mode = .idle ∧ u.outbox.getLast? = some [0x00] ∧ u.dbuf = []
end

