-- ==== Sys2Proof/Laws/Encoding.lean ====
section
/-! SUPPORT. Byte order and the opcode map: the small facts decoding and encoding rest on. -/

namespace Sys2Proof

@[simp] theorem beBytes_length (k v : Nat) : (beBytes k v).length = k := by
  induction k with
  | zero => rfl
  | succ k ih => simp [beBytes, ih]

/-- `k` bytes hold the value modulo 256^k. -/
theorem ofBytes_beBytes (k v : Nat) : ofBytes (beBytes k v) = v % 256 ^ k := by
  induction k with
  | zero => simp [beBytes, ofBytes, Nat.mod_one]
  | succ k ih =>
    simp only [beBytes, ofBytes, beBytes_length, ih, BitVec.toNat_ofNat]
    have h := Nat.mod_mul (x := v) (a := 256 ^ k) (b := 256)
    rw [pow_succ 256 k, h, show (2 : Nat) ^ 8 = 256 from rfl, Nat.mul_comm, Nat.add_comm]

/-- `k` bytes hold a value below 256^k exactly (R9). -/
theorem ofBytes_beBytes_of_lt {k v : Nat} (h : v < 256 ^ k) : ofBytes (beBytes k v) = v := by
  rw [ofBytes_beBytes, Nat.mod_eq_of_lt h]

theorem ofBytes_lt (bs : List Byte) : ofBytes bs < 256 ^ bs.length := by
  induction bs with
  | nil => simp [ofBytes]
  | cons b bs ih =>
    have hb : b.toNat ≤ 255 := by have := b.isLt; omega
    calc ofBytes (b :: bs) < b.toNat * 256 ^ bs.length + 256 ^ bs.length := by simp only [ofBytes]; omega
      _ = (b.toNat + 1) * 256 ^ bs.length := by ring
      _ ≤ 256 * 256 ^ bs.length := Nat.mul_le_mul_right _ (by omega)
      _ = 256 ^ (b :: bs).length := by rw [List.length_cons, pow_succ]; ring

/-- The bytes of a sequence are the bytes of its value. -/
theorem beBytes_ofBytes_add (bs : List Byte) (x : Nat) :
    beBytes bs.length (x * 256 ^ bs.length + ofBytes bs) = bs := by
  induction bs generalizing x with
  | nil => rfl
  | cons b bs ih =>
    have hlt := ofBytes_lt bs
    have hpos : 0 < 256 ^ bs.length := Nat.pos_of_ne_zero (by positivity)
    have hval : x * 256 ^ (bs.length + 1) + (b.toNat * 256 ^ bs.length + ofBytes bs) =
        (x * 256 + b.toNat) * 256 ^ bs.length + ofBytes bs := by ring
    simp only [List.length_cons, beBytes, ofBytes, hval, ih]
    congr 1
    rw [Nat.add_comm, Nat.add_mul_div_right _ _ hpos, Nat.div_eq_of_lt hlt, Nat.zero_add]
    apply BitVec.eq_of_toNat_eq
    have := b.isLt
    rw [BitVec.toNat_ofNat]; omega

theorem beBytes_ofBytes (bs : List Byte) : beBytes bs.length (ofBytes bs) = bs := by
  simpa using beBytes_ofBytes_add bs 0

/-- Every row of the opcode map is found at its own opcode byte. -/
@[simp] theorem opRow?_row (op : Op) : opRow? op.row.opc = some op.row := by cases op <;> decide

/-- A row found at an opcode byte is the row of its command, and has that byte. -/
theorem opRow?_eq_some {opc : Byte} {row : OpRow} (h : opRow? opc = some row) :
    row = row.op.row ∧ row.opc = opc := by
  have hm := List.mem_of_find?_eq_some h
  have hp := List.find?_some h
  simp only [beq_iff_eq] at hp
  refine ⟨?_, hp⟩
  simp only [opTable, List.mem_map] at hm
  obtain ⟨op, -, rfl⟩ := hm
  cases op <;> rfl

/-- No two rows of the opcode map have the same opcode byte. -/
theorem row_opc_injective {a b : Op} (h : a.row.opc = b.row.opc) : a = b := by
  have ha := opRow?_row a
  rw [h, opRow?_row b] at ha
  have := congrArg OpRow.op (Option.some.inj ha)
  revert this
  cases a <;> cases b <;> simp [Op.row]

/-- What a non-empty packet decodes to, in terms of its row. -/
theorem decode_cons (c : Config) (opc : Byte) (operand : List Byte) :
    decode c (opc :: operand) =
      match opRow? opc with
      | none => .illegalCommand
      | some row =>
        if row.format.fits c operand.length then .command (row.op.assemble operand) else .badOperand := rfl

@[simp] theorem decode_nil (c : Config) : decode c [] = .illegalCommand := rfl

/-- A packet that begins with the opcode byte of `op`. -/
theorem decode_row (c : Config) (op : Op) (operand : List Byte) :
    decode c (op.row.opc :: operand) =
      if op.row.format.fits c operand.length then .command (op.assemble operand) else .badOperand := by
  rw [decode_cons, opRow?_row]; cases op <;> rfl

end Sys2Proof
end

