-- ==== Sys2Proof/Laws/State.lean ====
section
/-! SUPPORT. One lemma per field for each named update of the state, and what the updates are. -/

namespace Sys2Proof.Machine

@[simp] theorem respond_cfg (r : Response) (s : State) : (respond r s).cfg = s.cfg := rfl
@[simp] theorem respond_ft (r : Response) (s : State) : (respond r s).ft = s.ft := rfl
@[simp] theorem respond_nft (r : Response) (s : State) : (respond r s).nft = s.nft := rfl
@[simp] theorem respond_total (r : Response) (s : State) : (respond r s).total = s.total := rfl
@[simp] theorem respond_node (r : Response) (s : State) : (respond r s).node = s.node := rfl
@[simp] theorem respond_treePresent (r : Response) (s : State) : (respond r s).treePresent = s.treePresent := rfl
@[simp] theorem respond_root (r : Response) (s : State) : (respond r s).root = s.root := rfl
@[simp] theorem respond_nleaf (r : Response) (s : State) : (respond r s).nleaf = s.nleaf := rfl
@[simp] theorem respond_nnode (r : Response) (s : State) : (respond r s).nnode = s.nnode := rfl
@[simp] theorem respond_ct (r : Response) (s : State) : (respond r s).ct = s.ct := rfl
@[simp] theorem respond_ctValid (r : Response) (s : State) : (respond r s).ctValid = s.ctValid := rfl
@[simp] theorem respond_nct (r : Response) (s : State) : (respond r s).nct = s.nct := rfl
@[simp] theorem respond_mode (r : Response) (s : State) : (respond r s).mode = s.mode := rfl
@[simp] theorem respond_cur (r : Response) (s : State) : (respond r s).cur = s.cur := rfl
@[simp] theorem respond_ebuf (r : Response) (s : State) : (respond r s).ebuf = s.ebuf := rfl
@[simp] theorem respond_dbuf (r : Response) (s : State) : (respond r s).dbuf = s.dbuf := rfl
@[simp] theorem respond_fcause (r : Response) (s : State) : (respond r s).fcause = s.fcause := rfl
@[simp] theorem respond_fcmd (r : Response) (s : State) : (respond r s).fcmd = s.fcmd := rfl
@[simp] theorem respond_inbox (r : Response) (s : State) : (respond r s).inbox = s.inbox := rfl
@[simp] theorem respond_outbox (r : Response) (s : State) : (respond r s).outbox = s.outbox ++ [r.packet] := rfl

@[simp] theorem answered_cfg (p : Packet) (s : State) : (answered p s).cfg = s.cfg := rfl
@[simp] theorem answered_ft (p : Packet) (s : State) : (answered p s).ft = s.ft := rfl
@[simp] theorem answered_nft (p : Packet) (s : State) : (answered p s).nft = s.nft := rfl
@[simp] theorem answered_total (p : Packet) (s : State) : (answered p s).total = s.total := rfl
@[simp] theorem answered_node (p : Packet) (s : State) : (answered p s).node = s.node := rfl
@[simp] theorem answered_treePresent (p : Packet) (s : State) : (answered p s).treePresent = s.treePresent := rfl
@[simp] theorem answered_root (p : Packet) (s : State) : (answered p s).root = s.root := rfl
@[simp] theorem answered_nleaf (p : Packet) (s : State) : (answered p s).nleaf = s.nleaf := rfl
@[simp] theorem answered_nnode (p : Packet) (s : State) : (answered p s).nnode = s.nnode := rfl
@[simp] theorem answered_ct (p : Packet) (s : State) : (answered p s).ct = s.ct := rfl
@[simp] theorem answered_ctValid (p : Packet) (s : State) : (answered p s).ctValid = s.ctValid := rfl
@[simp] theorem answered_nct (p : Packet) (s : State) : (answered p s).nct = s.nct := rfl
@[simp] theorem answered_mode (p : Packet) (s : State) : (answered p s).mode = s.mode := rfl
@[simp] theorem answered_cur (p : Packet) (s : State) : (answered p s).cur = s.cur := rfl
@[simp] theorem answered_ebuf (p : Packet) (s : State) : (answered p s).ebuf = s.ebuf := rfl
@[simp] theorem answered_dbuf (p : Packet) (s : State) : (answered p s).dbuf = s.dbuf := rfl
@[simp] theorem answered_fcause (p : Packet) (s : State) : (answered p s).fcause = s.fcause := rfl
@[simp] theorem answered_fcmd (p : Packet) (s : State) : (answered p s).fcmd = s.fcmd := rfl
@[simp] theorem answered_inbox (p : Packet) (s : State) : (answered p s).inbox = s.inbox := rfl
@[simp] theorem answered_outbox (p : Packet) (s : State) : (answered p s).outbox = s.outbox ++ [p] := rfl

@[simp] theorem faulted_cfg (c m : Byte) (s : State) : (faulted c m s).cfg = s.cfg := rfl
@[simp] theorem faulted_ft (c m : Byte) (s : State) : (faulted c m s).ft = s.ft := rfl
@[simp] theorem faulted_nft (c m : Byte) (s : State) : (faulted c m s).nft = s.nft := rfl
@[simp] theorem faulted_total (c m : Byte) (s : State) : (faulted c m s).total = s.total := rfl
@[simp] theorem faulted_node (c m : Byte) (s : State) : (faulted c m s).node = s.node := rfl
@[simp] theorem faulted_treePresent (c m : Byte) (s : State) : (faulted c m s).treePresent = s.treePresent := rfl
@[simp] theorem faulted_root (c m : Byte) (s : State) : (faulted c m s).root = s.root := rfl
@[simp] theorem faulted_nleaf (c m : Byte) (s : State) : (faulted c m s).nleaf = s.nleaf := rfl
@[simp] theorem faulted_nnode (c m : Byte) (s : State) : (faulted c m s).nnode = s.nnode := rfl
@[simp] theorem faulted_ct (c m : Byte) (s : State) : (faulted c m s).ct = s.ct := rfl
@[simp] theorem faulted_ctValid (c m : Byte) (s : State) : (faulted c m s).ctValid = s.ctValid := rfl
@[simp] theorem faulted_nct (c m : Byte) (s : State) : (faulted c m s).nct = s.nct := rfl
@[simp] theorem faulted_mode (c m : Byte) (s : State) : (faulted c m s).mode = .fault := rfl
@[simp] theorem faulted_cur (c m : Byte) (s : State) : (faulted c m s).cur = s.cur := rfl
@[simp] theorem faulted_ebuf (c m : Byte) (s : State) : (faulted c m s).ebuf = s.ebuf := rfl
@[simp] theorem faulted_dbuf (c m : Byte) (s : State) : (faulted c m s).dbuf = s.dbuf := rfl
@[simp] theorem faulted_fcause (c m : Byte) (s : State) : (faulted c m s).fcause = c := rfl
@[simp] theorem faulted_fcmd (c m : Byte) (s : State) : (faulted c m s).fcmd = m := rfl
@[simp] theorem faulted_inbox (c m : Byte) (s : State) : (faulted c m s).inbox = s.inbox := rfl
@[simp] theorem faulted_outbox (c m : Byte) (s : State) : (faulted c m s).outbox = s.outbox ++ [[0xFF, c]] := rfl

@[simp] theorem clearAll_cfg (s : State) : (clearAll s).cfg = s.cfg := rfl
@[simp] theorem clearAll_ft (s : State) : (clearAll s).ft = [] := rfl
@[simp] theorem clearAll_nft (s : State) : (clearAll s).nft = 0 := rfl
@[simp] theorem clearAll_total (s : State) : (clearAll s).total = 0 := rfl
@[simp] theorem clearAll_node (s : State) : (clearAll s).node = [] := rfl
@[simp] theorem clearAll_treePresent (s : State) : (clearAll s).treePresent = false := rfl
@[simp] theorem clearAll_root (s : State) : (clearAll s).root = 0 := rfl
@[simp] theorem clearAll_nleaf (s : State) : (clearAll s).nleaf = 0 := rfl
@[simp] theorem clearAll_nnode (s : State) : (clearAll s).nnode = 0 := rfl
@[simp] theorem clearAll_ct (s : State) : (clearAll s).ct = [] := rfl
@[simp] theorem clearAll_ctValid (s : State) : (clearAll s).ctValid = false := rfl
@[simp] theorem clearAll_nct (s : State) : (clearAll s).nct = 0 := rfl
@[simp] theorem clearAll_mode (s : State) : (clearAll s).mode = .idle := rfl
@[simp] theorem clearAll_cur (s : State) : (clearAll s).cur = 0 := rfl
@[simp] theorem clearAll_ebuf (s : State) : (clearAll s).ebuf = [] := rfl
@[simp] theorem clearAll_dbuf (s : State) : (clearAll s).dbuf = [] := rfl
@[simp] theorem clearAll_fcause (s : State) : (clearAll s).fcause = 0 := rfl
@[simp] theorem clearAll_fcmd (s : State) : (clearAll s).fcmd = 0 := rfl
@[simp] theorem clearAll_inbox (s : State) : (clearAll s).inbox = s.inbox := rfl
@[simp] theorem clearAll_outbox (s : State) : (clearAll s).outbox = s.outbox := rfl

@[simp] theorem initial_cfg (c : Config) : (State.initial c).cfg = c := rfl
@[simp] theorem initial_ft (c : Config) : (State.initial c).ft = [] := rfl
@[simp] theorem initial_nft (c : Config) : (State.initial c).nft = 0 := rfl
@[simp] theorem initial_total (c : Config) : (State.initial c).total = 0 := rfl
@[simp] theorem initial_node (c : Config) : (State.initial c).node = [] := rfl
@[simp] theorem initial_treePresent (c : Config) : (State.initial c).treePresent = false := rfl
@[simp] theorem initial_root (c : Config) : (State.initial c).root = 0 := rfl
@[simp] theorem initial_nleaf (c : Config) : (State.initial c).nleaf = 0 := rfl
@[simp] theorem initial_nnode (c : Config) : (State.initial c).nnode = 0 := rfl
@[simp] theorem initial_ct (c : Config) : (State.initial c).ct = [] := rfl
@[simp] theorem initial_ctValid (c : Config) : (State.initial c).ctValid = false := rfl
@[simp] theorem initial_nct (c : Config) : (State.initial c).nct = 0 := rfl
@[simp] theorem initial_mode (c : Config) : (State.initial c).mode = .idle := rfl
@[simp] theorem initial_cur (c : Config) : (State.initial c).cur = 0 := rfl
@[simp] theorem initial_ebuf (c : Config) : (State.initial c).ebuf = [] := rfl
@[simp] theorem initial_dbuf (c : Config) : (State.initial c).dbuf = [] := rfl
@[simp] theorem initial_fcause (c : Config) : (State.initial c).fcause = 0 := rfl
@[simp] theorem initial_fcmd (c : Config) : (State.initial c).fcmd = 0 := rfl
@[simp] theorem initial_inbox (c : Config) : (State.initial c).inbox = [] := rfl
@[simp] theorem initial_outbox (c : Config) : (State.initial c).outbox = [] := rfl

/-- A response is one answer sent. -/
theorem respond_eq_answered (r : Response) (s : State) : respond r s = answered r.packet s := rfl

/-- The standing fault answers FF and the standing cause. -/
theorem standingFault_eq_answered (s : State) : standingFault s = answered [0xFF, s.fcause] s := rfl

/-- Fault entry writes FCAUSE, FCMD and MODE and answers; nothing else. -/
theorem faultEntry_eq_faulted (c : Cause) (m : Byte) (s : State) : faultEntry c m s = faulted c.code m s := rfl

/-- The way out of a fault leaves a reset state with the host's queues. -/
theorem clearAll_eq_initial (s : State) :
    clearAll s = { State.initial s.cfg with inbox := s.inbox, outbox := s.outbox } := rfl

end Sys2Proof.Machine
end

