-- ==== Sys2Proof/Laws/Ops.lean ====
section
/-! SUPPORT. What the shared operations and the dispatch do, each said once: later proofs cite these instead of
unfolding a meaning. -/

namespace Sys2Proof.Machine

/-! ### The mode check (R202, R204) -/

/-- The mode table in the words of `AcceptedIn`. -/
theorem legal_iff_acceptedIn (i : Instr) (m : Mode) : legal i.op m = true ↔ AcceptedIn i m := by
  cases i <;> cases m <;> simp [Instr.op, legal, legalRow, AcceptedIn]

theorem whenLegal_of_legal {op : Op} {s : State} (h : legal op s.mode = true) (body : State) :
    whenLegal op s body = body := by simp [whenLegal, h]

theorem whenLegal_of_not_legal {op : Op} {s : State} (h : legal op s.mode = false) (body : State) :
    whenLegal op s body = refuse .sequenceError op.row.opc s := by simp [whenLegal, h]

theorem refuse_of_fault {s : State} (h : s.mode = .fault) (c : Cause) (m : Byte) :
    refuse c m s = answered [0xFF, s.fcause] s := by
  rw [refuse, if_pos h]; rfl

theorem refuse_of_not_fault {s : State} (h : s.mode ≠ .fault) (c : Cause) (m : Byte) :
    refuse c m s = faulted c.code m s := by
  rw [refuse, if_neg h]; rfl

/-- A command turned away sends one FF response and keeps the parameters and the waiting events; HTB is in MODE = FAULT
afterwards, with the cause it answered. -/
theorem refuse_facts (c : Cause) (m : Byte) (s : State) :
    (refuse c m s).outbox = s.outbox ++ [[0xFF, (refuse c m s).fcause]] ∧ (refuse c m s).mode = .fault ∧
      (refuse c m s).inbox = s.inbox ∧ (refuse c m s).cfg = s.cfg := by
  by_cases h : s.mode = .fault
  · rw [refuse_of_fault h]; exact ⟨rfl, h, rfl, rfl⟩
  · rw [refuse_of_not_fault h]; exact ⟨rfl, rfl, rfl, rfl⟩

/-! ### The commands' own rules (step 4 of R202) -/

/-- A command's own rule, after the mode check. -/
def ruleOf : Instr → State → State
  | .clear, s => respond (.ok []) (clearAll s)
  | .rdsr r, s =>
    match statusRegister s r.toNat with
    | none => refuse .badOperand 0x02 s
    | some v => respond (.ok (beBytes 8 v)) s
  | .count sym, s =>
    if s.total = s.cfg.maxCount then faultEntry .countOverflow 0x10 s
    else if (lookup s.ft sym).isNone ∧ s.nft = s.cfg.nMax then faultEntry .tableFull 0x10 s
    else countSym sym s
  | .items, s => respond (.ok (s.ft.flatMap (itemBytes s.cfg))) s
  | .build, s =>
    respond (if s.nft = 0 then .absent
        else .ok (beBytes s.cfg.nodeB (rootOf (buildWork s.cfg.mergeSlot s.ft))))
      { s with
        node := (buildWork s.cfg.mergeSlot s.ft).nodes, treePresent := decide (1 ≤ s.nft)
        root := rootOf (buildWork s.cfg.mergeSlot s.ft), nleaf := s.nft
        nnode := (buildWork s.cfg.mergeSlot s.ft).nodes.length
        ft := [], nft := 0, total := 0, ct := [], nct := 0, ctValid := false }
  | .rdnode i, s =>
    if s.nnode ≤ i then respond .absent s else respond (.ok (nodeBytes s.cfg (readNode s.node i))) s
  | .derive, s =>
    respond (.ok (beBytes s.cfg.nodeB (derivedTable s).length))
      { s with ct := derivedTable s, nct := (derivedTable s).length, ctValid := true }
  | .rdcode sym, s =>
    match lookup s.ct sym with
    | some code => respond (.ok (chars code)) s
    | none => respond .absent s
  | .encBegin, s =>
    if s.ctValid = false then faultEntry .sequenceError 0x40 s
    else respond (.ok []) { s with ebuf := [], mode := .enc }
  | .encSym sym, s =>
    match lookup s.ct sym with
    | none => faultEntry .lookupFailure 0x41 s
    | some code => respond (.ok (chars code)) { s with ebuf := s.ebuf ++ code }
  | .encEnd, s =>
    respond (if s.nct = 0 then .absent else .ok []) { s with ct := [], nct := 0, ctValid := false, mode := .idle }
  | .decBegin, s =>
    if s.treePresent = false then faultEntry .noTree 0x50 s
    else respond (.ok []) { s with cur := s.root, dbuf := [], mode := .dec }
  | .decBit c, s =>
    match digit c with
    | none => faultEntry .badDigit 0x51 s
    | some d =>
      match readNode s.node s.cur with
      | .leaf _ _ => faultEntry .leafTransition 0x51 s
      | .internal _ l r => arrive (child d l r) s
  | .decEnd, s =>
    if s.cur ≠ s.root then faultEntry .truncated 0x52 s else respond (.ok []) { s with mode := .idle }

/-- The whole of `exec`: the mode check, then the command's own rule. -/
theorem exec_eq (i : Instr) (s : State) : exec i s = .next (whenLegal i.op s (ruleOf i s)) := by
  cases i <;> rfl

/-- A command accepted in the current mode does what its own rule says. -/
theorem exec_of_acceptedIn {i : Instr} {s : State} (h : AcceptedIn i s.mode) : exec i s = .next (ruleOf i s) := by
  rw [exec_eq, whenLegal_of_legal ((legal_iff_acceptedIn i s.mode).2 h)]

/-- A command not accepted is turned away. -/
theorem exec_of_not_acceptedIn {i : Instr} {s : State} (h : ¬ AcceptedIn i s.mode) :
    exec i s = .next (refuse .sequenceError i.opc s) := by
  have : legal i.op s.mode = false := by
    rw [← Bool.not_eq_true, legal_iff_acceptedIn]; exact h
  rw [exec_eq, whenLegal_of_not_legal this]; rfl

/-! ### The host's side (R70, R230) -/

theorem step_of_empty {s : State} (h : s.inbox = []) : step s = .next s := by
  simp [step, takeNext, h]

theorem step_of_packet {s : State} {p : Packet} {rest : List HostEvent} (h : s.inbox = .packet p :: rest) :
    step s = takePacket p { s with inbox := rest } := by
  simp [step, takeNext, h, takeEvent]

theorem step_of_reset {s : State} {rest : List HostEvent} (h : s.inbox = .reset :: rest) :
    step s = .next (clearAll { s with inbox := rest }) := by
  simp [step, takeNext, h, takeEvent]

theorem takePacket_of_command {p : Packet} {s : State} {i : Instr} (h : decode s.cfg p = .command i) :
    takePacket p s = exec i s := by simp [takePacket, h]

theorem takePacket_of_illegalCommand {p : Packet} {s : State} (h : decode s.cfg p = .illegalCommand) :
    takePacket p s = .next (refuse .illegalCommand (p.headD 0x00) s) := by simp [takePacket, h]

theorem takePacket_of_badOperand {p : Packet} {s : State} (h : decode s.cfg p = .badOperand) :
    takePacket p s = .next (refuse .badOperand (p.headD 0x00) s) := by simp [takePacket, h]

/-- The status registers do not depend on the waiting events. -/
theorem statusRegister_inbox (s : State) (q : List HostEvent) (n : Nat) :
    statusRegister { s with inbox := q } n = statusRegister s n := by
  unfold statusRegister; split <;> rfl

/-- A command's own rule neither reads nor writes the waiting events. -/
theorem ruleOf_inbox (i : Instr) (s : State) (q : List HostEvent) :
    ruleOf i { s with inbox := q } = { ruleOf i s with inbox := q } := by
  cases i with
  | clear => rfl
  | rdsr r =>
    simp only [ruleOf, statusRegister_inbox, refuse]
    cases statusRegister s r.toNat
    · simp only; split <;> rfl
    · rfl
  | count sym =>
    simp only [ruleOf]
    split_ifs
    · rfl
    · rfl
    · simp only [countSym]; cases lookup s.ft sym <;> rfl
  | items => rfl
  | build => rfl
  | rdnode n => simp only [ruleOf]; split_ifs <;> rfl
  | derive => rfl
  | rdcode sym => simp only [ruleOf]; cases lookup s.ct sym <;> rfl
  | encBegin => simp only [ruleOf]; split_ifs <;> rfl
  | encSym sym => simp only [ruleOf]; cases lookup s.ct sym <;> rfl
  | encEnd => rfl
  | decBegin => simp only [ruleOf]; split_ifs <;> rfl
  | decBit c =>
    simp only [ruleOf]
    cases digit c with
    | none => rfl
    | some d =>
      cases h : readNode s.node s.cur with
      | leaf sym f => rfl
      | internal f l r => simp only [arrive]; cases readNode s.node (child d l r) <;> rfl
  | decEnd => simp only [ruleOf]; split_ifs <;> rfl

/-- A command neither reads nor writes the waiting events. -/
theorem exec_inbox {i : Instr} {s t : State} (q : List HostEvent) (h : exec i s = .next t) :
    exec i { s with inbox := q } = .next { t with inbox := q } := by
  rw [exec_eq] at h ⊢
  injection h with h
  subst h
  congr 1
  simp only [whenLegal, refuse]
  split_ifs
  · exact ruleOf_inbox i s q
  · rfl
  · rfl

/-! ### NODE and command sequences -/

/-- A record that NODE holds is read as it stands; the free value plays no part. -/
theorem readNode_of_getElem? {nodes : List Node} {i : Nat} {n : Node} (h : nodes[i]? = some n) :
    readNode nodes i = n := by
  simp [readNode, List.getD_eq_getElem?_getD, h]

@[simp] theorem execAll_nil (s : State) : execAll [] s = .next s := rfl

/-- One command of a sequence, then the rest. -/
theorem execAll_cons {i : Instr} {s t : State} (h : exec i s = .next t) (rest : List Instr) :
    execAll (i :: rest) s = execAll rest t := by simp [execAll, h]

/-- Two sequences, one after the other. -/
theorem execAll_append {is js : List Instr} {s t : State} (h : execAll is s = .next t) :
    execAll (is ++ js) s = execAll js t := by
  induction is generalizing s with
  | nil => simp at h; simp [h]
  | cons i is ih =>
    simp only [List.cons_append, execAll, exec_eq] at h ⊢
    exact ih h

/-- Runs packaged once: what holds in the reset states, and is kept by steps and by the host's sending, holds in every
reached state. -/
theorem Reachable.induct {P : State → Prop} (h0 : ∀ c : Config, c.wf → P (State.initial c))
    (hsend : ∀ s e, P s → P { s with inbox := s.inbox ++ [e] })
    (hstep : ∀ s t, P s → Machine.step s = .next t → P t) {s : State} (h : Reachable s) : P s := by
  induction h with
  | start c hc => exact h0 c hc
  | send s e _ ih => exact hsend s e ih
  | step s t _ hs ih => exact hstep s t ih hs

end Sys2Proof.Machine
end

