-- ==== Sys2Proof/Laws/PerInstr.lean ====
section
/-! SUPPORT. Facts about every command as syntax, one lemma per constructor. -/

namespace Sys2Proof.Laws.PacketShape

/-- The packet of a command begins with its opcode byte, and the operand of a well-formed command has a length its
format allows (R71). -/
def Statement (i : Instr) : Prop :=
  ∀ c : Config, (encode c i).head? = some i.opc ∧
    (WellFormed c i = true → i.op.row.format.fits c ((encode c i).length - 1) = true)

theorem clear : Statement .clear := fun _ => ⟨rfl, fun _ => rfl⟩
theorem rdsr (r : Byte) : Statement (.rdsr r) := fun _ => ⟨rfl, fun _ => rfl⟩
theorem count (s : Symbol) : Statement (.count s) := fun _ => ⟨rfl, fun h => h⟩
theorem items : Statement .items := fun _ => ⟨rfl, fun _ => rfl⟩
theorem build : Statement .build := fun _ => ⟨rfl, fun _ => rfl⟩
theorem rdnode (i : Nat) : Statement (.rdnode i) := fun c =>
  ⟨rfl, fun _ => by simp [encode, Instr.operand, Instr.op, Op.row, Format.fits]⟩
theorem derive : Statement .derive := fun _ => ⟨rfl, fun _ => rfl⟩
theorem rdcode (s : Symbol) : Statement (.rdcode s) := fun _ => ⟨rfl, fun h => h⟩
theorem encBegin : Statement .encBegin := fun _ => ⟨rfl, fun _ => rfl⟩
theorem encSym (s : Symbol) : Statement (.encSym s) := fun _ => ⟨rfl, fun h => h⟩
theorem encEnd : Statement .encEnd := fun _ => ⟨rfl, fun _ => rfl⟩
theorem decBegin : Statement .decBegin := fun _ => ⟨rfl, fun _ => rfl⟩
theorem decBit (c : Byte) : Statement (.decBit c) := fun _ => ⟨rfl, fun _ => rfl⟩
theorem decEnd : Statement .decEnd := fun _ => ⟨rfl, fun _ => rfl⟩

end Sys2Proof.Laws.PacketShape
end

