-- ==== Sys2Proof/Laws/Store.lean ====
section
/-! SUPPORT. The Symbol order and the keyed stores: order laws, read after write, and the canonical form. -/

namespace Sys2Proof.Machine

/-! ### The Symbol order (R12) -/

@[simp] theorem symLt_irrefl (s : Symbol) : symLt s s = false := by
  induction s with
  | nil => rfl
  | cons a s ih => simp [symLt, ih]

@[simp] theorem symLt_nil_right (s : Symbol) : symLt s [] = false := by cases s <;> rfl

theorem symLt_cons (a b : Byte) (s t : Symbol) :
    symLt (a :: s) (b :: t) = true ↔ a.toNat < b.toNat ∨ (a = b ∧ symLt s t = true) := by
  by_cases h : a = b
  · subst h; simp [symLt]
  · simp [symLt, h]

theorem symLt_trans : ∀ {s t u : Symbol}, symLt s t = true → symLt t u = true → symLt s u = true
  | [], [], _, h, _ => by simp [symLt] at h
  | [], _ :: _, [], _, h => by simp [symLt] at h
  | [], _ :: _, _ :: _, _, _ => rfl
  | _ :: _, [], _, h, _ => by simp [symLt] at h
  | _ :: _, _ :: _, [], _, h => by simp [symLt] at h
  | a :: s, b :: t, c :: u, h, h' => by
    rw [symLt_cons] at h h' ⊢
    rcases h with h | ⟨rfl, h⟩ <;> rcases h' with h' | ⟨rfl, h'⟩
    · exact .inl (h.trans h')
    · exact .inl h
    · exact .inl h'
    · exact .inr ⟨rfl, symLt_trans h h'⟩

theorem symLt_asymm {s t : Symbol} (h : symLt s t = true) : symLt t s = false := by
  by_contra h'
  have := symLt_trans h (by simpa using h')
  simp at this

theorem symLt_ne {s t : Symbol} (h : symLt s t = true) : s ≠ t := by
  rintro rfl; simp at h

/-- The order is total: of two different Symbols one is smaller. -/
theorem symLt_total : ∀ (s t : Symbol), s ≠ t → symLt s t = false → symLt t s = true
  | [], [], h, _ => absurd rfl h
  | [], _ :: _, _, h => by simp [symLt] at h
  | _ :: _, [], _, _ => rfl
  | a :: s, b :: t, hne, h => by
    by_cases hab : a = b
    · subst hab
      have hst : s ≠ t := fun e => hne (by rw [e])
      have h' : symLt s t = false := by simpa [symLt] using h
      simpa [symLt] using symLt_total s t hst h'
    · have hab' : ¬ b = a := fun e => hab e.symm
      have hn : a.toNat ≠ b.toNat := fun e => hab (BitVec.eq_of_toNat_eq e)
      simp only [symLt, hab, hab', if_false, decide_eq_true_eq, decide_eq_false_iff_not] at h ⊢
      omega

/-! ### Reading after writing (R10, R100) -/

variable {α : Type}

@[simp] theorem lookup_nil (k : Symbol) : lookup ([] : List (Symbol × α)) k = none := rfl

theorem lookup_cons (k : Symbol) (v : α) (m : List (Symbol × α)) (s : Symbol) :
    lookup ((k, v) :: m) s = if k = s then some v else lookup m s := rfl

@[simp] theorem lookup_store_same (m : List (Symbol × α)) (s : Symbol) (v : α) :
    lookup (store m s v) s = some v := by
  induction m with
  | nil => simp [store, lookup]
  | cons e m ih =>
    obtain ⟨k, w⟩ := e
    simp only [store]
    split
    · simp [lookup]
    · split
      · simp [lookup]
      · next hk _ => simp [lookup, hk, ih]

theorem lookup_store_other (m : List (Symbol × α)) {s k : Symbol} (v : α) (h : k ≠ s) :
    lookup (store m s v) k = lookup m k := by
  have h' : ¬ s = k := fun e => h e.symm
  induction m with
  | nil => simp [store, lookup, h']
  | cons e m ih =>
    obtain ⟨j, w⟩ := e
    simp only [store]
    split
    · next hj => subst hj; simp [lookup, h']
    · split
      · simp [lookup, h']
      · simp [lookup, ih]

/-- What a write leaves at any key. -/
theorem lookup_store (m : List (Symbol × α)) (s k : Symbol) (v : α) :
    lookup (store m s v) k = if k = s then some v else lookup m k := by
  split
  · next h => subst h; simp
  · next h => exact lookup_store_other m v h

/-- A write adds at most the one entry it writes. -/
theorem mem_store {m : List (Symbol × α)} {s : Symbol} {v : α} {e : Symbol × α} (h : e ∈ store m s v) :
    e = (s, v) ∨ e ∈ m := by
  induction m with
  | nil => simpa [store] using h
  | cons f m ih =>
    obtain ⟨k, w⟩ := f
    simp only [store] at h
    split at h
    · rcases List.mem_cons.1 h with h | h
      · exact .inl h
      · exact .inr (List.mem_cons_of_mem _ h)
    · split at h
      · exact List.mem_cons.1 h
      · rcases List.mem_cons.1 h with h | h
        · exact .inr (h ▸ List.mem_cons_self ..)
        · rcases ih h with h | h
          · exact .inl h
          · exact .inr (List.mem_cons_of_mem _ h)

/-- The number of entries after a write: one more exactly for a new key. -/
theorem length_store (m : List (Symbol × α)) (s : Symbol) (v : α) (hm : Sorted m) :
    (store m s v).length = if lookup m s = none then m.length + 1 else m.length := by
  induction m with
  | nil => simp [store]
  | cons e m ih =>
    obtain ⟨k, w⟩ := e
    have hm' := List.pairwise_cons.1 hm
    simp only [store, lookup]
    split
    · simp
    · next hk =>
      split
      · next hlt =>
        have hnone : lookup m s = none := by
          by_contra hne
          have : ∀ m : List (Symbol × α), lookup m s ≠ none → ∃ v, (s, v) ∈ m := by
            intro m
            induction m with
            | nil => simp
            | cons f m ih =>
              obtain ⟨j, x⟩ := f
              simp only [lookup]
              split
              · next hj => intro _; exact ⟨x, by simp [hj]⟩
              · intro h; obtain ⟨v, hv⟩ := ih h; exact ⟨v, by simp [hv]⟩
          obtain ⟨v, hv⟩ := this m hne
          have := hm'.1 _ hv
          rw [symLt_asymm hlt] at this
          exact absurd this (by simp)
        simp [hnone]
      · have := ih hm'.2
        split at this <;> simp_all

/-! ### The canonical form (R21, R28) -/

/-- Every write keeps the canonical form. -/
theorem sorted_store {m : List (Symbol × α)} (hm : Sorted m) (s : Symbol) (v : α) : Sorted (store m s v) := by
  induction m with
  | nil => simp [store, Sorted]
  | cons e m ih =>
    obtain ⟨k, w⟩ := e
    have hm' := List.pairwise_cons.1 hm
    simp only [store]
    split
    · next hk => subst hk; exact List.pairwise_cons.2 ⟨hm'.1, hm'.2⟩
    · next hk =>
      split
      · next hlt =>
        refine List.pairwise_cons.2 ⟨?_, hm⟩
        intro f hf
        rcases List.mem_cons.1 hf with rfl | hf
        · exact hlt
        · exact symLt_trans hlt (hm'.1 f hf)
      · next hlt =>
        refine List.pairwise_cons.2 ⟨?_, ih hm'.2⟩
        intro f hf
        rcases mem_store hf with rfl | hf
        · exact symLt_total s k (fun e => hk e.symm) (by simpa using hlt)
        · exact hm'.1 f hf

/-- In a store in canonical form, reading and membership agree. -/
theorem lookup_eq_some_iff {m : List (Symbol × α)} (hm : Sorted m) (s : Symbol) (v : α) :
    lookup m s = some v ↔ (s, v) ∈ m := by
  induction m with
  | nil => simp
  | cons e m ih =>
    obtain ⟨k, w⟩ := e
    have hm' := List.pairwise_cons.1 hm
    simp only [lookup]
    split
    · next hk =>
      subst hk
      constructor
      · intro h; simp at h; simp [h]
      · intro h
        rcases List.mem_cons.1 h with h | h
        · simp at h; simp [h]
        · have := hm'.1 _ h; simp at this
    · next hk =>
      rw [ih hm'.2, List.mem_cons]
      constructor
      · exact .inr
      · rintro (h | h)
        · simp at h; exact absurd h.1.symm hk
        · exact h

theorem lookup_eq_none_iff (m : List (Symbol × α)) (s : Symbol) :
    lookup m s = none ↔ ∀ v, (s, v) ∉ m := by
  induction m with
  | nil => simp
  | cons e m ih =>
    obtain ⟨k, w⟩ := e
    simp only [lookup]
    split
    · next hk => subst hk; simp only [reduceCtorEq, false_iff, not_forall]; exact ⟨w, by simp⟩
    · next hk =>
      rw [ih]
      refine forall_congr' fun v => ?_
      simp [Prod.ext_iff, Ne.symm hk]

/-- Stores in canonical form that read alike are equal data. -/
theorem sorted_ext : ∀ {m m' : List (Symbol × α)}, Sorted m → Sorted m' → (∀ k, lookup m k = lookup m' k) → m = m'
  | [], [], _, _, _ => rfl
  | [], (k, v) :: _, _, _, h => by have := h k; simp [lookup] at this
  | (k, v) :: _, [], _, _, h => by have := h k; simp [lookup] at this
  | (k, v) :: m, (j, w) :: m', hm, hm', h => by
    have h1 := List.pairwise_cons.1 hm
    have h2 := List.pairwise_cons.1 hm'
    have hkj : k = j := by
      by_contra hne
      have a := h k
      have b := h j
      have hne' : ¬ j = k := fun e => hne e.symm
      simp only [lookup, if_true, if_neg hne, if_neg hne'] at a b
      have a' := (lookup_eq_some_iff h2.2 _ _).1 a.symm
      have b' := (lookup_eq_some_iff h1.2 _ _).1 b
      have := symLt_asymm (h2.1 _ a')
      rw [show symLt k j = true from h1.1 _ b'] at this
      exact absurd this (by simp)
    subst hkj
    have hv : v = w := by have := h k; simpa [lookup] using this
    subst hv
    have : m = m' := by
      refine sorted_ext h1.2 h2.2 fun x => ?_
      by_cases hx : k = x
      · subst hx
        rw [(lookup_eq_none_iff m k).2, (lookup_eq_none_iff m' k).2]
        · intro v hv; have := h2.1 _ hv; simp at this
        · intro v hv; have := h1.1 _ hv; simp at this
      · simpa [lookup, hx] using h x
    rw [this]

/-- The table of a list of pairs is in canonical form. -/
theorem sorted_tableOf (pairs : List (Symbol × Digits)) : Sorted (tableOf pairs) := by
  have : ∀ (m : List (Symbol × Digits)), Sorted m →
      Sorted (pairs.foldl (fun m e => store m e.1 e.2) m) := by
    induction pairs with
    | nil => intro m hm; exact hm
    | cons e pairs ih => intro m hm; exact ih _ (sorted_store hm _ _)
  exact this [] List.Pairwise.nil

/-- Reset's stores are in canonical form. -/
theorem memory_wf_initial (c : Config) : Memory.wf (State.initial c) :=
  ⟨List.Pairwise.nil, by simp [State.initial], List.Pairwise.nil⟩

/-- The write of a positive count keeps the canonical form of the memory. -/
theorem memory_wf_store_count {s : State} (h : Memory.wf s) (sym : Symbol) (c : Nat) (hc : 1 ≤ c) :
    Memory.wf { s with ft := store s.ft sym c } := by
  refine ⟨sorted_store h.1 _ _, ?_, h.2.2⟩
  intro e he
  rcases mem_store he with rfl | he
  · exact hc
  · exact h.2.1 e he

/-- Writing a derived table keeps the canonical form of the memory. -/
theorem memory_wf_table {s : State} (h : Memory.wf s) (pairs : List (Symbol × Digits)) :
    Memory.wf { s with ct := tableOf pairs } := ⟨h.1, h.2.1, sorted_tableOf pairs⟩

/-- Emptying the stores keeps the canonical form of the memory. -/
theorem memory_wf_empty (s : State) : Memory.wf { s with ft := [], ct := [] } :=
  ⟨List.Pairwise.nil, by simp, List.Pairwise.nil⟩

end Sys2Proof.Machine
end

