-- ==== Sys2Proof/Tests/Slice0.lean ====
section
/-! SUPPORT. Tests: the well-formedness smoke, packets written out from R71 and R72, single steps with the results of
95_test_vectors.md, and, for each statement with hypotheses, states and operands that meet them. -/

namespace Sys2Proof.Tests

open Sys2Proof Sys2Proof.Machine

/-! ### Helpers -/

abbrev a : Symbol := [0x61]
abbrev b : Symbol := [0x62]
abbrev c : Symbol := [0x63]
abbrev d : Symbol := [0x64]

/-- The next state of an outcome. -/
def ran : Host.Outcome State Fault Refusal → Option State
  | .next s => some s
  | .fault _ => none
  | .refused _ => none

/-- The last response of an outcome. -/
def reply (o : Host.Outcome State Fault Refusal) : Option Packet := (ran o).bind (fun s => s.outbox.getLast?)

/-- What is read from the next state of an outcome. -/
def after {α : Type} (o : Host.Outcome State Fault Refusal) (f : State → α) : Option α := (ran o).map f

/-- A state in IDLE with a given Frequency Table. -/
def counted (items : List (Symbol × Nat)) : State :=
  { State.reset with ft := items, nft := items.length, total := (items.map Prod.snd).sum }

/-- The tree and the codes of Scenario A (V-T5, V-C3), in a given mode, with a given CUR. -/
def scenA (m : Mode) (cur : Nat) : State :=
  { State.reset with
    node := [.leaf a 3, .leaf b 2, .leaf c 1, .internal 3 1 2, .internal 6 0 3], treePresent := true, root := 4
    nleaf := 3, nnode := 5, ct := [(a, [.zero]), (b, [.one, .zero]), (c, [.one, .one])], ctValid := true, nct := 3
    mode := m, cur := cur }

/-- The single-leaf tree (V-T2), derived (V-C2), in a given mode. -/
def lone (m : Mode) : State :=
  { State.reset with
    node := [.leaf a 3], treePresent := true, nleaf := 1, nnode := 1, ct := [(a, [])], ctValid := true, nct := 1
    mode := m }

/-- The two-leaf tree (V-T3), derived, in a given mode. -/
def pair (m : Mode) : State :=
  { State.reset with
    node := [.leaf a 1, .leaf b 1, .internal 2 0 1], treePresent := true, root := 2, nleaf := 2, nnode := 3
    ct := [(a, [.zero]), (b, [.one])], ctValid := true, nct := 2, mode := m, cur := 2 }

/-- No tree, derived (V-C1), in a given mode. -/
def bare (m : Mode) : State := { State.reset with ctValid := true, mode := m }

/-- A standing fault (V-E6). -/
def broken : State := { scenA .fault 0 with fcause := 0x10, fcmd := 0x41, ebuf := [.zero] }

/-- The small configuration of V-F5. -/
def small : Config := { Config.reference with nMax := 2, freqW := 2 }

/-- A host event waiting, with another behind it. -/
def waiting (e : HostEvent) (s : State) : State := { s with inbox := [e, .reset] }

/-! ### Well-formedness: an ill-formed command for each check -/

theorem test_wf_count : WellFormed Config.reference (.count []) = false ∧
    WellFormed Config.reference (.count [1, 2, 3, 4, 5]) = false := by decide
theorem test_wf_rdcode : WellFormed Config.reference (.rdcode []) = false ∧
    WellFormed Config.reference (.rdcode [1, 2, 3, 4, 5]) = false := by decide
theorem test_wf_encSym : WellFormed Config.reference (.encSym []) = false ∧
    WellFormed Config.reference (.encSym [1, 2, 3, 4, 5]) = false := by decide
theorem test_wf_rdnode : WellFormed Config.reference (.rdnode 65536) = false ∧
    WellFormed small (.rdnode 256) = false := by decide
theorem test_wf_config : ¬ Config.wf { small with symMaxBytes := 0 } ∧ ¬ Config.wf { small with symMaxBytes := 256 } ∧
    ¬ Config.wf { small with nMax := 0 } ∧ ¬ Config.wf { small with freqW := 0 } ∧
    ¬ Config.wf { small with freqW := 65 } ∧ Config.wf small := by decide

/-! ### Packets written out from R71, R72 and R73 -/

theorem test_decode_system : decode Config.reference [0x01] = .command .clear ∧
    decode Config.reference [0x02, 0xFF] = .command (.rdsr 255) := by decide
theorem test_decode_frequency : decode Config.reference [0x10, 0xC3, 0xA9, 0x00, 0x7F] =
    .command (.count [0xC3, 0xA9, 0x00, 0x7F]) ∧ decode Config.reference [0x11] = .command .items := by decide
theorem test_decode_tree : decode Config.reference [0x20] = .command .build ∧
    decode Config.reference [0x21, 0xFF, 0xFE] = .command (.rdnode 65534) := by decide
theorem test_decode_codes : decode Config.reference [0x30] = .command .derive ∧
    decode Config.reference [0x31, 0x61, 0x62] = .command (.rdcode [0x61, 0x62]) := by decide
theorem test_decode_encoder : decode Config.reference [0x40] = .command .encBegin ∧
    decode Config.reference [0x41, 0x7A] = .command (.encSym [0x7A]) ∧
    decode Config.reference [0x42] = .command .encEnd := by decide
theorem test_decode_decoder : decode Config.reference [0x50] = .command .decBegin ∧
    decode Config.reference [0x51, 0x78] = .command (.decBit 0x78) ∧
    decode Config.reference [0x52] = .command .decEnd := by decide
/-- V-F4 and V-T16, and the neighbours of the opcode map. -/
theorem test_decode_refused : decode Config.reference [] = .illegalCommand ∧
    decode Config.reference [0x03] = .illegalCommand ∧ decode Config.reference [0x53] = .illegalCommand ∧
    decode Config.reference [0x10] = .badOperand ∧ decode Config.reference [0x10, 1, 2, 3, 4, 5] = .badOperand ∧
    decode Config.reference [0x21, 0x00] = .badOperand ∧ decode Config.reference [0x02] = .badOperand ∧
    decode Config.reference [0x42, 0x00] = .badOperand := by decide
theorem test_table_word : decodeTableWord 8 0x10 = some (.count [0]) ∧
    decodeTableWord 24 0x040121 = some (.rdnode 260) ∧ decodeTableWord 16 0x0602 = some (.rdsr 6) ∧
    decodeTableWord 8 0x00 = none := by decide
/-- R79's notation. -/
theorem test_notation : readCommand ['C', 'O', 'U', 'N', 'T', ' ', tick, 'a', tick] = some (.count a) ∧
    readCommand ['R', 'D', 'S', 'R', ' ', 'N', 'N', 'O', 'D', 'E'] = some (.rdsr 6) ∧
    readCommand ['D', 'E', 'C', '_', 'B', 'I', 'T', ' ', tick, '1', tick] = some (.decBit 0x31) := by decide

/-! ### One step -/

theorem test_clear : ran (exec .clear broken) = some { State.reset with outbox := [[0x00]] } := by decide
/-- V-E6 (17), V-E10 (15). -/
theorem test_rdsr_status : reply (exec (.rdsr 0) broken) = some [0, 0, 0, 0, 0, 0, 0, 0, 0x17] ∧
    reply (exec (.rdsr 0) (scenA .enc 0)) = some [0, 0, 0, 0, 0, 0, 0, 0, 0x15] := by decide
theorem test_rdsr_reserved : reply (exec (.rdsr 10) State.reset) = some [0xFF, 0x02] ∧
    reply (exec (.rdsr 10) broken) = some [0xFF, 0x10] := by decide
/-- V-F1. -/
theorem test_count : reply (exec (.count a) (counted [(a, 1)])) = some [0, 0, 0, 0, 2] ∧
    after (exec (.count a) (counted [(b, 1)])) State.ft = some [(a, 1), (b, 1)] := by decide
/-- V-F5 (a) and (c). -/
theorem test_count_capacity :
    reply (exec (.count c) { counted [(a, 1), (b, 1)] with cfg := small }) = some [0xFF, 0x04] ∧
    reply (exec (.count c) { counted [(a, 2), (b, 1)] with cfg := small }) = some [0xFF, 0x05] := by decide
/-- V-F3. -/
theorem test_items : reply (exec .items (counted [(a, 1), ([0x61, 0x62], 1), ([0xC3], 1), ([0xC3, 0xA9], 1)])) =
    some [0x00, 0x01, 0x61, 0, 0, 0, 1, 0x02, 0x61, 0x62, 0, 0, 0, 1, 0x01, 0xC3, 0, 0, 0, 1,
      0x02, 0xC3, 0xA9, 0, 0, 0, 1] := by decide
/-- V-T6: the slot rule of D12. -/
theorem test_build : after (exec .build (counted [(a, 2), (b, 3), (c, 1), (d, 3)])) (fun s => (s.node.drop 4, s.root)) =
    some ([.internal 3 0 2, .internal 6 4 1, .internal 9 5 3], 6) := by decide
/-- V-T7: the displaced minimum of D11. -/
theorem test_build_demotion : after (exec .build (counted [(a, 2), (b, 3), (c, 1), (d, 5)])) (fun s => s.node.drop 4) =
    some [.internal 3 0 2, .internal 6 4 1, .internal 11 5 3] := by decide
/-- R121's layout, on Scenario A. -/
theorem test_rdnode : reply (exec (.rdnode 4) (scenA .idle 0)) = some [0x00, 0x01, 0, 0, 0, 6, 0, 0, 0, 3] ∧
    reply (exec (.rdnode 1) (scenA .idle 0)) = some [0x00, 0x00, 0, 0, 0, 2, 0x62] ∧
    reply (exec (.rdnode 5) (scenA .idle 0)) = some [0x01] := by decide
/-- V-C3. -/
theorem test_derive : after (exec .derive { scenA .idle 0 with ct := [], ctValid := false, nct := 0 }) State.ct =
    some [(a, [.zero]), (b, [.one, .zero]), (c, [.one, .one])] := by decide
/-- V-C3, V-C2. -/
theorem test_rdcode : reply (exec (.rdcode b) (scenA .idle 0)) = some [0x00, 0x31, 0x30] ∧
    reply (exec (.rdcode d) (scenA .idle 0)) = some [0x01] ∧ reply (exec (.rdcode a) (lone .idle)) = some [0x00] := by
  decide
/-- V-E8, V-E7. -/
theorem test_encBegin : reply (exec .encBegin State.reset) = some [0xFF, 0x03] ∧
    reply (exec .encBegin (bare .idle)) = some [0x00] := by decide
/-- Scenario A, V-E7. -/
theorem test_encSym : reply (exec (.encSym b) (scenA .enc 0)) = some [0x00, 0x31, 0x30] ∧
    reply (exec (.encSym a) (bare .enc)) = some [0xFF, 0x10] := by decide
/-- V-E5. -/
theorem test_encEnd : reply (exec .encEnd (bare .enc)) = some [0x01] ∧
    after (exec .encEnd (scenA .enc 0)) (fun s => (s.ct, s.ctValid, s.mode, s.outbox)) = some ([], false, .idle, [[0x00]]) := by
  decide
/-- V-D12. -/
theorem test_decBegin : reply (exec .decBegin State.reset) = some [0xFF, 0x06] ∧
    after (exec .decBegin (scenA .idle 0)) State.cur = some 4 := by decide
/-- V-D6, V-D5. -/
theorem test_decBit : after (exec (.decBit 0x30) (scenA .dec 4)) (fun s => (s.dbuf, s.cur)) = some ([a], 4) ∧
    after (exec (.decBit 0x31) (scenA .dec 4)) State.cur = some 3 ∧
    after (exec (.decBit 0x30) (scenA .dec 3)) (fun s => (s.dbuf, s.cur)) = some ([b], 4) := by decide
/-- V-D11: BadDigit is tested first. -/
theorem test_decBit_leaf : reply (exec (.decBit 0x30) (lone .dec)) = some [0xFF, 0x20] ∧
    reply (exec (.decBit 0x32) (lone .dec)) = some [0xFF, 0x22] := by decide
/-- V-D3, V-D4. -/
theorem test_decEnd : after (exec .decEnd (scenA .dec 4)) State.mode = some .idle ∧
    reply (exec .decEnd (scenA .dec 3)) = some [0xFF, 0x21] := by decide

/-! ### Sound states -/

theorem table_counted : TableInv (counted [(a, 2), (b, 1)]) :=
  ⟨by decide, by decide, by decide, rfl, rfl, by decide, by decide⟩

theorem table_scenA : TableInv (scenA .idle 4) :=
  ⟨by decide, by decide, by decide, rfl, rfl, by decide, by decide⟩

theorem shape_scenA : TreeShape (scenA .idle 4) where
  nleaf_pos := by decide
  nleaf_le := by decide
  nnode := rfl
  root := rfl
  leaves
    | 0, _ => ⟨a, 3, rfl, by decide, by decide⟩
    | 1, _ => ⟨b, 2, rfl, by decide, by decide⟩
    | 2, _ => ⟨c, 1, rfl, by decide, by decide⟩
    | n + 3, h => absurd h (Nat.not_lt.mpr (Nat.le_add_left 3 n))
  order := by decide
  internals
    | 0, h, _ => absurd h (by decide)
    | 1, h, _ => absurd h (by decide)
    | 2, h, _ => absurd h (by decide)
    | 3, _, _ => ⟨3, 1, 2, rfl, by decide, by decide, rfl⟩
    | 4, _, _ => ⟨6, 0, 3, rfl, by decide, by decide, rfl⟩
    | n + 5, _, h => absurd h (Nat.not_lt.mpr (Nat.le_add_left 5 n))
  children := by decide
  bound := by decide

/-- Scenario A is sound in every mode but FAULT, with CUR at the root or at the Internal node below it. -/
theorem inv_scenA (m : Mode) (cur : Nat) (hm : m ≠ .fault) (hc : cur = 3 ∨ cur = 4) : Inv (scenA m cur) where
  config := (by decide : Config.reference.wf)
  table :=
    have t := table_scenA
    ⟨t.sorted, t.symbols, t.counts, t.nft, t.total, t.capacity, t.bound⟩
  tree :=
    have t := shape_scenA
    ⟨rfl, (fun h => Bool.noConfusion h), fun _ =>
      ⟨t.nleaf_pos, t.nleaf_le, rfl, rfl, t.leaves, t.order, t.internals, t.children, t.bound⟩⟩
  codes := by
    refine ⟨?_, rfl, (fun h => Bool.noConfusion h), (fun _ h => Bool.noConfusion h),
      fun _ _ => ⟨rfl, .node 6 (.leaf a 3) (.node 3 (.leaf b 2) (.leaf c 1)), rfl, ?_⟩⟩
    · exact (by decide : Sorted (scenA .idle 4).ct)
    · intro sym code
      show lookup [(a, [Digit.zero]), (b, [.one, .zero]), (c, [.one, .one])] sym = some code ↔
        (sym, code) ∈ [(a, [Digit.zero]), (b, [.one, .zero]), (c, [.one, .one])]
      by_cases ha : a = sym
      · subst ha; simp [lookup, eq_comm]
      · by_cases hb : b = sym
        · subst hb; simp [lookup, eq_comm]
        · by_cases hc' : c = sym
          · subst hc'; simp [lookup, eq_comm]
          · simp [lookup, ha, hb, hc', Ne.symm ha, Ne.symm hb, Ne.symm hc']
  sequence := by
    refine ⟨⟨fun h => absurd h hm, fun h => absurd rfl h⟩, fun _ => rfl, fun _ => rfl, fun _ => rfl, fun _ => ?_, ?_⟩
    · rcases hc with rfl | rfl
      · exact .inr ⟨3, 1, 2, rfl⟩
      · exact .inl rfl
    · show cur ≤ 510
      omega

theorem shape_lone : TreeShape (lone .idle) where
  nleaf_pos := by decide
  nleaf_le := by decide
  nnode := rfl
  root := rfl
  leaves
    | 0, _ => ⟨a, 3, rfl, by decide, by decide⟩
    | n + 1, h => absurd h (Nat.not_lt.mpr (Nat.le_add_left 1 n))
  order := by decide
  internals := fun _ hl hi => absurd hi (Nat.not_lt.mpr hl)
  children := by decide
  bound := by decide

/-- The single-leaf tree is sound in every mode but FAULT. -/
theorem inv_lone (m : Mode) (hm : m ≠ .fault) : Inv (lone m) where
  config := (by decide : Config.reference.wf)
  table :=
    have t := table_scenA
    ⟨t.sorted, t.symbols, t.counts, t.nft, t.total, t.capacity, t.bound⟩
  tree :=
    have t := shape_lone
    ⟨rfl, (fun h => Bool.noConfusion h), fun _ =>
      ⟨t.nleaf_pos, t.nleaf_le, rfl, rfl, t.leaves, t.order, t.internals, t.children, t.bound⟩⟩
  codes := by
    refine ⟨?_, rfl, (fun h => Bool.noConfusion h), (fun _ h => Bool.noConfusion h),
      fun _ _ => ⟨rfl, .leaf a 3, rfl, ?_⟩⟩
    · exact (by decide : Sorted (lone .idle).ct)
    · intro sym code
      show lookup [(a, ([] : Digits))] sym = some code ↔ (sym, code) ∈ [(a, ([] : Digits))]
      by_cases ha : a = sym
      · subst ha; simp [lookup, eq_comm]
      · simp [lookup, ha, Ne.symm ha]
  sequence := ⟨⟨fun h => absurd h hm, fun h => absurd rfl h⟩, fun _ => rfl, fun _ => rfl, fun _ => rfl, fun _ => .inl rfl,
    (by decide : 0 ≤ 510)⟩

theorem shape_pair : TreeShape (pair .idle) where
  nleaf_pos := by decide
  nleaf_le := by decide
  nnode := rfl
  root := rfl
  leaves
    | 0, _ => ⟨a, 1, rfl, by decide, by decide⟩
    | 1, _ => ⟨b, 1, rfl, by decide, by decide⟩
    | n + 2, h => absurd h (Nat.not_lt.mpr (Nat.le_add_left 2 n))
  order := by decide
  internals
    | 0, h, _ => absurd h (by decide)
    | 1, h, _ => absurd h (by decide)
    | 2, _, _ => ⟨2, 0, 1, rfl, by decide, by decide, rfl⟩
    | n + 3, _, h => absurd h (Nat.not_lt.mpr (Nat.le_add_left 3 n))
  children := by decide
  bound := by decide

/-- The two-leaf tree is sound in every mode but FAULT. -/
theorem inv_pair (m : Mode) (hm : m ≠ .fault) : Inv (pair m) where
  config := (by decide : Config.reference.wf)
  table :=
    have t := table_scenA
    ⟨t.sorted, t.symbols, t.counts, t.nft, t.total, t.capacity, t.bound⟩
  tree :=
    have t := shape_pair
    ⟨rfl, (fun h => Bool.noConfusion h), fun _ =>
      ⟨t.nleaf_pos, t.nleaf_le, rfl, rfl, t.leaves, t.order, t.internals, t.children, t.bound⟩⟩
  codes := by
    refine ⟨?_, rfl, (fun h => Bool.noConfusion h), (fun _ h => Bool.noConfusion h),
      fun _ _ => ⟨rfl, .node 2 (.leaf a 1) (.leaf b 1), rfl, ?_⟩⟩
    · exact (by decide : Sorted (pair .idle).ct)
    · intro sym code
      show lookup [(a, [Digit.zero]), (b, [.one])] sym = some code ↔
        (sym, code) ∈ [(a, [Digit.zero]), (b, [.one])]
      by_cases ha : a = sym
      · subst ha; simp [lookup, eq_comm]
      · by_cases hb : b = sym
        · subst hb; simp [lookup, eq_comm]
        · simp [lookup, ha, hb, Ne.symm ha, Ne.symm hb]
  sequence := ⟨⟨fun h => absurd h hm, fun h => absurd rfl h⟩, fun _ => rfl, fun _ => rfl, fun _ => rfl, fun _ => .inl rfl,
    (by decide : 2 ≤ 510)⟩

/-- No tree, but a valid empty Code Table. -/
theorem inv_bare : Inv (bare .idle) where
  config := by decide
  table := ⟨by decide, by decide, by decide, rfl, rfl, by decide, by decide⟩
  tree := ⟨rfl, fun _ => ⟨rfl, rfl, rfl⟩, fun h => Bool.noConfusion h⟩
  codes := ⟨by decide, rfl, (fun h => Bool.noConfusion h), fun _ _ => rfl, fun _ h => Bool.noConfusion h⟩
  sequence := ⟨by decide, fun _ => rfl, by decide, by decide, fun h => Mode.noConfusion h, by decide⟩

/-! ### Witnesses: what meets the hypotheses of each statement, clause by clause -/

theorem witness_EncodedCommandsDecode : WellFormed Config.reference (.rdnode 65535) = true ∧
    WellFormed Config.reference (.count [0]) = true ∧ WellFormed Config.reference (.encSym [1, 2, 3, 4]) = true := by decide

theorem witness_EachPacketHasOneCommand : decode Config.reference [0x21, 0xFF, 0xFF] = .command (.rdnode 65535) ∧
    decode Config.reference [0x31, 1, 2, 3, 4] = .command (.rdcode [1, 2, 3, 4]) := by decide

theorem witness_StepRunsTheDecodedCommand :
    (waiting (.packet [0x20]) (counted [(a, 1)])).inbox = .packet [0x20] :: [.reset] ∧
    decode (counted [(a, 1)]).cfg [0x20] = .command .build := by decide

/-- RDSR 9 and RDSR 10 stand on the two sides of step 1 of R202. -/
theorem witness_ChecksComeInOrder :
    broken.mode = .fault ∧ (9 : Byte).toNat ≤ 9 ∧
    ([0x02, 0x0A] : Packet) ≠ [0x01] ∧ (∀ r : Byte, r.toNat ≤ 9 → ([0x02, 0x0A] : Packet) ≠ [0x02, r]) ∧
    (scenA .enc 4).mode ≠ .fault ∧ decode (scenA .enc 4).cfg [] = .illegalCommand ∧
    decode (scenA .enc 4).cfg [0x20, 0x00] = .badOperand ∧ decode (scenA .enc 4).cfg [0x20] = .command .build ∧
    ¬ AcceptedIn .build (scenA .enc 4).mode ∧ decode (scenA .enc 4).cfg [0x42] = .command .encEnd ∧
    AcceptedIn .encEnd (scenA .enc 4).mode ∧
    (let s := { counted [(a, 2), (b, 1)] with cfg := small }
     s.mode = .idle ∧ s.total = 2 ^ s.cfg.freqW - 1 ∧ decode s.cfg [0x10, 0x63] = .command (.count c)) ∧
    ((lone .dec).mode = .dec ∧ (0x32 : Byte) ≠ 0x30 ∧ (0x32 : Byte) ≠ 0x31) := by
  refine ⟨rfl, by decide, by decide, fun r hr h => ?_, by decide, by decide, by decide, by decide, by simp [AcceptedIn, scenA],
    by decide, rfl, by decide, by decide⟩
  have : r = 0x0A := by simpa using h.symm
  subst this
  exact absurd hr (by decide)

theorem witness_OneResponsePerPacket : (waiting (.packet []) broken).inbox = .packet [] :: [.reset] := rfl

theorem witness_EveryCommandEnds : State.reset.inbox = [] := rfl

theorem witness_PacketsTakeEffectInArrivalOrder :
    ∀ i ∈ [Instr.count a, .rdnode 65535, .decBit 0xFF], WellFormed State.reset.cfg i = true := by decide

theorem witness_ModeTable :
    ((scenA .dec 4).mode ≠ .fault ∧ ¬ AcceptedIn (.encSym a) (scenA .dec 4).mode) ∧
    ((scenA .idle 4).mode ≠ .fault ∧ AcceptedIn .encBegin (scenA .idle 4).mode ∧ (scenA .idle 4).ctValid = true) ∧
    (State.reset.mode = .idle ∧ State.reset.ctValid = false ∧ State.reset.treePresent = false) ∧
    (broken.mode = .fault ∧ ¬ AcceptedIn .items broken.mode) ∧
    (broken.mode = .fault ∧ (9 : Byte).toNat ≤ 9) := by
  simp [AcceptedIn, scenA, broken, State.reset, State.initial]

/-- The empty packet, and a command in the wrong mode. -/
theorem witness_FaultsArePrecise :
    (∃ t, (waiting (.packet []) State.reset).mode ≠ .fault ∧ step (waiting (.packet []) State.reset) = .next t ∧
      t.mode = .fault) ∧
    (∃ t, (waiting (.packet [0x20]) (scenA .enc 4)).mode ≠ .fault ∧
      step (waiting (.packet [0x20]) (scenA .enc 4)) = .next t ∧ t.mode = .fault) :=
  ⟨⟨_, by decide, rfl, rfl⟩, ⟨_, by decide, rfl, rfl⟩⟩

theorem witness_StandingFaultUntilClearOrReset :
    broken.mode = .fault ∧ ([0x20] : Packet) ≠ [0x01] ∧ (∀ r : Byte, r.toNat ≤ 9 → ([0x20] : Packet) ≠ [0x02, r]) ∧
    (∃ t, step (waiting (.packet [0x01]) broken) = .next t ∧ t.mode ≠ .fault) ∧
    (∃ t, step (waiting .reset broken) = .next t ∧ t.mode ≠ .fault) :=
  ⟨rfl, by decide, fun r _ h => absurd h (by simp), ⟨_, rfl, by decide⟩, ⟨_, rfl, by decide⟩⟩

theorem witness_AbsenceIsNoFault : ∃ t, exec (.rdnode 5) (scenA .dec 4) = .next t ∧
    t.outbox = (scenA .dec 4).outbox ++ [[0x01]] := ⟨_, rfl, by decide⟩

theorem witness_ResetValues :
    (∃ t, step (waiting .reset broken) = .next t) ∧ (∃ t, exec .clear broken = .next t) := ⟨⟨_, rfl⟩, ⟨_, rfl⟩⟩

theorem witness_ResetEvent : (waiting .reset broken).inbox = .reset :: [.reset] := rfl

/-- Register 1 and register 9 are the ends of the range, 10 the first reserved number. -/
theorem witness_StatusRegistersRead :
    (let s := broken
     let l := [s.fcause.toNat, s.fcmd.toNat, s.nft, s.total, s.nleaf, s.nnode, s.root, s.cur, s.nct]
     l[(1 : Byte).toNat - 1]? = some 0x10 ∧ l[(9 : Byte).toNat - 1]? = some 3) ∧
    1 ≤ (1 : Byte).toNat ∧ 9 < (10 : Byte).toNat ∧ State.reset.mode ≠ .fault ∧ broken.mode = .fault := by decide

theorem witness_RegistersFitTheirWidths : Inv (scenA .dec 3) := inv_scenA .dec 3 (by decide) (.inl rfl)

/-- A known Symbol in a full table, and a new one with one entry free. -/
theorem witness_CountAddsOne :
    (let s := { counted [(a, 1), (b, 1)] with cfg := small }
     s.mode = .idle ∧ s.total ≠ 2 ^ s.cfg.freqW - 1 ∧ lookup s.ft a ≠ none ∧ s.nft = s.cfg.nMax) ∧
    (let s := { counted [(a, 2)] with cfg := small }
     s.mode = .idle ∧ s.total ≠ 2 ^ s.cfg.freqW - 1 ∧ lookup s.ft b = none ∧ s.nft ≠ s.cfg.nMax) := by decide

theorem witness_CountCapacityFaults :
    (let s := { counted [(a, 2), (b, 1)] with cfg := small }
     s.mode = .idle ∧ s.total = 2 ^ s.cfg.freqW - 1) ∧
    (let s := { counted [(a, 1), (b, 1)] with cfg := small }
     s.mode = .idle ∧ s.total ≠ 2 ^ s.cfg.freqW - 1 ∧ lookup s.ft c = none ∧ s.nft = s.cfg.nMax) := by decide

theorem witness_ItemsReadsTheTableInOrder :
    (counted [(a, 2), (b, 1)]).mode ≠ .fault ∧ Memory.wf (counted [(a, 2), (b, 1)]) := by decide

/-- Both capacities are met exactly. -/
theorem witness_FreqCountsOccurrences :
    let s := State.initial small
    s.mode = .idle ∧ s.ft = [] ∧ s.nft = 0 ∧ s.total = 0 ∧ [b, a, b].dedup.length = s.cfg.nMax ∧
      [b, a, b].length = 2 ^ s.cfg.freqW - 1 := by decide

theorem witness_CountingOrderDoesNotMatter : ∃ t t', Sorted (State.initial small).ft ∧ [b, a].Perm [a, b] ∧
    execAll (Pseudo.freq [b, a]).expand (State.initial small) = .next t ∧
    execAll (Pseudo.freq [a, b]).expand (State.initial small) = .next t' ∧ t.mode = .idle ∧ t'.mode = .idle :=
  ⟨_, _, by decide, by decide, rfl, rfl, by decide, by decide⟩

/-- A tie between the positions 0 and 3 for the second-minimum. -/
theorem least_two : LeastTwo [some 2, none, some 1, some 2] 2 1 0 2 where
  at1 := rfl
  at2 := rfl
  differ := by decide
  least j g h hj := by
    match j, h with
    | 0, h => exact .inl (by simp at h; omega)
    | 1, h => simp at h
    | 2, _ => exact absurd rfl hj
    | 3, h => exact .inl (by simp at h; omega)
    | n + 4, h => simp at h
  second j g h hj hj' := by
    match j, h with
    | 0, _ => exact absurd rfl hj'
    | 1, h => simp at h
    | 2, _ => exact absurd rfl hj
    | 3, h => exact .inr ⟨by simpa using h, by decide⟩
    | n + 4, h => simp at h

theorem witness_ScanFindsTheLeastTwo : 2 ≤ (([some 5, none, some 5] : List (Option Nat)).filterMap id).length ∧
    LeastTwo [some 2, none, some 1, some 2] 2 1 0 2 := ⟨by decide, least_two⟩

/-- The minimum stands at the greater position. -/
theorem witness_MergeFollowsTheSlotRule :
    LeastTwo (slotFreqs ⟨[.leaf a 2, .leaf b 1, .leaf c 2], [some 0, none, some 1, some 2]⟩) 2 1 0 2 := least_two

theorem witness_OneSlotRemains : [(a, 1)] ≠ ([] : List (Symbol × Nat)) ∧ 0 ≤ [(a, 1)].length - 1 := by decide

theorem witness_BuildOfNothingIsAbsent :
    (scenA .idle 4).mode = .idle ∧ (scenA .idle 4).ft = [] ∧ (scenA .idle 4).nft = 0 := by decide

theorem witness_BuildOfOneSymbol :
    (counted [(a, 3)]).mode = .idle ∧ (counted [(a, 3)]).ft = [(a, 3)] ∧ (counted [(a, 3)]).nft = 1 := by decide

theorem witness_BuildMakesTheTree : (counted [(a, 2), (b, 1)]).mode = .idle ∧ (counted [(a, 2), (b, 1)]).ft ≠ [] ∧
    (counted [(a, 2), (b, 1)]).nft = (counted [(a, 2), (b, 1)]).ft.length := by decide

theorem witness_BuiltTreeFacts : ∃ t, (counted [(a, 2), (b, 1)]).mode = .idle ∧ TableInv (counted [(a, 2), (b, 1)]) ∧
    (counted [(a, 2), (b, 1)]).ft ≠ [] ∧ exec .build (counted [(a, 2), (b, 1)]) = .next t :=
  ⟨_, rfl, table_counted, by decide, rfl⟩

theorem witness_BuiltTreeIsOptimal : ∃ t tr, (counted [(a, 2), (b, 1)]).mode = .idle ∧
    TableInv (counted [(a, 2), (b, 1)]) ∧ exec .build (counted [(a, 2), (b, 1)]) = .next t ∧ currentTree t = some tr ∧
    (HuffTree.node 0 (.leaf b 1) (.leaf a 2)).leaves.Perm tr.leaves :=
  ⟨_, .node 3 (.leaf a 2) (.leaf b 1), rfl, table_counted, rfl, by decide, by decide⟩

/-- Two states that differ in everything but the items. -/
theorem witness_TreeDependsOnItemsOnly : ∃ t t',
    (counted [(a, 2), (b, 1)]).mode = .idle ∧
    ({ scenA .idle 3 with ft := [(a, 2), (b, 1)], nft := 2, ebuf := [.one] } : State).mode = .idle ∧
    exec .build (counted [(a, 2), (b, 1)]) = .next t ∧
    exec .build { scenA .idle 3 with ft := [(a, 2), (b, 1)], nft := 2, ebuf := [.one] } = .next t' :=
  ⟨_, _, rfl, rfl, rfl, rfl⟩

theorem witness_RdnodeReadsOneRecord : (scenA .dec 4).mode ≠ .fault ∧ (scenA .dec 4).nnode ≤ 5 ∧
    (4 < (scenA .dec 4).nnode ∧ (scenA .dec 4).node[4]? = some (.internal 6 0 3)) ∧
    (0 < (scenA .dec 4).nnode ∧ (scenA .dec 4).node[0]? = some (.leaf a 3)) := by decide

theorem witness_DeriveGivesThePaths :
    ((scenA .idle 4).mode = .idle ∧ TreeInv (scenA .idle 4) ∧ (scenA .idle 4).treePresent = true) ∧
    ((bare .idle).mode = .idle ∧ TreeInv (bare .idle) ∧ (bare .idle).treePresent = false) :=
  ⟨⟨rfl, (inv_scenA .idle 4 (by decide) (.inr rfl)).tree, rfl⟩, ⟨rfl, inv_bare.tree, rfl⟩⟩

/-- The boundary of two leaves: codes of one digit, the least and the greatest length there. -/
theorem witness_CodesFormACompletePrefixCode_two :
    Inv (pair .enc) ∧ (pair .enc).ctValid = true ∧ (pair .enc).treePresent = true ∧ (pair .enc).nleaf = 2 ∧
      lookup (pair .enc).ct a = some [.zero] ∧ lookup (pair .enc).ct b = some [.one] ∧ a ≠ b ∧
      (pair .enc).nleaf - 1 ≤ [Digit.one].length :=
  ⟨inv_pair .enc (by decide), rfl, rfl, rfl, by decide, by decide, by decide, by decide⟩

/-- Three leaves, and one leaf. -/
theorem witness_CodesFormACompletePrefixCode :
    (Inv (scenA .enc 4) ∧ (scenA .enc 4).ctValid = true ∧ (scenA .enc 4).treePresent = true ∧
      lookup (scenA .enc 4).ct a = some [.zero] ∧ lookup (scenA .enc 4).ct c = some [.one, .one] ∧ a ≠ c ∧
      2 ≤ (scenA .enc 4).nleaf ∧ (scenA .enc 4).nleaf - 1 ≤ [Digit.one, .zero].length) ∧
    (Inv (lone .enc) ∧ (lone .enc).ctValid = true ∧ (lone .enc).treePresent = true ∧ (lone .enc).nleaf = 1 ∧
      lookup (lone .enc).ct a = some [] ∧ (lone .enc).nleaf - 1 ≤ ([] : Digits).length) :=
  ⟨⟨inv_scenA .enc 4 (by decide) (.inr rfl), rfl, rfl, by decide, by decide, by decide, by decide, by decide⟩,
    ⟨inv_lone .enc (by decide), rfl, rfl, rfl, by decide, by decide⟩⟩

theorem witness_RdcodeReadsOneCode : (scenA .enc 4).mode ≠ .fault ∧
    lookup (scenA .enc 4).ct b = some [.one, .zero] ∧ lookup (scenA .enc 4).ct d = none := by decide

theorem witness_EncoderCommands :
    ((bare .idle).mode = .idle ∧ (bare .idle).ctValid = true) ∧
    ((scenA .enc 4).mode = .enc ∧ lookup (scenA .enc 4).ct b = some [.one, .zero]) ∧
    ((bare .enc).mode = .enc ∧ (bare .enc).nct = 0) := by decide

theorem witness_UnknownSymbolIsLookupFailure :
    (scenA .enc 4).mode = .enc ∧ lookup (scenA .enc 4).ct d = none := by decide

/-- Scenario A's tree, for the tree clauses. -/
theorem tree_scenA (m : Mode) : currentTree (scenA m 4) =
    some (.node 6 (.leaf a 3) (.node 3 (.leaf b 2) (.leaf c 1))) := rfl

/-- The empty stream, without a tree and with one. -/
theorem witness_EncodeOutcomes_empty :
    (Inv (bare .idle) ∧ (bare .idle).mode = .idle ∧ (bare .idle).treePresent = false ∧ ([] : List Symbol) = []) ∧
    (Inv (pair .idle) ∧ (pair .idle).mode = .idle ∧ ∃ tr, currentTree (pair .idle) = some tr ∧
      ∀ x ∈ ([] : List Symbol), x ∈ tr.codes.map Prod.fst) :=
  ⟨⟨inv_bare, rfl, rfl, rfl⟩, ⟨inv_pair .idle (by decide), rfl, .node 2 (.leaf a 1) (.leaf b 1), rfl, by decide⟩⟩

/-- An unknown Symbol first in the stream. -/
theorem witness_EncodeOutcomes_first : Inv (pair .idle) ∧ (pair .idle).mode = .idle ∧
    ∃ tr, currentTree (pair .idle) = some tr ∧ [d] = [] ++ d :: [] ∧ d ∉ tr.codes.map Prod.fst :=
  ⟨inv_pair .idle (by decide), rfl, .node 2 (.leaf a 1) (.leaf b 1), rfl, rfl, by decide⟩

theorem witness_EncodeOutcomes :
    (Inv (bare .idle) ∧ (bare .idle).mode = .idle ∧ (bare .idle).treePresent = false ∧ [a] ≠ []) ∧
    (Inv (scenA .idle 4) ∧ (scenA .idle 4).mode = .idle ∧ ∃ tr, currentTree (scenA .idle 4) = some tr ∧
      (∀ x ∈ [c, a], x ∈ tr.codes.map Prod.fst) ∧ d ∉ tr.codes.map Prod.fst ∧ [c, a, d, b] = [c, a] ++ d :: [b]) :=
  ⟨⟨inv_bare, rfl, rfl, by decide⟩,
    ⟨inv_scenA .idle 4 (by decide) (.inr rfl), rfl, _, tree_scenA .idle, by decide, by decide, rfl⟩⟩

theorem witness_DecodeSessionCommands :
    ((scenA .idle 4).mode = .idle ∧ (scenA .idle 4).treePresent = true) ∧
    ((scenA .dec 4).mode = .dec ∧ (scenA .dec 4).cur = (scenA .dec 4).root) ∧
    ((scenA .dec 3).mode = .dec ∧ (scenA .dec 3).cur ≠ (scenA .dec 3).root) := by decide

theorem witness_DecBitMoves : (scenA .dec 4).mode = .dec ∧
    (scenA .dec 4).node[(scenA .dec 4).cur]? = some (.internal 6 0 3) ∧
    (scenA .dec 4).node[0]? = some (.leaf a 3) ∧ (scenA .dec 4).node[3]? = some (.internal 3 1 2) := by decide

theorem witness_DecBitFaults : ((scenA .dec 4).mode = .dec ∧ (0x32 : Byte) ≠ 0x30 ∧ (0x32 : Byte) ≠ 0x31) ∧
    ((lone .dec).mode = .dec ∧ (lone .dec).node[(lone .dec).cur]? = some (.leaf a 3)) := by decide

theorem witness_LeafTransitionOnlyInTheSingleLeafTree :
    (Inv (scenA .dec 3) ∧ (scenA .dec 3).mode = .dec) ∧ (Inv (lone .dec) ∧ (lone .dec).mode = .dec ∧
      ∃ t, exec (.decBit 0x30) (lone .dec) = .next t) :=
  ⟨⟨inv_scenA .dec 3 (by decide) (.inl rfl), rfl⟩, ⟨inv_lone .dec (by decide), rfl, _, rfl⟩⟩

/-- The boundary of two leaves (V-D7), where no proper non-empty prefix of a code exists; and the empty string, in the
trees of two leaves and of one. -/
theorem witness_DecodeOutcomes_two :
    (Inv (pair .idle) ∧ (pair .idle).mode = .idle ∧ (pair .idle).nleaf = 2 ∧
      ∃ tr, currentTree (pair .idle) = some tr ∧ Encodes tr.codes [a, b] [.zero, .one] ∧ Encodes tr.codes [] []) ∧
    (Inv (lone .idle) ∧ (lone .idle).mode = .idle ∧ (lone .idle).treePresent = true ∧ (lone .idle).nleaf = 1) :=
  ⟨⟨inv_pair .idle (by decide), rfl, rfl, .node 2 (.leaf a 1) (.leaf b 1), rfl,
      ⟨[.zero], [.one], by decide, rfl, [.one], [], by decide, rfl, rfl⟩, rfl⟩,
    ⟨inv_lone .idle (by decide), rfl, rfl, rfl⟩⟩

/-- The end of the string falls between two codes, and inside one. -/
theorem witness_DecodeOutcomes :
    (Inv (bare .idle) ∧ (bare .idle).mode = .idle ∧ (bare .idle).treePresent = false) ∧
    (Inv (scenA .idle 4) ∧ (scenA .idle 4).mode = .idle ∧ 2 ≤ (scenA .idle 4).nleaf ∧
      ∃ tr, currentTree (scenA .idle 4) = some tr ∧ Encodes tr.codes [b, a] [.one, .zero, .zero] ∧
        [Digit.one, .zero, .zero, .one] = [.one, .zero, .zero] ++ [.one] ∧ [Digit.one] ≠ [] ∧
        (c, [.one, .one]) ∈ tr.codes ∧ [Digit.one] <+: [.one, .one] ∧ [Digit.one] ≠ [.one, .one]) ∧
    (Inv (lone .idle) ∧ (lone .idle).mode = .idle ∧ (lone .idle).treePresent = true ∧ (lone .idle).nleaf = 1 ∧
      [Digit.zero] ≠ []) :=
  ⟨⟨inv_bare, rfl, rfl⟩,
    ⟨inv_scenA .idle 4 (by decide) (.inr rfl), rfl, by decide, _, tree_scenA .idle,
      ⟨[.one, .zero], [.zero], by decide, rfl, [.zero], [], by decide, rfl, rfl⟩, rfl, by decide, by decide,
      ⟨[.one], rfl⟩, by decide⟩,
    ⟨inv_lone .idle (by decide), rfl, rfl, rfl, by decide⟩⟩

/-- DEC_BEGIN is in none of the lists of writers of R40 and of EBUF, COUNT in none of those of NODE, CT and CUR. -/
theorem witness_StoresHaveTheirWriters : (∃ t, exec .decBegin (scenA .idle 4) = .next t) ∧
    ∃ t, exec (.count a) (scenA .idle 4) = .next t := ⟨⟨_, rfl⟩, ⟨_, rfl⟩⟩

theorem witness_SessionsHaveTheirWriters : ∃ t, exec (.count a) (scenA .idle 4) = .next t ∧ t.mode ≠ .fault ∧
    Instr.count a ≠ .clear := ⟨_, rfl, by decide, by decide⟩

theorem witness_ReadOutsChangeNothing : (scenA .dec 4).mode ≠ .fault ∧ (9 : Byte).toNat ≤ 9 := by decide

theorem witness_InvAtReset : Config.wf ⟨1, 1, 1, .m1⟩ ∧ Config.wf ⟨255, 1, 64, .lo⟩ := by decide

theorem witness_StepKeepsStoresCanonical : ∃ t, Memory.wf (waiting (.packet [0x10, 0x63]) (counted [(a, 2), (b, 1)])) ∧
    step (waiting (.packet [0x10, 0x63]) (counted [(a, 2), (b, 1)])) = .next t := ⟨_, by decide, rfl⟩

theorem witness_StepKeepsTheTable : ∃ t, TableInv (waiting (.packet [0x10, 0x63]) (counted [(a, 2), (b, 1)])) ∧
    step (waiting (.packet [0x10, 0x63]) (counted [(a, 2), (b, 1)])) = .next t :=
  have h := table_counted
  ⟨_, ⟨h.sorted, h.symbols, h.counts, h.nft, h.total, h.capacity, h.bound⟩, rfl⟩

theorem witness_StepKeepsInv : ∃ t, Inv (scenA .dec 3) ∧ step (scenA .dec 3) = .next t :=
  ⟨_, inv_scenA .dec 3 (by decide) (.inl rfl), rfl⟩

/-- The least number of distinct Symbols. -/
theorem witness_RoundTrip : Inv (scenA .idle 4) ∧ (scenA .idle 4).mode = .idle ∧ (scenA .idle 4).ft = [] ∧
    (∀ x ∈ [d, a], Symbol.ok (scenA .idle 4).cfg x = true) ∧ [d, a].dedup.length = 2 ∧
    [d, a].dedup.length ≤ (scenA .idle 4).cfg.nMax ∧ [d, a].length ≤ 2 ^ (scenA .idle 4).cfg.freqW - 1 ∧
    (∀ x ∈ [a, a, d], x ∈ [d, a]) :=
  ⟨inv_scenA .idle 4 (by decide) (.inr rfl), rfl, rfl, by decide, by decide, by decide, by decide, by decide⟩

theorem witness_EncodedLength : Inv (bare .idle) ∧ (bare .idle).mode = .idle ∧ (bare .idle).ft = [] ∧
    (∀ x ∈ [a], Symbol.ok (bare .idle).cfg x = true) ∧ [a] ≠ [] ∧ [a].dedup.length ≤ (bare .idle).cfg.nMax ∧
    [a].length ≤ 2 ^ (bare .idle).cfg.freqW - 1 :=
  ⟨inv_bare, rfl, rfl, by decide, by decide, by decide, by decide⟩

theorem witness_PermutedStreamsGiveTheSameCodes : Inv (bare .idle) ∧ (bare .idle).mode = .idle ∧
    (bare .idle).ft = [] ∧ [a, b, a].Perm [b, a, a] ∧ [a, b, a].dedup.length ≤ (bare .idle).cfg.nMax ∧
    [a, b, a].length ≤ 2 ^ (bare .idle).cfg.freqW - 1 :=
  ⟨inv_bare, rfl, rfl, by decide, by decide, by decide⟩

theorem witness_AbsenceRunsThroughTheChain :
    (scenA .idle 4).mode = .idle ∧ (scenA .idle 4).ft = [] ∧ (scenA .idle 4).nft = 0 := by decide

theorem witness_SingleSymbolStreamIsLost : Inv (bare .idle) ∧ (bare .idle).mode = .idle ∧ (bare .idle).ft = [] ∧
    1 ≤ 2 ^ (bare .idle).cfg.freqW - 1 := ⟨inv_bare, rfl, rfl, by decide⟩

end Sys2Proof.Tests
end

/-! ## Proofs: the state's registers and reset values (R33, R38) -/

namespace Sys2Proof

/-! ### Bytes of a small value -/

/-- A value below 256^n leaves the bytes above the low n at zero. -/
theorem beBytes_add_of_lt {n v : Nat} (h : v < 256 ^ n) (k : Nat) :
    beBytes (k + n) v = List.replicate k 0 ++ beBytes n v := by
  induction k with
  | zero => simp
  | succ k ih =>
    have htop : v / 256 ^ (k + n) = 0 :=
      Nat.div_eq_of_lt (h.trans_le (Nat.pow_le_pow_right (by decide) (Nat.le_add_left n k)))
    rw [Nat.succ_add, beBytes, htop, ih]
    rfl

/-- A byte as one byte is itself. -/
theorem beBytes_one_toNat (b : Byte) : beBytes 1 b.toNat = [b] := by
  simp [beBytes]

end Sys2Proof

namespace Sys2Proof.Machine

/-! ### STATUS (R33) -/

/-- DEGEN stands exactly when there is a tree whose root is a Leaf. -/
theorem degen_iff (s : State) :
    degen s = true ↔ s.treePresent = true ∧ ∃ sym f, readNode s.node s.root = .leaf sym f := by
  unfold degen
  cases readNode s.node s.root <;> simp [isLeaf]

/-- STATUS bit by bit: MODE, TREE_PRESENT, DEGEN, CT_VALID, and zeros. -/
theorem statusByte_getLsbD (s : State) (i : Nat) :
    (statusByte s).getLsbD i =
      if i < 2 then s.mode.bits.getLsbD i
      else if i = 2 then s.treePresent
      else if i = 3 then degen s
      else if i = 4 then s.ctValid
      else false := by
  unfold statusByte
  change BitVec.getLsbD (w := 3 + 1 + 1 + 1 + 2) _ i = _
  simp only [BitVec.getLsbD_append, BitVec.getLsbD_ofBool, BitVec.getLsbD_zero]
  grind

/-- Bits 1:0 of STATUS are MODE. -/
theorem statusByte_extractLsb'_mode (s : State) : (statusByte s).extractLsb' 0 2 = s.mode.bits := by
  apply BitVec.eq_of_getLsbD_eq
  intro i hi
  simp [statusByte_getLsbD, hi]

/-- RDSR of a register that exists answers its value in every mode and changes nothing (R161). -/
theorem exec_rdsr_of_register {s : State} {r : Byte} {v : Nat} (h : statusRegister s r.toNat = some v) :
    exec (.rdsr r) s = .next (answered (0x00 :: beBytes 8 v) s) := by
  rw [exec_of_acceptedIn (i := .rdsr r) trivial]
  simp only [ruleOf, h]
  rfl

/-- RDSR 0 answers STATUS in the low byte of its eight. -/
theorem exec_rdsr_status (s : State) :
    exec (.rdsr 0) s =
      .next (answered [0x00, 0x00, 0x00, 0x00, 0x00, 0x00, 0x00, 0x00, statusByte s] s) := by
  have hbytes : beBytes 8 (statusByte s).toNat = List.replicate 7 0 ++ [statusByte s] := by
    rw [beBytes_add_of_lt (k := 7) (n := 1) (statusByte s).isLt, beBytes_one_toNat]
  rw [exec_rdsr_of_register (r := 0) (v := (statusByte s).toNat) rfl, hbytes]
  rfl

/-- Settles O19: the response carries `statusByte`, whose bits are read one by one. -/
theorem statusBits : Obligations.StatusBits := by
  intro s
  have hdegen : (statusByte s).getLsbD 3 = degen s := statusByte_getLsbD s 3
  refine ⟨statusByte s, exec_rdsr_status s, ?_, statusByte_getLsbD s 2, hdegen ▸ degen_iff s,
    statusByte_getLsbD s 4, statusByte_getLsbD s 5, statusByte_getLsbD s 6, statusByte_getLsbD s 7⟩
  rw [statusByte_extractLsb'_mode]
  cases s.mode <;> rfl

/-! ### Reset (R38) -/

/-- CLEAR is accepted in every mode, and answers after everything is at its reset value (R160). -/
theorem exec_clear (s : State) : exec .clear s = .next (answered [0x00] (clearAll s)) := by
  rw [exec_of_acceptedIn (i := .clear) trivial]
  rfl

/-- RDNODE at or above NNODE answers ABSENT and changes nothing (R121). -/
theorem exec_rdnode_of_nnode_le {s : State} {n : Nat} (hmode : s.mode ≠ .fault) (h : s.nnode ≤ n) :
    exec (.rdnode n) s = .next (answered [0x01] s) := by
  rw [exec_of_acceptedIn (i := .rdnode n) hmode, ruleOf, if_pos h]
  rfl

/-- A state that clearing leaves as it is: what reset, CLEAR and `State.reset` have in common. -/
theorem clearAll_eq_self_of_reset {s t : State}
    (h : t = State.reset ∨ (∃ rest, s.inbox = .reset :: rest ∧ step s = .next t) ∨ exec .clear s = .next t) :
    clearAll t = t := by
  obtain rfl | ⟨rest, hin, hstep⟩ | hclear := h
  · rfl
  · cases (step_of_reset hin).symm.trans hstep
    rfl
  · cases (exec_clear s).symm.trans hclear
    rfl

/-- Settles O16: each of the three states is one that `clearAll` leaves as it is, so its fields are those of
`clearAll`; NNODE = 0 makes every NODE record unreadable. -/
theorem resetValues : Obligations.ResetValues := by
  intro s t h
  rw [← clearAll_eq_self_of_reset h]
  have hnode (n : Nat) : exec (.rdnode n) (clearAll t) = .next (answered [0x01] (clearAll t)) :=
    exec_rdnode_of_nnode_le (by simp) (by simp)
  simpa using hnode

end Sys2Proof.Machine

/-! ## Proofs: the Tree Builder (R110 to R121) -/

namespace Sys2Proof.Machine

/-! ### The order of positions (R114) -/

theorem Before.asymm {i f j g : Nat} (h : Before i f j g) : ¬ Before j g i f := by
  unfold Before at h ⊢
  omega

theorem Before.le {i f j g : Nat} (h : Before i f j g) : f ≤ g := by
  unfold Before at h
  omega

/-- A position precedes every later one that holds no smaller a frequency. -/
theorem Before.of_le_of_lt {i f j g : Nat} (hf : f ≤ g) (hi : i < j) : Before i f j g := by
  unfold Before
  omega

/-- The positions of the least and the second-least frequency are determined. -/
theorem LeastTwo.unique {freqs : List (Option Nat)} {m1 f1 m2 f2 n1 g1 n2 g2 : Nat}
    (h : LeastTwo freqs m1 f1 m2 f2) (k : LeastTwo freqs n1 g1 n2 g2) :
    m1 = n1 ∧ f1 = g1 ∧ m2 = n2 ∧ f2 = g2 := by
  have h1 : m1 = n1 := by
    by_contra hne
    exact (h.least _ _ k.at1 (Ne.symm hne)).asymm (k.least _ _ h.at1 hne)
  subst h1
  have h2 : m2 = n2 := by
    by_contra hne
    exact (h.second _ _ k.at2 k.differ.symm (Ne.symm hne)).asymm (k.second _ _ h.at2 h.differ.symm hne)
  subst h2
  have hf1 : f1 = g1 := by simpa using h.at1.symm.trans k.at1
  have hf2 : f2 = g2 := by simpa using h.at2.symm.trans k.at2
  exact ⟨rfl, hf1, rfl, hf2⟩

/-! ### The occupied positions of a growing collection -/

theorem lt_length_of_occupied {seen : List (Option Nat)} {j g : Nat} (h : seen[j]? = some (some g)) :
    j < seen.length :=
  (List.getElem?_eq_some_iff.1 h).1

/-- An Absent slot at the end adds no occupied position. -/
theorem occupied_append_none {seen : List (Option Nat)} {j g : Nat} :
    (seen ++ [none])[j]? = some (some g) ↔ seen[j]? = some (some g) := by
  grind

/-- An occupied slot at the end adds its own position. -/
theorem occupied_append_some {seen : List (Option Nat)} {f j g : Nat} :
    (seen ++ [some f])[j]? = some (some g) ↔ seen[j]? = some (some g) ∨ (j = seen.length ∧ g = f) := by
  grind

/-! ### The two-minimum scan (R114, R115) -/

/-- What the scan has to hold after the slots `seen`: nothing when all are Absent, the one occupied position, or the
least two. -/
inductive Minima (seen : List (Option Nat)) : Option Pick → Option Pick → Prop
  | nothing (hseen : seen.filterMap id = []) : Minima seen none none
  | one {a : Pick} (hseen : seen.filterMap id = [a.freq]) (hat : seen[a.pos]? = some (some a.freq))
      (honly : ∀ j g, seen[j]? = some (some g) → j = a.pos) : Minima seen (some a) none
  | two {a b : Pick} (h : LeastTwo seen a.pos a.freq b.pos b.freq) : Minima seen (some a) (some b)

section

variable {seen : List (Option Nat)} {m1 m2 : Option Pick} {a b : Pick} {f : Nat}

/-- Two positions occupied: the scan holds the least two. -/
theorem Minima.leastTwo (h : Minima seen m1 m2) (hlen : 2 ≤ (seen.filterMap id).length) :
    ∃ a b, m1 = some a ∧ m2 = some b ∧ LeastTwo seen a.pos a.freq b.pos b.freq := by
  cases h with
  | nothing hseen => exact absurd hlen (by rw [hseen]; decide)
  | one hseen => exact absurd hlen (by rw [hseen]; simp)
  | two h => exact ⟨_, _, rfl, rfl, h⟩

/-- The minimum held is occupied and precedes every other occupied position. -/
theorem Minima.minimum (h : Minima seen (some a) m2) :
    seen[a.pos]? = some (some a.freq) ∧
      ∀ j g, seen[j]? = some (some g) → j ≠ a.pos → Before a.pos a.freq j g := by
  cases h with
  | one _ hat honly => exact ⟨hat, fun j g hj hne => absurd (honly j g hj) hne⟩
  | two h => exact ⟨h.at1, h.least⟩

/-- An Absent slot changes nothing. -/
theorem Minima.append_none (h : Minima seen m1 m2) : Minima (seen ++ [none]) m1 m2 := by
  cases h with
  | nothing hseen => exact .nothing (by rw [List.filterMap_append, hseen]; rfl)
  | one hseen hat honly =>
    refine .one (by rw [List.filterMap_append, hseen]; rfl) (occupied_append_none.2 hat) fun j g hj => ?_
    exact honly j g (occupied_append_none.1 hj)
  | two h =>
    obtain ⟨hat1, hat2, hne, hleast, hsecond⟩ := h
    exact .two ⟨occupied_append_none.2 hat1, occupied_append_none.2 hat2, hne,
      fun j g hj => hleast j g (occupied_append_none.1 hj), fun j g hj => hsecond j g (occupied_append_none.1 hj)⟩

/-- The first occupied slot becomes the minimum. -/
theorem Minima.append_first (h : Minima seen none m2) :
    Minima (seen ++ [some f]) (some ⟨seen.length, f⟩) m2 := by
  cases h with
  | nothing hseen =>
    refine .one (by rw [List.filterMap_append, hseen]; rfl) (occupied_append_some.2 (.inr ⟨rfl, rfl⟩)) fun j g hj => ?_
    obtain hj | ⟨rfl, -⟩ := occupied_append_some.1 hj
    · have hmem : g ∈ seen.filterMap id := List.mem_filterMap.2 ⟨_, List.mem_of_getElem? hj, rfl⟩
      rw [hseen] at hmem
      exact absurd hmem List.not_mem_nil
    · rfl

/-- A frequency below the minimum displaces it, and the old minimum becomes the second-minimum. -/
theorem Minima.append_below_minimum (h : Minima seen (some a) m2) (hf : f < a.freq) :
    Minima (seen ++ [some f]) (some ⟨seen.length, f⟩) (some a) := by
  obtain ⟨hat, hleast⟩ := h.minimum
  refine .two ⟨occupied_append_some.2 (.inr ⟨rfl, rfl⟩), occupied_append_some.2 (.inl hat),
    (lt_length_of_occupied hat).ne', fun j g hj hne => ?_, fun j g hj hne hne' => ?_⟩
  · obtain hj | ⟨rfl, -⟩ := occupied_append_some.1 hj
    · by_cases hja : j = a.pos
      · subst hja
        have hg : a.freq = g := by simpa using hat.symm.trans hj
        exact .inl (hg ▸ hf)
      · exact .inl (hf.trans_le (hleast j g hj hja).le)
    · exact absurd rfl hne
  · obtain hj | ⟨rfl, -⟩ := occupied_append_some.1 hj
    · exact hleast j g hj hne'
    · exact absurd rfl hne

/-- A frequency not below the minimum becomes the second-minimum when every other occupied position comes after it. -/
theorem Minima.append_second (h : Minima seen (some a) m2) (hf : a.freq ≤ f)
    (hothers : ∀ j g, seen[j]? = some (some g) → j ≠ a.pos → f < g) :
    Minima (seen ++ [some f]) (some a) (some ⟨seen.length, f⟩) := by
  obtain ⟨hat, hleast⟩ := h.minimum
  have hlt := lt_length_of_occupied hat
  refine .two ⟨occupied_append_some.2 (.inl hat), occupied_append_some.2 (.inr ⟨rfl, rfl⟩), hlt.ne,
    fun j g hj hne => ?_, fun j g hj hne hne' => ?_⟩
  · obtain hj | ⟨rfl, rfl⟩ := occupied_append_some.1 hj
    · exact hleast j g hj hne
    · exact .of_le_of_lt hf hlt
  · obtain hj | ⟨rfl, -⟩ := occupied_append_some.1 hj
    · exact .inl (hothers j g hj hne)
    · exact absurd rfl hne'

/-- The second occupied slot, not below the minimum, becomes the second-minimum. -/
theorem Minima.append_first_second (h : Minima seen (some a) none) (hf : a.freq ≤ f) :
    Minima (seen ++ [some f]) (some a) (some ⟨seen.length, f⟩) := by
  refine h.append_second hf fun j g hj hne => ?_
  cases h with
  | one _ _ honly => exact absurd (honly j g hj) hne

/-- A frequency between the minimum and the second-minimum displaces the second-minimum. -/
theorem Minima.append_below_second (h : Minima seen (some a) (some b)) (hf : a.freq ≤ f) (hfb : f < b.freq) :
    Minima (seen ++ [some f]) (some a) (some ⟨seen.length, f⟩) := by
  refine h.append_second hf fun j g hj hne => ?_
  cases h with
  | two h =>
    by_cases hjb : j = b.pos
    · subst hjb
      have hg : b.freq = g := by simpa using h.at2.symm.trans hj
      exact hg ▸ hfb
    · exact hfb.trans_le (h.second j g hj hne hjb).le

/-- A frequency below neither of the two displaces neither: on a tie the earlier position stays. -/
theorem Minima.append_above (h : Minima seen (some a) (some b)) (hfa : a.freq ≤ f) (hfb : b.freq ≤ f) :
    Minima (seen ++ [some f]) (some a) (some b) := by
  cases h with
  | two h =>
    obtain ⟨hat1, hat2, hne, hleast, hsecond⟩ := h
    refine .two ⟨occupied_append_some.2 (.inl hat1), occupied_append_some.2 (.inl hat2), hne,
      fun j g hj hja => ?_, fun j g hj hja hjb => ?_⟩
    · obtain hj | ⟨rfl, rfl⟩ := occupied_append_some.1 hj
      · exact hleast j g hj hja
      · exact .of_le_of_lt hfa (lt_length_of_occupied hat1)
    · obtain hj | ⟨rfl, rfl⟩ := occupied_append_some.1 hj
      · exact hsecond j g hj hja hjb
      · exact .of_le_of_lt hfb (lt_length_of_occupied hat2)

end

/-- The scan keeps the minima of what it has read, over any slots still to read. -/
theorem minima_scan (rest : List (Option Nat)) {seen : List (Option Nat)} {m1 m2 : Option Pick}
    (h : Minima seen m1 m2) {i : Nat} (hi : seen.length = i) :
    Minima (seen ++ rest) (scan rest i m1 m2).1 (scan rest i m1 m2).2 := by
  fun_induction scan rest i m1 m2 generalizing seen with subst hi
  | case1 => simpa using h
  | case2 _ _ _ _ ih => simpa using ih h.append_none (by simp)
  | case3 _ _ _ _ ih => simpa using ih h.append_first (by simp)
  | case4 _ _ _ _ _ hfa ih => simpa using ih (h.append_below_minimum hfa) (by simp)
  | case5 _ _ _ _ hfa ih => simpa using ih (h.append_first_second (not_lt.1 hfa)) (by simp)
  | case6 _ _ _ _ hfa _ hfb ih => simpa using ih (h.append_below_second (not_lt.1 hfa) hfb) (by simp)
  | case7 _ _ _ _ hfa _ hfb ih => simpa using ih (h.append_above (not_lt.1 hfa) (not_lt.1 hfb)) (by simp)

/-- The scan of a whole collection finds its minima. -/
theorem minima_select2 (freqs : List (Option Nat)) : Minima freqs (select2 freqs).1 (select2 freqs).2 :=
  minima_scan freqs (seen := []) (.nothing rfl) rfl

/-- Settles O27: the scan holds the least two, and there is only one such pair. -/
theorem scanFindsTheLeastTwo : Obligations.ScanFindsTheLeastTwo := by
  intro freqs hlen
  obtain ⟨a, b, ha, hb, hab⟩ := (minima_select2 freqs).leastTwo hlen
  refine ⟨⟨_, _, _, _, hab⟩, fun m1 f1 m2 f2 h => ?_⟩
  obtain ⟨rfl, rfl, rfl, rfl⟩ := h.unique hab
  exact Prod.ext ha hb

/-! ### BUILD without a merge (R112, R113) -/

@[simp] theorem buildWork_nil (ms : MergeSlot) : buildWork ms [] = ⟨[], []⟩ := rfl

@[simp] theorem buildWork_singleton (ms : MergeSlot) (sym : Symbol) (c : Nat) :
    buildWork ms [(sym, c)] = ⟨[.leaf sym c], [some 0]⟩ := rfl

/-- A tree whose root is a Leaf reads as DEGEN in STATUS. -/
theorem statusByte_degen_of_leaf_root {s : State} {sym : Symbol} {f : Nat} (hpresent : s.treePresent = true)
    (hroot : readNode s.node s.root = .leaf sym f) : (statusByte s).getLsbD 3 = true := by
  have hdegen : (statusByte s).getLsbD 3 = degen s := statusByte_getLsbD s 3
  exact hdegen.trans ((degen_iff s).2 ⟨hpresent, sym, f, hroot⟩)

/-- Settles O30: BUILD's own rule on no items, whose work is empty. -/
theorem buildOfNothingIsAbsent : Obligations.BuildOfNothingIsAbsent := by
  intro s hmode hft hnft
  rw [exec_of_acceptedIn (i := .build) hmode]
  simp [ruleOf, hft, hnft, rootOf, respond_eq_answered, answered, Response.packet]

/-- Settles O31: BUILD's own rule on one item, whose work is the one Leaf; the root then reads as a Leaf. -/
theorem buildOfOneSymbol : Obligations.BuildOfOneSymbol := by
  intro s sym c hmode hft hnft
  refine ⟨_, ?_, rfl, statusByte_degen_of_leaf_root rfl (readNode_of_getElem? rfl), fun hcfg => by rw [hcfg]; rfl⟩
  rw [exec_of_acceptedIn (i := .build) hmode]
  simp [ruleOf, hft, hnft, rootOf, respond_eq_answered, answered, Response.packet]

end Sys2Proof.Machine

/-! ## Proofs: faults and the order of checks (R202 to R205) -/

namespace Sys2Proof.Machine

/-! ### Packets of a command (R71, R74) -/

/-- A packet that decodes to a command is that command's opcode byte and an operand of a length its format allows, from
which the command is assembled. -/
theorem eq_cons_of_decode_eq_command {c : Config} {p : Packet} {i : Instr} (h : decode c p = .command i) :
    ∃ operand, p = i.opc :: operand ∧ i.op.row.format.fits c operand.length = true ∧
      i = i.op.assemble operand := by
  cases p with
  | nil => exact absurd h (by simp)
  | cons opc operand =>
    cases hrow : opRow? opc with
    | none => simp [decode_cons, hrow] at h
    | some row =>
      obtain ⟨hself, rfl⟩ := opRow?_eq_some hrow
      rw [hself, decode_row] at h
      split_ifs at h with hfits
      injection h with h
      have hop : (row.op.assemble operand).op = row.op := by cases row.op <;> rfl
      rw [← h, Instr.opc, hop]
      exact ⟨operand, by rw [← hself], hfits, rfl⟩

/-- Byte 0 of a command's packet is its opcode byte. -/
theorem headD_of_decode_eq_command {c : Config} {p : Packet} {i : Instr} (h : decode c p = .command i) :
    p.headD 0x00 = i.opc := by
  obtain ⟨operand, rfl, -, -⟩ := eq_cons_of_decode_eq_command h
  rfl

/-- The one packet of CLEAR. -/
theorem eq_of_decode_eq_clear {c : Config} {p : Packet} (h : decode c p = .command .clear) : p = [0x01] := by
  obtain ⟨operand, rfl, hfits, -⟩ := eq_cons_of_decode_eq_command h
  cases operand with
  | nil => rfl
  | cons _ _ => cases hfits

/-- The one packet of RDSR r. -/
theorem eq_of_decode_eq_rdsr {c : Config} {p : Packet} {r : Byte} (h : decode c p = .command (.rdsr r)) :
    p = [0x02, r] := by
  obtain ⟨operand, rfl, hfits, hr⟩ := eq_cons_of_decode_eq_command h
  have hlen : operand.length = 1 := beq_iff_eq.1 hfits
  obtain ⟨b, rfl⟩ := List.length_eq_one_iff.1 hlen
  cases hr
  rfl

theorem takePacket_clear (s : State) : takePacket [0x01] s = exec .clear s := takePacket_of_command rfl

theorem takePacket_rdsr (r : Byte) (s : State) : takePacket [0x02, r] s = exec (.rdsr r) s :=
  takePacket_of_command rfl

/-! ### The standing fault (R202 step 1, R205) -/

/-- The registers 0 to 9 exist. -/
theorem exists_statusRegister (s : State) {n : Nat} (h : n ≤ 9) : ∃ v, statusRegister s n = some v := by
  interval_cases n <;> exact ⟨_, rfl⟩

/-- The register numbers from 10 on are reserved. -/
theorem statusRegister_of_reserved (s : State) {n : Nat} (h : 9 < n) : statusRegister s n = none := by
  obtain ⟨k, rfl⟩ := Nat.exists_eq_add_of_le' (Nat.succ_le_of_lt h)
  rfl

/-- Only CLEAR and RDSR are performed in MODE = FAULT. -/
theorem acceptedIn_fault_iff (i : Instr) : AcceptedIn i .fault ↔ i = .clear ∨ ∃ r, i = .rdsr r := by
  cases i <;> simp [AcceptedIn]

/-- In MODE = FAULT a command other than CLEAR and RDSR gets the standing fault. -/
theorem exec_of_fault_of_not_acceptedIn {i : Instr} {s : State} (hmode : s.mode = .fault)
    (h : ¬ AcceptedIn i s.mode) : exec i s = .next (answered [0xFF, s.fcause] s) := by
  rw [exec_of_not_acceptedIn h, refuse_of_fault hmode]

/-- In MODE = FAULT RDSR of a reserved number gets the standing fault (R161). -/
theorem exec_rdsr_of_fault_of_reserved {s : State} {r : Byte} (hmode : s.mode = .fault) (hr : 9 < r.toNat) :
    exec (.rdsr r) s = .next (answered [0xFF, s.fcause] s) := by
  rw [exec_of_acceptedIn (i := .rdsr r) trivial]
  simp only [ruleOf, statusRegister_of_reserved s hr, refuse_of_fault hmode]

/-- In MODE = FAULT every packet but those of CLEAR and RDSR 0 to 9 gets the standing fault. -/
theorem takePacket_of_fault {p : Packet} {s : State} (hmode : s.mode = .fault) (hclear : p ≠ [0x01])
    (hrdsr : ∀ r : Byte, r.toNat ≤ 9 → p ≠ [0x02, r]) :
    takePacket p s = .next (answered [0xFF, s.fcause] s) := by
  cases hdec : decode s.cfg p with
  | illegalCommand => rw [takePacket_of_illegalCommand hdec, refuse_of_fault hmode]
  | badOperand => rw [takePacket_of_badOperand hdec, refuse_of_fault hmode]
  | command i =>
    rw [takePacket_of_command hdec]
    by_cases hacc : AcceptedIn i s.mode
    · rw [hmode, acceptedIn_fault_iff] at hacc
      obtain rfl | ⟨r, rfl⟩ := hacc
      · exact absurd (eq_of_decode_eq_clear hdec) hclear
      · have hreserved : 9 < r.toNat := not_le.1 fun hr => hrdsr r hr (eq_of_decode_eq_rdsr hdec)
        exact exec_rdsr_of_fault_of_reserved hmode hreserved
    · exact exec_of_fault_of_not_acceptedIn hmode hacc

/-- A packet that leaves MODE = FAULT is that of CLEAR: RDSR and the standing fault keep MODE. -/
theorem eq_clear_of_takePacket_leaves_fault {p : Packet} {s t : State} (hmode : s.mode = .fault)
    (h : takePacket p s = .next t) (hleft : t.mode ≠ .fault) : p = [0x01] := by
  by_contra hclear
  by_cases hrdsr : ∃ r : Byte, r.toNat ≤ 9 ∧ p = [0x02, r]
  · obtain ⟨r, hr, rfl⟩ := hrdsr
    obtain ⟨v, hv⟩ := exists_statusRegister s hr
    rw [takePacket_rdsr, exec_rdsr_of_register hv] at h
    cases h
    exact hleft hmode
  · rw [takePacket_of_fault hmode hclear fun r hr hp => hrdsr ⟨r, hr, hp⟩] at h
    cases h
    exact hleft hmode

/-- Settles O14: by what the event is. Reset clears; of the packets only CLEAR changes MODE. -/
theorem standingFaultUntilClearOrReset : Obligations.StandingFaultUntilClearOrReset := by
  intro s e rest hin hmode
  constructor
  · rintro p rfl hclear hrdsr
    rw [step_of_packet hin]
    exact takePacket_of_fault hmode hclear hrdsr
  · intro t hstep hleft
    cases e with
    | reset =>
      cases (step_of_reset hin).symm.trans hstep
      simp [clearAll_eq_initial]
    | packet p =>
      rw [step_of_packet hin] at hstep
      have hclear : p = [0x01] := eq_clear_of_takePacket_leaves_fault (s := { s with inbox := rest }) hmode hstep hleft
      subst hclear
      rw [takePacket_clear, exec_clear] at hstep
      cases hstep
      exact ⟨.inl rfl, rfl⟩

/-! ### Fault entry (R203) -/

@[simp] theorem arrive_mode (nxt : Nat) (s : State) : (arrive nxt s).mode = s.mode := by
  unfold arrive
  split <;> rfl

@[simp] theorem countSym_mode (sym : Symbol) (s : State) : (countSym sym s).mode = s.mode := by
  unfold countSym
  split <;> rfl

/-- What a command's own rule can do outside MODE = FAULT, as far as faults go: it stays outside, or it is a fault entry
on the state before. Its own SequenceError is only ENC_BEGIN's, without a valid Code Table (R140). -/
theorem ruleOf_mode_ne_fault_or_faulted (i : Instr) {s : State} (hmode : s.mode ≠ .fault) :
    (ruleOf i s).mode ≠ .fault ∨ ∃ cause : Cause, ruleOf i s = faulted cause.code i.opc s ∧
      (cause = .sequenceError → i = .encBegin ∧ s.ctValid = false) := by
  cases i with
  | clear => left; simp [ruleOf]
  | rdsr r =>
    cases hreg : statusRegister s r.toNat with
    | none => right; exact ⟨.badOperand, by simp only [ruleOf, hreg, refuse_of_not_fault hmode]; rfl, nofun⟩
    | some v => left; simpa [ruleOf, hreg] using hmode
  | count sym =>
    by_cases htotal : s.total = s.cfg.maxCount
    · right; exact ⟨.countOverflow, by rw [ruleOf, if_pos htotal]; rfl, nofun⟩
    · by_cases hfull : (lookup s.ft sym).isNone ∧ s.nft = s.cfg.nMax
      · right; exact ⟨.tableFull, by rw [ruleOf, if_neg htotal, if_pos hfull]; rfl, nofun⟩
      · left; rw [ruleOf, if_neg htotal, if_neg hfull, countSym_mode]; exact hmode
  | items => left; exact hmode
  | build => left; exact hmode
  | rdnode n => left; rw [ruleOf]; split_ifs <;> exact hmode
  | derive => left; exact hmode
  | rdcode sym => left; rw [ruleOf]; split <;> exact hmode
  | encBegin =>
    cases hct : s.ctValid with
    | false => right; exact ⟨.sequenceError, by rw [ruleOf, if_pos hct]; rfl, fun _ => ⟨rfl, rfl⟩⟩
    | true => left; simp [ruleOf, hct]
  | encSym sym =>
    cases hcode : lookup s.ct sym with
    | none => right; exact ⟨.lookupFailure, by simp only [ruleOf, hcode]; rfl, nofun⟩
    | some code => left; simpa [ruleOf, hcode] using hmode
  | encEnd => left; simp [ruleOf]
  | decBegin =>
    cases htree : s.treePresent with
    | false => right; exact ⟨.noTree, by rw [ruleOf, if_pos htree]; rfl, nofun⟩
    | true => left; simp [ruleOf, htree]
  | decBit ch =>
    cases hdigit : digit ch with
    | none => right; exact ⟨.badDigit, by simp only [ruleOf, hdigit]; rfl, nofun⟩
    | some d =>
      cases hnode : readNode s.node s.cur with
      | leaf sym f => right; exact ⟨.leafTransition, by simp only [ruleOf, hdigit, hnode]; rfl, nofun⟩
      | internal f l r => left; simpa [ruleOf, hdigit, hnode] using hmode
  | decEnd =>
    by_cases hroot : s.cur ≠ s.root
    · right; exact ⟨.truncated, by rw [ruleOf, if_pos hroot]; rfl, nofun⟩
    · left; simp [ruleOf, if_neg hroot]

/-- Outside MODE = FAULT a command of a wrong mode enters SequenceError. -/
theorem exec_of_not_fault_of_not_acceptedIn {i : Instr} {s : State} (hmode : s.mode ≠ .fault)
    (h : ¬ AcceptedIn i s.mode) : exec i s = .next (faulted 0x03 i.opc s) := by
  rw [exec_of_not_acceptedIn h, refuse_of_not_fault hmode]
  rfl

/-- A packet taken outside MODE = FAULT leaves HTB outside, or is a fault entry with byte 0 of the packet. -/
theorem takePacket_mode_ne_fault_or_faulted {p : Packet} {s t : State} (hmode : s.mode ≠ .fault)
    (h : takePacket p s = .next t) :
    t.mode ≠ .fault ∨ ∃ cause : Cause, t = faulted cause.code (p.headD 0x00) s := by
  cases hdec : decode s.cfg p with
  | illegalCommand =>
    rw [takePacket_of_illegalCommand hdec, refuse_of_not_fault hmode] at h
    cases h
    exact .inr ⟨_, rfl⟩
  | badOperand =>
    rw [takePacket_of_badOperand hdec, refuse_of_not_fault hmode] at h
    cases h
    exact .inr ⟨_, rfl⟩
  | command i =>
    rw [takePacket_of_command hdec] at h
    rw [headD_of_decode_eq_command hdec]
    by_cases hacc : AcceptedIn i s.mode
    · cases (exec_of_acceptedIn hacc).symm.trans h
      exact (ruleOf_mode_ne_fault_or_faulted i hmode).imp_right fun ⟨cause, hfault, _⟩ => ⟨cause, hfault⟩
    · cases (exec_of_not_fault_of_not_acceptedIn hmode hacc).symm.trans h
      exact .inr ⟨.sequenceError, rfl⟩

/-- Settles O13: the step is a fault entry, and byte 0 of the packet is its FCMD. -/
theorem faultsArePrecise : Obligations.FaultsArePrecise := by
  intro s t p rest hin hmode hstep hfault
  rw [step_of_packet hin] at hstep
  have hcmd : (if p.length = 0 then 0x00 else p.headD 0x00) = p.headD 0x00 := by cases p <;> rfl
  obtain hne | ⟨cause, rfl⟩ := takePacket_mode_ne_fault_or_faulted (s := { s with inbox := rest }) hmode hstep
  · exact absurd hfault hne
  · exact ⟨cause, by rw [hcmd]; rfl⟩

/-! ### The mode table and the order of checks (R202, R204) -/

/-- An accepted command whose own condition holds is no SequenceError. -/
theorem exec_ne_sequenceError {i : Instr} {s : State} (hmode : s.mode ≠ .fault) (hacc : AcceptedIn i s.mode)
    (hct : i = .encBegin → s.ctValid = true) : exec i s ≠ .next (faulted 0x03 i.opc s) := by
  rw [exec_of_acceptedIn hacc]
  intro h
  injection h with h
  obtain hne | ⟨cause, hfault, hseq⟩ := ruleOf_mode_ne_fault_or_faulted i hmode
  · exact hne (congrArg State.mode h)
  · have hcode : cause.code = 0x03 := congrArg State.fcause (hfault.symm.trans h)
    have hcause : cause = .sequenceError := by revert hcode; cases cause <;> decide
    obtain ⟨rfl, hinvalid⟩ := hseq hcause
    exact absurd (hct rfl) (by simp [hinvalid])

/-- ENC_BEGIN without a valid Code Table (R140). -/
theorem exec_encBegin_of_ctValid_false {s : State} (hmode : s.mode = .idle) (hct : s.ctValid = false) :
    exec .encBegin s = .next (faulted 0x03 0x40 s) := by
  rw [exec_of_acceptedIn (i := .encBegin) hmode, ruleOf, if_pos hct]
  rfl

/-- DEC_BEGIN without a tree (R150). -/
theorem exec_decBegin_of_treePresent_false {s : State} (hmode : s.mode = .idle) (htree : s.treePresent = false) :
    exec .decBegin s = .next (faulted 0x06 0x50 s) := by
  rw [exec_of_acceptedIn (i := .decBegin) hmode, ruleOf, if_pos htree]
  rfl

/-- COUNT with TOTAL at its greatest value, a full table or not (R100). -/
theorem exec_count_of_total_eq {s : State} (sym : Symbol) (hmode : s.mode = .idle)
    (htotal : s.total = s.cfg.maxCount) : exec (.count sym) s = .next (faulted 0x05 0x10 s) := by
  rw [exec_of_acceptedIn (i := .count sym) hmode, ruleOf, if_pos htotal]
  rfl

/-- DEC_BIT of a character that is no digit, at a leaf or not (R151). -/
theorem exec_decBit_of_no_digit {s : State} {ch : Byte} (hmode : s.mode = .dec) (h0 : ch ≠ 0x30) (h1 : ch ≠ 0x31) :
    exec (.decBit ch) s = .next (faulted 0x22 0x51 s) := by
  have hdigit : digit ch = none := by rw [digit, if_neg h0, if_neg h1]
  rw [exec_of_acceptedIn (i := .decBit ch) hmode]
  simp only [ruleOf, hdigit]
  rfl

/-- Settles O12: one lemma per kind of entry of the table. -/
theorem modeTable : Obligations.ModeTable := by
  intro i s
  refine ⟨exec_of_not_fault_of_not_acceptedIn, exec_ne_sequenceError, ?encBegin, ?decBegin,
    exec_of_fault_of_not_acceptedIn, ?clear, ?rdsr⟩
  case encBegin => rintro hmode rfl hct; exact exec_encBegin_of_ctValid_false hmode hct
  case decBegin => rintro hmode rfl htree; exact exec_decBegin_of_treePresent_false hmode htree
  case clear => rintro - rfl; exact exec_clear s
  case rdsr =>
    rintro - r rfl hr
    obtain ⟨v, hv⟩ := exists_statusRegister s hr
    exact ⟨v, hv, exec_rdsr_of_register hv⟩

/-- Settles O8: the step takes the packet, and each clause is one check of the order. -/
theorem checksComeInOrder : Obligations.ChecksComeInOrder := by
  intro s u p rest hin hu
  have hstep : step s = takePacket p u := hu ▸ step_of_packet hin
  have hmode : s.mode = u.mode := hu ▸ rfl
  have hcfg : s.cfg = u.cfg := hu ▸ rfl
  have htotal : s.total = u.total := hu ▸ rfl
  have hfcause : s.fcause = u.fcause := hu ▸ rfl
  rw [hstep, hmode, hcfg, htotal, hfcause]
  refine ⟨?clear, ?rdsr, takePacket_of_fault, ?illegalCommand, ?badOperand, ?sequenceError, ?ownRule, ?countOverflow,
    ?badDigit⟩
  case clear => rintro - rfl; exact takePacket_clear u
  case rdsr => rintro - r rfl -; exact takePacket_rdsr r u
  case illegalCommand =>
    intro hmode hdec
    rw [takePacket_of_illegalCommand hdec, refuse_of_not_fault hmode]
    rfl
  case badOperand =>
    intro hmode hdec
    rw [takePacket_of_badOperand hdec, refuse_of_not_fault hmode]
    rfl
  case sequenceError =>
    intro hmode i hdec hacc
    rw [takePacket_of_command hdec, headD_of_decode_eq_command hdec]
    exact exec_of_not_fault_of_not_acceptedIn hmode hacc
  case ownRule => intro _ i hdec _; exact takePacket_of_command hdec
  case countOverflow =>
    intro hmode htotal sym hdec
    rw [takePacket_of_command hdec]
    exact exec_count_of_total_eq sym hmode htotal
  case badDigit =>
    rintro hmode ch rfl h0 h1
    have hdec : decode u.cfg [0x51, ch] = .command (.decBit ch) := rfl
    rw [takePacket_of_command hdec]
    exact exec_decBit_of_no_digit hmode h0 h1

end Sys2Proof.Machine

/-! ## Proofs: packets (R71 to R75) -/

namespace Sys2Proof

/-- A list of one byte is the byte it begins with. -/
theorem singleton_headD {bs : List Byte} (h : bs.length = 1) : [bs.headD 0] = bs := by
  obtain ⟨b, rfl⟩ := List.length_eq_one_iff.1 h
  rfl

/-- The operand of a well-formed command has a length its format allows (R71). -/
theorem fits_operand {c : Config} {i : Instr} (h : WellFormed c i = true) :
    i.op.row.format.fits c (i.operand c).length = true := by
  cases i with
  | rdnode n => exact beq_iff_eq.2 (beBytes_length _ _)
  | count s => exact h
  | rdcode s => exact h
  | encSym s => exact h
  | _ => rfl

/-- Assembling the operand of a well-formed command gives the command back (R73). -/
theorem assemble_operand {c : Config} {i : Instr} (h : WellFormed c i = true) :
    i.op.assemble (i.operand c) = i := by
  cases i with
  | rdnode n => exact congrArg Instr.rdnode (ofBytes_beBytes_of_lt (of_decide_eq_true h))
  | _ => rfl

@[simp] theorem assemble_op (op : Op) (operand : List Byte) : (op.assemble operand).op = op := by
  cases op <;> rfl

/-- What an operand of an allowed length assembles to is well formed (R71, R73). -/
theorem wellFormed_assemble {c : Config} {op : Op} {operand : List Byte}
    (h : op.row.format.fits c operand.length = true) : WellFormed c (op.assemble operand) = true := by
  cases op with
  | rdnode =>
    have hlen : operand.length = c.nodeB := beq_iff_eq.1 h
    exact decide_eq_true (hlen ▸ ofBytes_lt operand)
  | count => exact h
  | rdcode => exact h
  | encSym => exact h
  | _ => rfl

/-- The operand of what is assembled is the operand it was assembled from (R73). -/
theorem operand_assemble {c : Config} {op : Op} {operand : List Byte}
    (h : op.row.format.fits c operand.length = true) : (op.assemble operand).operand c = operand := by
  cases op with
  | rdnode =>
    have hlen : operand.length = c.nodeB := beq_iff_eq.1 h
    rw [Op.assemble, Instr.operand, ← hlen, beBytes_ofBytes]
  | rdsr => exact singleton_headD (beq_iff_eq.1 h)
  | decBit => exact singleton_headD (beq_iff_eq.1 h)
  | count => rfl
  | rdcode => rfl
  | encSym => rfl
  | _ => exact (List.eq_nil_of_length_eq_zero (beq_iff_eq.1 h)).symm

/-- Settles O1: the opcode byte finds the command's row, the operand fits it, and assembles to the command. -/
theorem encodedCommandsDecode : Obligations.EncodedCommandsDecode := by
  intro c i h
  rw [encode, Instr.opc, decode_row, if_pos (fits_operand h), assemble_operand h]

/-- Settles O2: a packet of a command is its opcode byte and an operand that fits, which the command gives back. -/
theorem eachPacketHasOneCommand : Obligations.EachPacketHasOneCommand := by
  intro c p i h
  obtain ⟨operand, rfl, hfits, hi⟩ := Machine.eq_cons_of_decode_eq_command h
  refine ⟨hi ▸ wellFormed_assemble hfits, ?_⟩
  rw [encode, ← operand_assemble hfits, ← hi]

/-! ### Packets that are no command (R74, R75) -/

/-- The bytes that begin no command are those outside the opcode map. -/
theorem opRow?_eq_none_iff (opc : Byte) :
    opRow? opc = none ↔
      opc ∉ [0x01, 0x02, 0x10, 0x11, 0x20, 0x21, 0x30, 0x31, 0x40, 0x41, 0x42, 0x50, 0x51, (0x52 : Byte)] := by
  simp only [opRow?, List.find?_eq_none]
  simp [opTable, Op.row, @eq_comm _ opc]

theorem decode_eq_illegalCommand_iff (c : Config) (opc : Byte) (operand : List Byte) :
    decode c (opc :: operand) = .illegalCommand ↔ opRow? opc = none := by
  rw [decode_cons]
  cases opRow? opc with
  | none => simp
  | some row => simp only [reduceCtorEq, iff_false]; split <;> simp

theorem decode_eq_badOperand_iff (c : Config) (opc : Byte) (operand : List Byte) :
    decode c (opc :: operand) = .badOperand ↔
      ∃ op : Op, op.row.opc = opc ∧ op.row.format.fits c operand.length = false := by
  constructor
  · intro h
    cases hrow : opRow? opc with
    | none => simp [decode_cons, hrow] at h
    | some row =>
      obtain ⟨hself, hopc⟩ := opRow?_eq_some hrow
      refine ⟨row.op, hself ▸ hopc, ?_⟩
      rw [← hself]
      simpa [decode_cons, hrow] using h
  · rintro ⟨op, rfl, hfits⟩
    rw [decode_row, hfits]
    rfl

theorem fits_z_eq_false_iff (c : Config) (len : Nat) : Format.z.fits c len = false ↔ len ≠ 0 := by simp [Format.fits]

theorem fits_b_eq_false_iff (c : Config) (len : Nat) : Format.b.fits c len = false ↔ len ≠ 1 := by simp [Format.fits]

theorem fits_n_eq_false_iff (c : Config) (len : Nat) : Format.n.fits c len = false ↔ len ≠ c.nodeB := by
  simp [Format.fits]

theorem fits_s_eq_false_iff (c : Config) (len : Nat) :
    Format.s.fits c len = false ↔ len < 1 ∨ c.symMaxBytes < len := by
  simp only [Format.fits, Bool.and_eq_false_iff, decide_eq_false_iff_not, not_le]

/-- Some row of the opcode map has a property when one of the 14 rows has it (R72). -/
theorem exists_op_iff (P : Op → Prop) :
    (∃ op, P op) ↔ P .clear ∨ P .rdsr ∨ P .count ∨ P .items ∨ P .build ∨ P .rdnode ∨ P .derive ∨ P .rdcode ∨
      P .encBegin ∨ P .encSym ∨ P .encEnd ∨ P .decBegin ∨ P .decBit ∨ P .decEnd := by
  constructor
  · rintro ⟨op, h⟩
    cases op <;> simp [h]
  · rintro (h | h | h | h | h | h | h | h | h | h | h | h | h | h) <;> exact ⟨_, h⟩

theorem exists_format_iff (P : Format → Prop) : (∃ f, P f) ↔ P .z ∨ P .b ∨ P .n ∨ P .s := by
  constructor
  · rintro ⟨f, h⟩
    cases f <;> simp [h]
  · rintro (h | h | h | h) <;> exact ⟨_, h⟩

/-- The packets that a row of the map names but whose operand its format does not allow, the rows grouped by format. -/
theorem exists_op_misfit_iff (c : Config) (opc : Byte) (len : Nat) :
    (∃ op : Op, op.row.opc = opc ∧ op.row.format.fits c len = false) ↔
      (opc ∈ [0x01, 0x11, 0x20, 0x30, 0x40, 0x42, 0x50, (0x52 : Byte)] ∧ len ≠ 0) ∨
        (opc ∈ [0x02, (0x51 : Byte)] ∧ len ≠ 1) ∨ (opc = 0x21 ∧ len ≠ c.nodeB) ∨
        (opc ∈ [0x10, 0x31, (0x41 : Byte)] ∧ (len < 1 ∨ c.symMaxBytes < len)) := by
  have hgroup : (∃ op : Op, op.row.opc = opc ∧ op.row.format.fits c len = false) ↔
      ∃ f : Format, (∃ op : Op, op.row.format = f ∧ op.row.opc = opc) ∧ f.fits c len = false :=
    ⟨fun ⟨op, hopc, hfits⟩ => ⟨_, ⟨op, rfl, hopc⟩, hfits⟩, fun ⟨_, ⟨op, hf, hopc⟩, hfits⟩ => ⟨op, hopc, hf ▸ hfits⟩⟩
  rw [hgroup, exists_format_iff]
  simp only [exists_op_iff, fits_z_eq_false_iff, fits_b_eq_false_iff, fits_n_eq_false_iff, fits_s_eq_false_iff]
  simp [Op.row, @eq_comm _ _ opc]

/-- Settles O3: IllegalCommand is a byte outside the map, BadOperand a row whose format the operand does not fit. -/
theorem malformedPacketsAreNamed : Obligations.MalformedPacketsAreNamed := by
  intro c p
  cases p with
  | nil => simp
  | cons opc operand =>
    rw [decode_eq_illegalCommand_iff, opRow?_eq_none_iff, decode_eq_badOperand_iff, exists_op_misfit_iff]
    simp only [reduceCtorEq, false_or, List.cons.injEq]
    constructor
    · exact ⟨fun h => ⟨_, _, ⟨rfl, rfl⟩, h⟩, fun ⟨_, _, ⟨hopc, _⟩, h⟩ => hopc ▸ h⟩
    · exact ⟨fun h => ⟨_, _, ⟨rfl, rfl⟩, h⟩, fun ⟨_, _, ⟨hopc, hrest⟩, h⟩ => hopc ▸ hrest ▸ h⟩

/-- Settles O4: each packet's byte 0 is looked up in the opcode map. -/
theorem writtenOutPacketsDecode : Obligations.WrittenOutPacketsDecode := by
  unfold Obligations.WrittenOutPacketsDecode
  decide

end Sys2Proof

namespace Sys2Proof.Machine

/-! ### The Symbol order (R12) -/

/-- Settles O5: by the bytes of both Symbols. The first difference is at byte 0, or at byte 0 of the rests. -/
theorem symbolOrderIsLexicographic : Obligations.SymbolOrderIsLexicographic := by
  intro s
  induction s with
  | nil => intro t; cases t <;> simp [symLt]
  | cons a s ih =>
    intro t
    cases t with
    | nil => simp
    | cons b t =>
      rw [symLt_cons, ← Nat.or_exists_add_one, ← Nat.and_forall_add_one, ih]
      by_cases hab : a = b
      · simp [hab]
      · simp [hab]

end Sys2Proof.Machine

/-! ## Proofs: the written form of commands (R79) -/

namespace Sys2Proof.Machine

/-! ### Words and spaces -/

@[simp] theorem skipSpaces_space (cs : List Char) : skipSpaces (' ' :: cs) = skipSpaces cs := by
  simp [skipSpaces]

theorem skipSpaces_of_ne {c : Char} (h : c ≠ ' ') (cs : List Char) : skipSpaces (c :: cs) = c :: cs := by
  simp [skipSpaces, h]

/-- Where a word may end: at the end of the line, at a space, at a comment. -/
def EndsWord (cs : List Char) : Prop := ∀ c ∈ cs.head?, c = ' ' ∨ c = ';'

theorem readWord_of_endsWord {cs : List Char} (h : EndsWord cs) : readWord cs = ([], cs) := by
  cases cs with
  | nil => rfl
  | cons c cs => rw [readWord, if_pos (h c rfl)]

/-- A run of characters that end no word is read as one word. -/
theorem readWord_append {word cs : List Char} (hword : ∀ c ∈ word, ¬ (c = ' ' ∨ c = ';')) (hcs : EndsWord cs) :
    readWord (word ++ cs) = (word, cs) := by
  induction word with
  | nil => exact readWord_of_endsWord hcs
  | cons c word ih =>
    rw [List.forall_mem_cons] at hword
    rw [List.cons_append, readWord, if_neg hword.1, ih hword.2]

/-! ### Mnemonics (R72) -/

/-- No mnemonic contains a space or a comment. -/
theorem mnemonic_endsNoWord (op : Op) : ∀ c ∈ mnemonic op, ¬ (c = ' ' ∨ c = ';') := by
  cases op <;> simp [mnemonic]

theorem skipSpaces_mnemonic_append (op : Op) (cs : List Char) :
    skipSpaces (mnemonic op ++ cs) = mnemonic op ++ cs := by
  cases op <;> simp [mnemonic, skipSpaces]

/-- Every mnemonic names its command. -/
theorem opOfName_mnemonic (op : Op) : opOfName (mnemonic op) = some op := by
  cases op <;> decide

/-- An operand begins with a space, or there is none. -/
theorem endsWord_writeOperand (i : Instr) : EndsWord (writeOperand i) := by
  cases i <;> simp [EndsWord, writeOperand]

/-! ### Hexadecimal -/

theorem hexVal_hexChar {n : Nat} (h : n < 16) : hexVal (hexChar n) = some n := by
  interval_cases n <;> decide

theorem readHex_hexByte_append (b : Byte) (cs : List Char) :
    readHex (hexByte b ++ cs) = (b :: (readHex cs).1, (readHex cs).2) := by
  have hlt : b.toNat < 256 := b.isLt
  have hbyte : BitVec.ofNat 8 (16 * (b.toNat / 16) + b.toNat % 16) = b := by
    rw [Nat.div_add_mod]; simp
  simp [hexByte, readHex, hexVal_hexChar (Nat.div_lt_of_lt_mul hlt : b.toNat / 16 < 16),
    hexVal_hexChar (Nat.mod_lt _ (by decide) : b.toNat % 16 < 16), hbyte]

/-- The bytes of a Symbol are read back, up to a closing character that is no pair. -/
theorem readHex_flatMap_append (s : Symbol) (c : Char) : readHex (s.flatMap hexByte ++ [c]) = (s, [c]) := by
  induction s with
  | nil => rfl
  | cons b s ih => rw [List.flatMap_cons, List.append_assoc, readHex_hexByte_append, ih]

theorem readSymbol_writeSymbol (s : Symbol) : readSymbol (writeSymbol s) = some (s, []) := by
  have hx : 'x' ≠ tick := by decide
  simp [writeSymbol, readSymbol, hx, readHex_flatMap_append]

/-! ### Decimal -/

/-- The decimal digit of a number below 10. -/
theorem decVal_digit {n : Nat} (h : n < 10) : decVal (Char.ofNat (48 + n)) = some n := by
  interval_cases n <;> decide

/-- A number is read back from its digits, before what is already written. -/
theorem readDecFrom_decFrom {k n : Nat} (hk : n < k) (cs : List Char) :
    readDecFrom 0 (decFrom k n cs) = readDecFrom n cs := by
  induction k generalizing n cs with
  | zero => exact absurd hk (Nat.not_lt_zero n)
  | succ k ih =>
    rw [decFrom]
    split_ifs with hn
    · simp [readDecFrom, decVal_digit hn]
    · rw [ih (by omega), readDecFrom]
      simp [decVal_digit (Nat.mod_lt n (by decide) : n % 10 < 10), Nat.div_add_mod]

/-- The first character written of a number is a digit. -/
theorem decFrom_begins_with_digit {k n : Nat} (hk : n < k) (cs : List Char) :
    ∃ d rest, d < 10 ∧ decFrom k n cs = Char.ofNat (48 + d) :: rest := by
  induction k generalizing n cs with
  | zero => exact absurd hk (Nat.not_lt_zero n)
  | succ k ih =>
    rw [decFrom]
    split_ifs with hn
    · exact ⟨n, cs, hn, rfl⟩
    · exact ih (by omega) _

theorem decChars_begins_with_digit (n : Nat) : ∃ d rest, d < 10 ∧ decChars n = Char.ofNat (48 + d) :: rest :=
  decFrom_begins_with_digit (Nat.lt_succ_self n) []

theorem digit_ne_space {d : Nat} (h : d < 10) : ¬ (Char.ofNat (48 + d) = ' ' ∨ Char.ofNat (48 + d) = ';') := by
  interval_cases d <;> decide

theorem skipSpaces_decChars (n : Nat) : skipSpaces (decChars n) = decChars n := by
  obtain ⟨d, rest, hd, heq⟩ := decChars_begins_with_digit n
  rw [heq, skipSpaces_of_ne fun h => digit_ne_space hd (.inl h)]

theorem readDec_decChars (n : Nat) : readDec (decChars n) = some (n, []) := by
  have hread : readDecFrom 0 (decChars n) = (n, []) := readDecFrom_decFrom (Nat.lt_succ_self n) []
  obtain ⟨d, rest, hd, heq⟩ := decChars_begins_with_digit n
  rw [heq] at hread ⊢
  simpa [readDec, readDecFrom, decVal_digit hd] using hread

/-! ### Register numbers -/

/-- No register has a name that begins with a digit. -/
theorem registerNames_begin_with_letter :
    ∀ name ∈ registerNames, ∀ d < 10, name.head? ≠ some (Char.ofNat (48 + d)) := by decide

/-- A number is not taken for a register name. -/
theorem registerName_of_decChars (n : Nat) :
    registerNames.findIdx? (fun name => name == (readWord (decChars n)).1) = none := by
  obtain ⟨d, rest, hd, heq⟩ := decChars_begins_with_digit n
  have hhead : (readWord (decChars n)).1.head? = some (Char.ofNat (48 + d)) := by
    rw [heq, readWord, if_neg (digit_ne_space hd)]
    rfl
  rw [List.findIdx?_eq_none_iff]
  intro name hname
  refine beq_eq_false_iff_ne.2 fun h => registerNames_begin_with_letter name hname d hd ?_
  rw [h, hhead]

theorem readRegister_decChars (r : Byte) : readRegister (decChars r.toNat) = some (r, []) := by
  simp [readRegister, registerName_of_decChars, readDec_decChars, r.isLt]

/-! ### Operands -/

/-- The digit of a character is the one whose character it is (R13). -/
theorem eq_chr_of_digit {c : Byte} {d : Digit} (h : digit c = some d) : c = chr d := by
  unfold digit at h
  split_ifs at h with h0 h1 <;> cases h
  · exact h0
  · exact h1

theorem readDigitOperand_writeDigitOperand (c : Byte) :
    readDigitOperand (writeDigitOperand c) = some (c, []) := by
  unfold writeDigitOperand
  cases hd : digit c with
  | none =>
    have hread : readHex (hexByte c) = ([c], []) := by simpa [readHex] using readHex_hexByte_append c []
    have hquote : '0' ≠ tick := by decide
    simp only [hexByte] at hread ⊢
    simp [readDigitOperand, hquote, hread]
  | some d =>
    rw [eq_chr_of_digit hd]
    cases d <;> rfl

theorem skipSpaces_writeDigitOperand (c : Byte) : skipSpaces (writeDigitOperand c) = writeDigitOperand c := by
  unfold writeDigitOperand
  split <;> exact skipSpaces_of_ne (by decide) _

theorem skipSpaces_writeSymbol (s : Symbol) : skipSpaces (writeSymbol s) = writeSymbol s :=
  skipSpaces_of_ne (by decide) _

/-- The operand of every command is read back, to the end of the line. -/
theorem readOperand_writeOperand (i : Instr) : readOperand i.op (writeOperand i) = some (i, []) := by
  cases i with
  | rdsr r => simp [Instr.op, readOperand, writeOperand, skipSpaces_decChars, readRegister_decChars]
  | rdnode n => simp [Instr.op, readOperand, writeOperand, skipSpaces_decChars, readDec_decChars]
  | count s => simp [Instr.op, readOperand, writeOperand, skipSpaces_writeSymbol, readSymbol_writeSymbol]
  | rdcode s => simp [Instr.op, readOperand, writeOperand, skipSpaces_writeSymbol, readSymbol_writeSymbol]
  | encSym s => simp [Instr.op, readOperand, writeOperand, skipSpaces_writeSymbol, readSymbol_writeSymbol]
  | decBit c =>
    simp [Instr.op, readOperand, writeOperand, skipSpaces_writeDigitOperand, readDigitOperand_writeDigitOperand]
  | _ => rfl

/-- Settles O6: the mnemonic is the first word, and the operand reads back. -/
theorem writtenCommandsReadBack : Obligations.WrittenCommandsReadBack := by
  intro i
  have hword : readWord (skipSpaces (writeCommand i)) = (mnemonic i.op, writeOperand i) := by
    rw [writeCommand, skipSpaces_mnemonic_append]
    exact readWord_append (mnemonic_endsNoWord _) (endsWord_writeOperand i)
  simp [readCommand, hword, opOfName_mnemonic, readOperand_writeOperand, lineEnds, skipSpaces]

end Sys2Proof.Machine

/-! ## Proofs: the commands, one lemma per outcome (R100 to R161) -/

namespace Sys2Proof.Machine

variable {s : State}

/-! ### The step (R56, R70, R237) -/

/-- Settles O7. -/
theorem stepRunsTheDecodedCommand : Obligations.StepRunsTheDecodedCommand := by
  intro s p rest i hin hdec
  rw [step_of_packet hin]
  exact takePacket_of_command hdec

theorem exec_ends (i : Instr) (s : State) : ∃ t, exec i s = .next t := ⟨_, exec_eq i s⟩

theorem takePacket_ends (p : Packet) (s : State) : ∃ t, takePacket p s = .next t := by
  unfold takePacket
  split
  · exact exec_ends _ s
  · exact ⟨_, rfl⟩
  · exact ⟨_, rfl⟩

theorem step_ends (s : State) : ∃ t, step s = .next t := by
  cases hin : s.inbox with
  | nil => exact ⟨s, step_of_empty hin⟩
  | cons e rest =>
    cases e with
    | packet p => rw [step_of_packet hin]; exact takePacket_ends p _
    | reset => exact ⟨_, step_of_reset hin⟩

/-- Settles O10: a packet ends as its command or its refusal does, and a reset or an empty queue at once. -/
theorem everyCommandEnds : Obligations.EveryCommandEnds :=
  ⟨step_ends, exec_ends, fun _ => step_of_empty⟩

/-! ### CLEAR, reset and RDSR (R160, R161, R230) -/

/-- Settles O17. -/
theorem clearWritesEverything : Obligations.ClearWritesEverything := exec_clear

/-- Settles O18: both clear everything, and only CLEAR answers. -/
theorem resetEvent : Obligations.ResetEvent := by
  intro s rest hin
  exact ⟨_, step_of_reset hin, exec_clear _, rfl⟩

/-- RDSR of a reserved number is BadOperand outside MODE = FAULT (R161). -/
theorem exec_rdsr_of_reserved {r : Byte} (hmode : s.mode ≠ .fault) (hr : 9 < r.toNat) :
    exec (.rdsr r) s = .next (faulted 0x02 0x02 s) := by
  rw [exec_of_acceptedIn (i := .rdsr r) trivial]
  simp only [ruleOf, statusRegister_of_reserved s hr, refuse_of_not_fault hmode]
  rfl

/-- The registers 1 to 9 in their order (R34). -/
theorem statusRegister_eq_getElem? (s : State) {n : Nat} (h1 : 1 ≤ n) (h9 : n ≤ 9) :
    statusRegister s n =
      [s.fcause.toNat, s.fcmd.toNat, s.nft, s.total, s.nleaf, s.nnode, s.root, s.cur, s.nct][n - 1]? := by
  interval_cases n <;> rfl

/-- Settles O20: the register is in the list of nine, and its eight bytes hold its low 64 bits. -/
theorem statusRegistersRead : Obligations.StatusRegistersRead := by
  intro s r
  refine ⟨fun v hv h1 => ?_, fun hr hmode => exec_rdsr_of_reserved hmode hr,
    fun hr hmode => exec_rdsr_of_fault_of_reserved hmode hr⟩
  have h9 : r.toNat ≤ 9 := by
    have := (List.getElem?_eq_some_iff.1 hv).1
    simp at this
    omega
  rw [← statusRegister_eq_getElem? s h1 h9] at hv
  exact ⟨beBytes 8 v, exec_rdsr_of_register hv, beBytes_length 8 v, ofBytes_beBytes 8 v⟩

/-! ### COUNT and ITEMS (R100, R101) -/

theorem exec_count_of_full {sym : Symbol} (hmode : s.mode = .idle) (htotal : s.total ≠ s.cfg.maxCount)
    (hnew : lookup s.ft sym = none) (hfull : s.nft = s.cfg.nMax) :
    exec (.count sym) s = .next (faulted 0x04 0x10 s) := by
  rw [exec_of_acceptedIn (i := .count sym) hmode, ruleOf, if_neg htotal, if_pos (by simp [hnew, hfull])]
  rfl

theorem exec_count_of_capacity {sym : Symbol} (hmode : s.mode = .idle) (htotal : s.total ≠ s.cfg.maxCount)
    (hroom : lookup s.ft sym = none → s.nft ≠ s.cfg.nMax) : exec (.count sym) s = .next (countSym sym s) := by
  have hfull : ¬ ((lookup s.ft sym).isNone ∧ s.nft = s.cfg.nMax) := by
    rw [Option.isNone_iff_eq_none]
    exact fun h => hroom h.1 h.2
  rw [exec_of_acceptedIn (i := .count sym) hmode, ruleOf, if_neg htotal, if_neg hfull]

/-- The writes of COUNT, for a known and for a new Symbol. -/
theorem countSym_eq (sym : Symbol) (s : State) :
    countSym sym s = { s with
      ft := store s.ft sym ((lookup s.ft sym).getD 0 + 1), total := s.total + 1
      nft := (if lookup s.ft sym = none then s.nft + 1 else s.nft)
      outbox := s.outbox ++ [0x00 :: beBytes s.cfg.freqB ((lookup s.ft sym).getD 0 + 1)] } := by
  unfold countSym
  cases lookup s.ft sym <;> rfl

/-- Settles O22: the write of COUNT, read back at every key. -/
theorem countAddsOne : Obligations.CountAddsOne := by
  intro s sym hmode htotal hroom
  refine ⟨store s.ft sym ((lookup s.ft sym).getD 0 + 1), ?_, lookup_store_same _ _ _,
    fun k hk => lookup_store_other _ _ hk, fun hsorted => sorted_store hsorted _ _⟩
  rw [exec_count_of_capacity hmode htotal hroom, countSym_eq]

/-- Settles O23. -/
theorem countCapacityFaults : Obligations.CountCapacityFaults := fun _ sym hmode =>
  ⟨exec_count_of_total_eq sym hmode, exec_count_of_full hmode⟩

theorem exec_items (hmode : s.mode ≠ .fault) :
    exec .items s = .next (answered (0x00 :: s.ft.flatMap (itemBytes s.cfg)) s) :=
  exec_of_acceptedIn (i := .items) hmode

/-- Settles O24: the items are the table itself, which is held in Symbol order. -/
theorem itemsReadsTheTableInOrder : Obligations.ItemsReadsTheTableInOrder := by
  intro s hmode hwf
  obtain ⟨hsorted, -, -⟩ := hwf
  exact ⟨s.ft, exec_items hmode, hsorted, fun k c => (lookup_eq_some_iff hsorted k c).symm⟩

/-! ### RDNODE and RDCODE (R121, R134) -/

theorem exec_rdnode_of_lt {n : Nat} (hmode : s.mode ≠ .fault) (h : n < s.nnode) :
    exec (.rdnode n) s = .next (answered (0x00 :: nodeBytes s.cfg (readNode s.node n)) s) := by
  rw [exec_of_acceptedIn (i := .rdnode n) hmode, ruleOf, if_neg (not_le.2 h)]
  rfl

/-- Settles O36: below NNODE the answer is the record, which NODE holds. -/
theorem rdnodeReadsOneRecord : Obligations.RdnodeReadsOneRecord := by
  intro s i hmode
  refine ⟨exec_rdnode_of_nnode_le hmode, fun hi sym f hnode => ?_, fun hi f l r hnode => ?_⟩ <;>
    rw [exec_rdnode_of_lt hmode hi, readNode_of_getElem? hnode] <;> rfl

theorem exec_rdcode_of_code {sym : Symbol} {code : Digits} (hmode : s.mode ≠ .fault)
    (h : lookup s.ct sym = some code) : exec (.rdcode sym) s = .next (answered (0x00 :: chars code) s) := by
  rw [exec_of_acceptedIn (i := .rdcode sym) hmode]
  simp only [ruleOf, h]
  rfl

theorem exec_rdcode_of_none {sym : Symbol} (hmode : s.mode ≠ .fault) (h : lookup s.ct sym = none) :
    exec (.rdcode sym) s = .next (answered [0x01] s) := by
  rw [exec_of_acceptedIn (i := .rdcode sym) hmode]
  simp only [ruleOf, h]
  rfl

/-- The characters of a code, digit by digit (R13). -/
theorem chars_eq_map (code : Digits) :
    chars code = code.map (fun d => match d with | .zero => 0x30 | .one => 0x31) :=
  List.map_congr_left fun d _ => by cases d <;> rfl

/-- Settles O39. -/
theorem rdcodeReadsOneCode : Obligations.RdcodeReadsOneCode := fun _ _ hmode =>
  ⟨fun code h => chars_eq_map code ▸ exec_rdcode_of_code hmode h, exec_rdcode_of_none hmode⟩

/-- The status registers do not depend on the responses sent. -/
theorem statusRegister_answered (p : Packet) (s : State) (n : Nat) :
    statusRegister (answered p s) n = statusRegister s n := by
  unfold statusRegister
  split <;> rfl

/-- Settles O50: each read-out is one answer to the state, which the answer before leaves as it was. -/
theorem readOutsChangeNothing : Obligations.ReadOutsChangeNothing := by
  rintro i s (⟨rfl | ⟨n, rfl⟩ | ⟨x, rfl⟩, hmode⟩ | ⟨r, rfl, hr⟩)
  · exact ⟨_, exec_items hmode, exec_items (s := answered _ s) hmode⟩
  · by_cases hn : n < s.nnode
    · exact ⟨_, exec_rdnode_of_lt hmode hn, exec_rdnode_of_lt (s := answered _ s) hmode hn⟩
    · have hle := not_lt.1 hn
      exact ⟨_, exec_rdnode_of_nnode_le hmode hle, exec_rdnode_of_nnode_le (s := answered _ s) hmode hle⟩
  · cases hcode : lookup s.ct x with
    | none => exact ⟨_, exec_rdcode_of_none hmode hcode, exec_rdcode_of_none (s := answered _ s) hmode hcode⟩
    | some code => exact ⟨_, exec_rdcode_of_code hmode hcode, exec_rdcode_of_code (s := answered _ s) hmode hcode⟩
  · obtain ⟨v, hv⟩ := exists_statusRegister s hr
    exact ⟨_, exec_rdsr_of_register hv, exec_rdsr_of_register ((statusRegister_answered _ _ _).trans hv)⟩

/-! ### The Encoder (R140 to R142) -/

theorem exec_encBegin (hmode : s.mode = .idle) (hct : s.ctValid = true) :
    exec .encBegin s = .next { s with ebuf := [], mode := .enc, outbox := s.outbox ++ [[0x00]] } := by
  rw [exec_of_acceptedIn (i := .encBegin) hmode, ruleOf, if_neg (by simp [hct])]
  rfl

theorem exec_encSym_of_code {sym : Symbol} {code : Digits} (hmode : s.mode = .enc) (h : lookup s.ct sym = some code) :
    exec (.encSym sym) s =
      .next { s with ebuf := s.ebuf ++ code, outbox := s.outbox ++ [0x00 :: chars code] } := by
  rw [exec_of_acceptedIn (i := .encSym sym) hmode]
  simp only [ruleOf, h]
  rfl

theorem exec_encSym_of_none {sym : Symbol} (hmode : s.mode = .enc) (h : lookup s.ct sym = none) :
    exec (.encSym sym) s = .next (faulted 0x10 0x41 s) := by
  rw [exec_of_acceptedIn (i := .encSym sym) hmode]
  simp only [ruleOf, h]
  rfl

theorem exec_encEnd (hmode : s.mode = .enc) :
    exec .encEnd s = .next { s with
      ct := [], nct := 0, ctValid := false, mode := .idle
      outbox := s.outbox ++ [if s.nct = 0 then [0x01] else [0x00]] } := by
  rw [exec_of_acceptedIn (i := .encEnd) hmode, ruleOf]
  split_ifs <;> rfl

/-- Settles O40. -/
theorem encoderCommands : Obligations.EncoderCommands := fun _ =>
  ⟨exec_encBegin, fun hmode _ code h => chars_eq_map code ▸ exec_encSym_of_code hmode h, exec_encEnd⟩

/-- Settles O41. -/
theorem unknownSymbolIsLookupFailure : Obligations.UnknownSymbolIsLookupFailure := fun _ _ => exec_encSym_of_none

/-! ### The Decoder (R150 to R152) -/

theorem exec_decBegin (hmode : s.mode = .idle) (htree : s.treePresent = true) :
    exec .decBegin s =
      .next { s with cur := s.root, dbuf := [], mode := .dec, outbox := s.outbox ++ [[0x00]] } := by
  rw [exec_of_acceptedIn (i := .decBegin) hmode, ruleOf, if_neg (by simp [htree])]
  rfl

theorem exec_decEnd_at_root (hmode : s.mode = .dec) (hcur : s.cur = s.root) :
    exec .decEnd s = .next { s with mode := .idle, outbox := s.outbox ++ [[0x00]] } := by
  rw [exec_of_acceptedIn (i := .decEnd) hmode, ruleOf, if_neg (not_not.2 hcur)]
  rfl

theorem exec_decEnd_away (hmode : s.mode = .dec) (hcur : s.cur ≠ s.root) :
    exec .decEnd s = .next (faulted 0x21 0x52 s) := by
  rw [exec_of_acceptedIn (i := .decEnd) hmode, ruleOf, if_pos hcur]
  rfl

/-- Settles O43. -/
theorem decodeSessionCommands : Obligations.DecodeSessionCommands := fun _ =>
  ⟨exec_decBegin, exec_decEnd_at_root, exec_decEnd_away⟩

@[simp] theorem digit_chr (d : Digit) : digit (chr d) = some d := by cases d <;> rfl

/-- The two characters of digits (R13). -/
theorem exists_chr_iff (c : Byte) : (∃ d, c = chr d) ↔ c = 0x30 ∨ c = 0x31 := by
  constructor
  · rintro ⟨_ | _, rfl⟩ <;> simp [chr]
  · rintro (rfl | rfl)
    · exact ⟨.zero, rfl⟩
    · exact ⟨.one, rfl⟩

/-- A digit at an Internal record arrives at the child it leads to. -/
theorem exec_decBit_of_internal {d : Digit} {f l r : Nat} (hmode : s.mode = .dec)
    (hcur : s.node[s.cur]? = some (.internal f l r)) :
    exec (.decBit (chr d)) s = .next (arrive (child d l r) s) := by
  rw [exec_of_acceptedIn (i := .decBit (chr d)) hmode]
  simp only [ruleOf, digit_chr, readNode_of_getElem? hcur]

/-- A digit at a Leaf is LeafTransition. -/
theorem exec_decBit_of_leaf {d : Digit} {sym : Symbol} {f : Nat} (hmode : s.mode = .dec)
    (hcur : s.node[s.cur]? = some (.leaf sym f)) :
    exec (.decBit (chr d)) s = .next (faulted 0x20 0x51 s) := by
  rw [exec_of_acceptedIn (i := .decBit (chr d)) hmode]
  simp only [ruleOf, digit_chr, readNode_of_getElem? hcur]
  rfl

theorem arrive_of_leaf {nxt f : Nat} {sym : Symbol} (h : s.node[nxt]? = some (.leaf sym f)) :
    arrive nxt s = { s with dbuf := s.dbuf ++ [sym], cur := s.root, outbox := s.outbox ++ [0x00 :: sym] } := by
  simp only [arrive, readNode_of_getElem? h]
  rfl

theorem arrive_of_internal {nxt f l r : Nat} (h : s.node[nxt]? = some (.internal f l r)) :
    arrive nxt s = { s with cur := nxt, outbox := s.outbox ++ [[0x00]] } := by
  simp only [arrive, readNode_of_getElem? h]
  rfl

/-- Settles O44: the character is a digit's, and the arrival depends on the record of the child. -/
theorem decBitMoves : Obligations.DecBitMoves := by
  intro s f l r nxt c hmode hcur hc
  obtain ⟨d, rfl, rfl⟩ : ∃ d, c = chr d ∧ nxt = child d l r := by
    obtain ⟨rfl, rfl⟩ | ⟨rfl, rfl⟩ := hc
    · exact ⟨.zero, rfl, rfl⟩
    · exact ⟨.one, rfl, rfl⟩
  rw [exec_decBit_of_internal hmode hcur]
  exact ⟨fun sym g h => by rw [arrive_of_leaf h], fun g a b h => by rw [arrive_of_internal h]⟩

/-- Settles O45. -/
theorem decBitFaults : Obligations.DecBitFaults := by
  intro s c hmode
  refine ⟨exec_decBit_of_no_digit hmode, fun sym f hcur hc => ?_⟩
  obtain ⟨d, rfl⟩ := (exists_chr_iff c).2 hc
  exact exec_decBit_of_leaf hmode hcur

/-! ### BUILD and DERIVE (R110, R130) -/

theorem exec_derive (hmode : s.mode = .idle) :
    exec .derive s = .next { s with
      ct := derivedTable s, nct := (derivedTable s).length, ctValid := true
      outbox := s.outbox ++ [0x00 :: beBytes s.cfg.nodeB (derivedTable s).length] } :=
  exec_of_acceptedIn (i := .derive) hmode

/-- BUILD of a table with entries. -/
theorem exec_build (hmode : s.mode = .idle) (hnft : s.nft ≠ 0) :
    exec .build s = .next { s with
      node := (buildWork s.cfg.mergeSlot s.ft).nodes, treePresent := true
      root := rootOf (buildWork s.cfg.mergeSlot s.ft), nleaf := s.nft
      nnode := (buildWork s.cfg.mergeSlot s.ft).nodes.length
      ft := [], nft := 0, total := 0, ct := [], nct := 0, ctValid := false
      outbox := s.outbox ++ [0x00 :: beBytes s.cfg.nodeB (rootOf (buildWork s.cfg.mergeSlot s.ft))] } := by
  have hpos : decide (1 ≤ s.nft) = true := by simp; omega
  rw [exec_of_acceptedIn (i := .build) hmode, ruleOf, if_neg hnft, hpos]
  rfl

/-- Settles O35: BUILD takes its records and registers from the items, NFT and MERGE_SLOT alone. -/
theorem treeDependsOnItemsOnly : Obligations.TreeDependsOnItemsOnly := by
  intro s s' t t' hmode hmode' hft hnft hms h h'
  cases (exec_of_acceptedIn (i := .build) hmode).symm.trans h
  cases (exec_of_acceptedIn (i := .build) hmode').symm.trans h'
  simp only [ruleOf, respond_node, respond_root, respond_nleaf, respond_nnode, respond_treePresent, hft, hnft, hms,
    and_self]

end Sys2Proof.Machine

/-! ## Proofs: what every command answers and what it leaves unchanged (R40, R56, R77, R208) -/

namespace Sys2Proof.Machine

variable {s : State} {i : Instr}

/-! ### Answers (R77, R208) -/

/-- What the one response of a command or a packet can be: OK, an ABSENT that is no fault, or a fault. -/
inductive Answer (s t : State) : Prop
  | ok (payload : List Byte) (h : t.outbox = s.outbox ++ [0x00 :: payload])
  | absent (h : t.outbox = s.outbox ++ [[0x01]]) (hbefore : s.mode ≠ .fault) (hafter : t.mode ≠ .fault)
      (hcause : t.fcause = s.fcause) (hcmd : t.fcmd = s.fcmd)
  | fault (h : t.outbox = s.outbox ++ [[0xFF, t.fcause]]) (hafter : t.mode = .fault)

theorem answer_faulted (cause cmd : Byte) (s : State) : Answer s (faulted cause cmd s) := .fault rfl rfl

theorem answer_refuse (cause : Cause) (cmd : Byte) (s : State) : Answer s (refuse cause cmd s) := by
  obtain ⟨hout, hmode, -, -⟩ := refuse_facts cause cmd s
  exact .fault hout hmode

theorem answer_absent (h : s.mode ≠ .fault) : Answer s (respond .absent s) := .absent rfl h h rfl rfl

theorem answer_ruleOf (hacc : AcceptedIn i s.mode) : Answer s (ruleOf i s) := by
  cases i with
  | clear => exact .ok _ rfl
  | rdsr r =>
    simp only [ruleOf]
    split
    · exact answer_refuse _ _ s
    · exact .ok _ rfl
  | count sym =>
    simp only [ruleOf]
    split_ifs
    · exact answer_faulted _ _ s
    · exact answer_faulted _ _ s
    · rw [countSym_eq]; exact .ok _ rfl
  | items => exact .ok _ rfl
  | build =>
    have hmode : s.mode ≠ .fault := by rw [show s.mode = .idle from hacc]; decide
    simp only [ruleOf]
    split_ifs
    · exact .absent rfl hmode hmode rfl rfl
    · exact .ok _ rfl
  | rdnode n =>
    simp only [ruleOf]
    split_ifs
    · exact answer_absent hacc
    · exact .ok _ rfl
  | derive => exact .ok _ rfl
  | rdcode sym =>
    simp only [ruleOf]
    split
    · exact .ok _ rfl
    · exact answer_absent hacc
  | encBegin =>
    simp only [ruleOf]
    split_ifs
    · exact answer_faulted _ _ s
    · exact .ok _ rfl
  | encSym sym =>
    simp only [ruleOf]
    split
    · exact answer_faulted _ _ s
    · exact .ok _ rfl
  | encEnd =>
    have hmode : s.mode ≠ .fault := by rw [show s.mode = .enc from hacc]; decide
    simp only [ruleOf]
    split_ifs
    · exact .absent rfl hmode (by simp) rfl rfl
    · exact .ok _ rfl
  | decBegin =>
    simp only [ruleOf]
    split_ifs
    · exact answer_faulted _ _ s
    · exact .ok _ rfl
  | decBit c =>
    simp only [ruleOf]
    split
    · exact answer_faulted _ _ s
    · split
      · exact answer_faulted _ _ s
      · unfold arrive
        split <;> exact .ok _ rfl
  | decEnd =>
    simp only [ruleOf]
    split_ifs
    · exact answer_faulted _ _ s
    · exact .ok _ rfl

/-- Every command gives one answer, in every mode. -/
theorem answer_exec {t : State} (h : exec i s = .next t) : Answer s t := by
  by_cases hacc : AcceptedIn i s.mode
  · cases (exec_of_acceptedIn hacc).symm.trans h
    exact answer_ruleOf hacc
  · cases (exec_of_not_acceptedIn hacc).symm.trans h
    exact answer_refuse _ _ s

/-- Settles O15: of the answers only the ABSENT one is `01`. -/
theorem absenceIsNoFault : Obligations.AbsenceIsNoFault := by
  intro i s t hexec hout
  cases answer_exec hexec with
  | ok payload h => simp [h] at hout
  | absent _ hbefore hafter hcause hcmd => exact ⟨hbefore, hafter, hcause, hcmd⟩
  | fault h => simp [h] at hout

/-! ### Frames (R40, R49) -/

/-- NODE and the tree registers are the same. -/
@[simp] def SameTree (s t : State) : Prop :=
  t.node = s.node ∧ t.treePresent = s.treePresent ∧ t.root = s.root ∧ t.nleaf = s.nleaf ∧ t.nnode = s.nnode

/-- The Frequency Table and its registers are the same. -/
@[simp] def SameTable (s t : State) : Prop := t.ft = s.ft ∧ t.nft = s.nft ∧ t.total = s.total

/-- The Code Table and its registers are the same. -/
@[simp] def SameCodes (s t : State) : Prop := t.ct = s.ct ∧ t.nct = s.nct ∧ t.ctValid = s.ctValid

/-- How MODE can move in a command other than CLEAR: not at all, to FAULT, or in or out of a session (R36). -/
@[simp] def ModeMoves (i : Instr) (m m' : Mode) : Prop :=
  m' = m ∨ m' = .fault ∨ i = .clear ∨
    (i = .encBegin ∧ m = .idle ∧ m' = .enc) ∨ (i = .encEnd ∧ m = .enc ∧ m' = .idle) ∨
    (i = .decBegin ∧ m = .idle ∧ m' = .dec) ∨ (i = .decEnd ∧ m = .dec ∧ m' = .idle)

/-- What a command may change, element by element. -/
structure Frame (i : Instr) (s t : State) : Prop where
  tree : i ≠ .build → i ≠ .clear → SameTree s t
  table : (∀ x, i ≠ .count x) → i ≠ .build → i ≠ .clear → SameTable s t
  codes : i ≠ .derive → i ≠ .build → i ≠ .encEnd → i ≠ .clear → SameCodes s t
  cfg : t.cfg = s.cfg
  inbox : t.inbox = s.inbox
  walk : i ≠ .decBegin → (∀ c, i ≠ .decBit c) → i ≠ .clear → t.cur = s.cur ∧ t.dbuf = s.dbuf
  ebuf : i ≠ .encBegin → (∀ x, i ≠ .encSym x) → i ≠ .clear → t.ebuf = s.ebuf
  faultRegisters : t.mode ≠ .fault → i ≠ .clear → t.fcause = s.fcause ∧ t.fcmd = s.fcmd
  mode : ModeMoves i s.mode t.mode

theorem frame_answered (i : Instr) (p : Packet) (s : State) : Frame i s (answered p s) := by
  constructor <;> simp

theorem frame_faulted (i : Instr) (cause cmd : Byte) (s : State) : Frame i s (faulted cause cmd s) := by
  constructor <;> simp

theorem frame_refuse (i : Instr) (cause : Cause) (cmd : Byte) (s : State) : Frame i s (refuse cause cmd s) := by
  by_cases h : s.mode = .fault
  · rw [refuse_of_fault h]; exact frame_answered i _ s
  · rw [refuse_of_not_fault h]; exact frame_faulted i _ _ s

theorem frame_arrive (c : Byte) (nxt : Nat) (s : State) : Frame (.decBit c) s (arrive nxt s) := by
  unfold arrive
  split <;> constructor <;> simp

theorem frame_ruleOf (hacc : AcceptedIn i s.mode) : Frame i s (ruleOf i s) := by
  cases i with
  | clear => constructor <;> simp [ruleOf]
  | rdsr r =>
    simp only [ruleOf]
    split
    · exact frame_refuse _ _ _ s
    · exact frame_answered _ _ s
  | count sym =>
    simp only [ruleOf]
    split_ifs
    · exact frame_faulted _ _ _ s
    · exact frame_faulted _ _ _ s
    · rw [countSym_eq]
      constructor <;> simp
  | items => exact frame_answered _ _ s
  | build => constructor <;> simp [ruleOf]
  | rdnode n =>
    simp only [ruleOf]
    split_ifs <;> exact frame_answered _ _ s
  | derive => constructor <;> simp [ruleOf]
  | rdcode sym =>
    simp only [ruleOf]
    split <;> exact frame_answered _ _ s
  | encBegin =>
    have hmode : s.mode = .idle := hacc
    simp only [ruleOf]
    split_ifs
    · exact frame_faulted _ _ _ s
    · constructor <;> simp [hmode]
  | encSym sym =>
    simp only [ruleOf]
    split
    · exact frame_faulted _ _ _ s
    · constructor <;> simp
  | encEnd =>
    have hmode : s.mode = .enc := hacc
    constructor <;> simp [ruleOf, hmode]
  | decBegin =>
    have hmode : s.mode = .idle := hacc
    simp only [ruleOf]
    split_ifs
    · exact frame_faulted _ _ _ s
    · constructor <;> simp [hmode]
  | decBit c =>
    simp only [ruleOf]
    split
    · exact frame_faulted _ _ _ s
    · split
      · exact frame_faulted _ _ _ s
      · exact frame_arrive c _ s
  | decEnd =>
    have hmode : s.mode = .dec := hacc
    simp only [ruleOf]
    split_ifs
    · exact frame_faulted _ _ _ s
    · constructor <;> simp [hmode]

/-- Every command keeps to its frame, in every mode. -/
theorem frame_exec {t : State} (h : exec i s = .next t) : Frame i s t := by
  by_cases hacc : AcceptedIn i s.mode
  · cases (exec_of_acceptedIn hacc).symm.trans h
    exact frame_ruleOf hacc
  · cases (exec_of_not_acceptedIn hacc).symm.trans h
    exact frame_refuse _ _ _ s

/-- Settles O48. -/
theorem storesHaveTheirWriters : Obligations.StoresHaveTheirWriters := fun _ _ _ hexec =>
  have h := frame_exec hexec
  ⟨h.tree, h.table, h.codes, h.cfg, h.inbox⟩

/-- Settles O49. -/
theorem sessionsHaveTheirWriters : Obligations.SessionsHaveTheirWriters := fun _ _ _ hexec =>
  have h := frame_exec hexec
  ⟨h.walk, h.ebuf, h.faultRegisters, h.mode⟩

/-! ### Packets, one at a time (R56, R70) -/

/-- A packet gives one answer and touches neither the parameters nor the waiting events. -/
theorem takePacket_answers {p : Packet} {t : State} (h : takePacket p s = .next t) :
    Answer s t ∧ t.inbox = s.inbox ∧ t.cfg = s.cfg := by
  have hrefuse (cause : Cause) (cmd : Byte) :
      Answer s (refuse cause cmd s) ∧ (refuse cause cmd s).inbox = s.inbox ∧ (refuse cause cmd s).cfg = s.cfg :=
    ⟨answer_refuse cause cmd s, (refuse_facts cause cmd s).2.2⟩
  cases hdec : decode s.cfg p with
  | command i =>
    rw [takePacket_of_command hdec] at h
    exact ⟨answer_exec h, (frame_exec h).inbox, (frame_exec h).cfg⟩
  | illegalCommand =>
    cases (takePacket_of_illegalCommand hdec).symm.trans h
    exact hrefuse _ _
  | badOperand =>
    cases (takePacket_of_badOperand hdec).symm.trans h
    exact hrefuse _ _

/-- Settles O9: the step takes the packet, which gives one answer. -/
theorem oneResponsePerPacket : Obligations.OneResponsePerPacket := by
  intro s p rest hin
  obtain ⟨t, ht⟩ := takePacket_ends p { s with inbox := rest }
  obtain ⟨hanswer, hinbox, hcfg⟩ := takePacket_answers ht
  rw [step_of_packet hin]
  cases hanswer with
  | ok payload h => exact ⟨t, _, ht, hinbox, h, hcfg, .inl ⟨payload, rfl⟩⟩
  | absent h => exact ⟨t, _, ht, hinbox, h, hcfg, .inr (.inl rfl)⟩
  | fault h hafter => exact ⟨t, _, ht, hinbox, h, hcfg, .inr (.inr ⟨rfl, hafter⟩)⟩

/-- A waiting packet of a well-formed command is executed as that command. -/
theorem step_of_encoded {t : State} {rest : List HostEvent} (hi : WellFormed s.cfg i = true)
    (ht : exec i { s with inbox := rest } = .next t) :
    step { s with inbox := .packet (encode s.cfg i) :: rest } = .next t :=
  (takePacket_of_command (s := { s with inbox := rest }) (encodedCommandsDecode s.cfg i hi)).trans ht

/-- One step of a run that ends in a next state. -/
theorem run_succ_of_step (M : Host.Core) {s t : M.State} (h : M.step s = .next t) (k : Nat) :
    M.run (k + 1) s = M.run k t := by
  rw [Host.Core.run, h]

theorem core_run_succ {t : State} (h : step s = .next t) (k : Nat) : core.run (k + 1) s = core.run k t :=
  run_succ_of_step core h k

/-- Settles O11: by the list of commands. The first packet is taken, and its command neither reads nor writes the
queue. -/
theorem packetsTakeEffectInArrivalOrder : Obligations.PacketsTakeEffectInArrivalOrder := by
  intro is
  induction is with
  | nil => intro s q _; rfl
  | cons i is ih =>
    intro s q hwf
    rw [List.forall_mem_cons] at hwf
    obtain ⟨hi, his⟩ := hwf
    obtain ⟨t, ht⟩ := exec_ends i s
    have hcfg : t.cfg = s.cfg := (frame_exec ht).cfg
    have hrest : is.map (fun i => HostEvent.packet (encode t.cfg i)) =
        is.map (fun i => HostEvent.packet (encode s.cfg i)) := by rw [hcfg]
    rw [execAll_cons (exec_inbox q ht), ← ih t q (hcfg ▸ his), hrest]
    exact core_run_succ (step_of_encoded hi (exec_inbox _ ht)) is.length

end Sys2Proof.Machine

/-! ## Proofs: counting (R22, R100, R102, R170) -/

namespace Sys2Proof.Machine

variable {s t : State}

/-! ### Sums and sizes of a store -/

/-- A write of one more than the count adds one to the sum of the counts. -/
theorem sum_store_add_one (m : List (Symbol × Nat)) (hm : Sorted m) (sym : Symbol) :
    ((store m sym ((lookup m sym).getD 0 + 1)).map Prod.snd).sum = (m.map Prod.snd).sum + 1 := by
  induction m with
  | nil => rfl
  | cons e m ih =>
    obtain ⟨k, c⟩ := e
    obtain ⟨hk, hm⟩ := List.pairwise_cons.1 hm
    by_cases hks : k = sym
    · simp [store, lookup, hks]
      omega
    · simp only [store, lookup, hks, if_false]
      split_ifs with hlt
      · have hnone : lookup m sym = none := by
          by_contra h
          obtain ⟨v, hv⟩ := Option.ne_none_iff_exists'.1 h
          have := hk _ ((lookup_eq_some_iff hm sym v).1 hv)
          simp [symLt_asymm hlt] at this
        simp [hnone]
        omega
      · simp [ih hm]
        omega

/-- In a canonical store with a bounded number of keys: the keys are determined by what reads as an entry. -/
theorem length_eq_card_of_lookup {α : Type} {m : List (Symbol × α)} (hm : Sorted m) (keys : Finset Symbol)
    (h : ∀ k, lookup m k ≠ none ↔ k ∈ keys) : m.length = keys.card := by
  have hnodup : (m.map Prod.fst).Nodup := by
    rw [List.Nodup, List.pairwise_map]
    exact hm.imp symLt_ne
  have hkeys : keys = (m.map Prod.fst).toFinset := by
    ext k
    rw [← h k, Ne, lookup_eq_none_iff]
    simp
  rw [hkeys, List.toFinset_card_of_nodup hnodup, List.length_map]

/-! ### One COUNT -/

/-- What COUNT does when it does not fault. -/
structure Counted (sym : Symbol) (s t : State) : Prop where
  eq : t = countSym sym s
  mode : s.mode = .idle
  total : s.total ≠ s.cfg.maxCount
  room : lookup s.ft sym = none → s.nft ≠ s.cfg.nMax

/-- COUNT counts, or it ends in MODE = FAULT and leaves the table. -/
theorem counted_or_fault {sym : Symbol} (h : exec (.count sym) s = .next t) :
    Counted sym s t ∨ (t.mode = .fault ∧ SameTable s t) := by
  by_cases hmode : s.mode = .idle
  · by_cases htotal : s.total = s.cfg.maxCount
    · cases (exec_count_of_total_eq sym hmode htotal).symm.trans h
      exact .inr ⟨rfl, by simp⟩
    · by_cases hfull : lookup s.ft sym = none ∧ s.nft = s.cfg.nMax
      · cases (exec_count_of_full hmode htotal hfull.1 hfull.2).symm.trans h
        exact .inr ⟨rfl, by simp⟩
      · have hroom : lookup s.ft sym = none → s.nft ≠ s.cfg.nMax := fun h1 h2 => hfull ⟨h1, h2⟩
        cases (exec_count_of_capacity hmode htotal hroom).symm.trans h
        exact .inl ⟨rfl, hmode, htotal, hroom⟩
  · cases (exec_of_not_acceptedIn (i := .count sym) hmode).symm.trans h
    exact .inr ⟨(refuse_facts _ _ s).2.1, (frame_refuse .items _ _ s).table nofun nofun nofun⟩

/-- What COUNT leaves at any key. -/
theorem Counted.lookup_eq {sym : Symbol} (h : Counted sym s t) (k : Symbol) :
    lookup t.ft k = if k = sym then some ((lookup s.ft sym).getD 0 + 1) else lookup s.ft k := by
  rw [h.eq, countSym_eq]
  exact lookup_store _ _ _ _

theorem Counted.sorted {sym : Symbol} (h : Counted sym s t) (hs : Sorted s.ft) : Sorted t.ft := by
  rw [h.eq, countSym_eq]
  exact sorted_store hs _ _

/-- NFT and the number of entries grow together. -/
theorem Counted.nft_add_length {sym : Symbol} (h : Counted sym s t) (hs : Sorted s.ft) :
    t.nft + s.ft.length = s.nft + t.ft.length := by
  simp only [h.eq, countSym_eq, length_store _ _ _ hs]
  split_ifs <;> omega

theorem Counted.total_eq {sym : Symbol} (h : Counted sym s t) : t.total = s.total + 1 := by
  rw [h.eq, countSym_eq]

/-! ### Streams -/

/-- In MODE = FAULT a sequence of commands that are not performed there gets as many standing faults. -/
theorem execAll_of_fault {is : List Instr} (hmode : s.mode = .fault) (his : ∀ i ∈ is, ¬ AcceptedIn i .fault) :
    execAll is s = .next { s with outbox := s.outbox ++ List.replicate is.length [0xFF, s.fcause] } := by
  induction is generalizing s with
  | nil => simp
  | cons i is ih =>
    rw [List.forall_mem_cons] at his
    rw [execAll_cons (exec_of_fault_of_not_acceptedIn hmode (hmode ▸ his.1)), ih (s := answered _ s) hmode his.2]
    simp [answered, List.replicate_succ]

/-- What counting a stream leaves in the table (R102). -/
structure CountedAll (w : List Symbol) (s t : State) : Prop where
  sorted : Sorted t.ft
  total : t.total = s.total + w.length
  nft : t.nft + s.ft.length = s.nft + t.ft.length
  lookup : ∀ k, lookup t.ft k = if k ∈ w then some ((lookup s.ft k).getD 0 + w.count k) else lookup s.ft k

theorem CountedAll.nil (hs : Sorted s.ft) : CountedAll [] s s := ⟨hs, rfl, rfl, fun _ => rfl⟩

theorem CountedAll.cons {x : Symbol} {w : List Symbol} {u : State} (hx : Counted x s u) (hs : Sorted s.ft)
    (hw : CountedAll w u t) : CountedAll (x :: w) s t where
  sorted := hw.sorted
  total := by rw [hw.total, hx.total_eq, List.length_cons]; omega
  nft := by
    have h1 := hx.nft_add_length hs
    have h2 := hw.nft
    omega
  lookup k := by
    rw [hw.lookup, hx.lookup_eq]
    by_cases hk : k = x
    · subst hk
      by_cases hkw : k ∈ w
      · simp [hkw]; omega
      · simp [hkw, List.count_eq_zero_of_not_mem hkw]
    · by_cases hkw : k ∈ w <;> simp [hk, hkw, Ne.symm hk]

/-- A stream counted to the end without a fault. -/
theorem countedAll_of_idle {w : List Symbol} (hs : Sorted s.ft) (h : execAll (w.map .count) s = .next t)
    (hidle : t.mode = .idle) : CountedAll w s t := by
  induction w generalizing s with
  | nil => cases h; exact .nil hs
  | cons x w ih =>
    obtain ⟨u, hu⟩ := exec_ends (.count x) s
    rw [List.map_cons, execAll_cons hu] at h
    obtain hcounted | ⟨hfault, -⟩ := counted_or_fault hu
    · exact .cons hcounted hs (ih (hcounted.sorted hs) h)
    · have hrest : ∀ i ∈ w.map Instr.count, ¬ AcceptedIn i .fault := by simp [AcceptedIn]
      cases (execAll_of_fault hfault hrest).symm.trans h
      exact absurd (hfault.symm.trans hidle) nofun

/-- Settles O26: both tables are ascending and read alike at every key. -/
theorem countingOrderDoesNotMatter : Obligations.CountingOrderDoesNotMatter := by
  intro s t t' w w' hs hperm h h' hidle hidle'
  have hw := countedAll_of_idle hs h hidle
  have hw' := countedAll_of_idle hs h' hidle'
  have hft : t.ft = t'.ft := sorted_ext hw.sorted hw'.sorted fun k => by
    rw [hw.lookup, hw'.lookup, hperm.count_eq k]
    simp only [hperm.mem_iff]
  have hnft := hw.nft
  have hnft' := hw'.nft
  rw [hft] at hnft
  exact ⟨hft, by omega, by rw [hw.total, hw'.total, hperm.length_eq]⟩

section FromEmpty

variable {w : List Symbol}

/-- From an empty table the entries are the distinct Symbols of the stream. -/
theorem CountedAll.length_eq (h : CountedAll w s t) (hft : s.ft = []) : t.ft.length = w.dedup.length := by
  rw [length_eq_card_of_lookup h.sorted w.toFinset fun k => ?_, List.card_toFinset]
  rw [h.lookup, hft]
  simp

theorem CountedAll.nft_eq (h : CountedAll w s t) (hft : s.ft = []) (hnft : s.nft = 0) : t.nft = w.dedup.length := by
  have := h.nft
  simp only [hft, hnft, List.length_nil, h.length_eq hft] at this
  omega

theorem length_dedup_concat (w : List Symbol) (x : Symbol) :
    (w ++ [x]).dedup.length = if x ∈ w then w.dedup.length else w.dedup.length + 1 := by
  simp only [← List.card_toFinset]
  split_ifs with hx
  · congr 1
    ext
    simp
    grind
  · rw [List.toFinset_append, Finset.union_comm, List.toFinset_cons, List.toFinset_nil, insert_empty_eq,
      Finset.singleton_union, Finset.card_insert_of_notMem (by simpa using hx)]

/-- Counting a stream from an empty table, within capacity, completes: by the stream from its end, the last Symbol
being counted in the table of those before it. -/
theorem execAll_count_completes (hmode : s.mode = .idle) (hft : s.ft = []) (hnft : s.nft = 0) (htotal : s.total = 0)
    (hdistinct : w.dedup.length ≤ s.cfg.nMax) (hlength : w.length ≤ s.cfg.maxCount) :
    ∃ t, execAll (w.map .count) s = .next t ∧
      t = { s with ft := t.ft, nft := t.nft, total := t.total, outbox := t.outbox } := by
  induction w using List.reverseRecOn with
  | nil => exact ⟨s, rfl, rfl⟩
  | append_singleton w x ih =>
    rw [List.length_append, List.length_singleton] at hlength
    rw [length_dedup_concat] at hdistinct
    obtain ⟨t, ht, heq⟩ := ih (by split_ifs at hdistinct <;> omega) (by omega)
    have hidle : t.mode = .idle := by rw [heq]; exact hmode
    have hw : CountedAll w s t := countedAll_of_idle (by simp [hft]) ht hidle
    have hcfg : t.cfg = s.cfg := by rw [heq]
    have hroom : lookup t.ft x = none → t.nft ≠ t.cfg.nMax := by
      intro hnone
      have hx : x ∉ w := fun hx => by simp [hw.lookup, hx] at hnone
      rw [if_neg hx] at hdistinct
      rw [hw.nft_eq hft hnft, hcfg]
      omega
    have hexec := exec_count_of_capacity hidle (by rw [hw.total, htotal, hcfg]; omega) hroom
    refine ⟨_, by rw [List.map_append, execAll_append ht]; exact execAll_cons hexec [], ?_⟩
    rw [countSym_eq, heq]

/-- Settles O25: counting completes, and the table reads as the occurrences. -/
theorem freqCountsOccurrences : Obligations.FreqCountsOccurrences := by
  intro s w hmode hft hnft htotal hdistinct hlength
  obtain ⟨t, ht, heq⟩ := execAll_count_completes hmode hft hnft htotal hdistinct hlength
  have hw : CountedAll w s t := countedAll_of_idle (by simp [hft]) ht (by rw [heq]; exact hmode)
  have htotal' : t.total = w.length := by rw [hw.total, htotal]; omega
  rw [hw.nft_eq hft hnft, htotal'] at heq
  exact ⟨t, ht, heq, fun k => by simp [hw.lookup, hft], hw.length_eq hft⟩

end FromEmpty

/-! ### Steps (R74, R202, R230) -/

section Steps

variable {P : State → Prop}

theorem takePacket_keeps {p : Packet}
    (hexec : ∀ i s t, WellFormed s.cfg i = true → P s → exec i s = .next t → P t)
    (hrefuse : ∀ c m s, P s → P (refuse c m s)) (hs : P s) (h : takePacket p s = .next t) : P t := by
  cases hdec : decode s.cfg p with
  | command i =>
    rw [takePacket_of_command hdec] at h
    exact hexec i s t (eachPacketHasOneCommand _ _ _ hdec).1 hs h
  | illegalCommand => cases (takePacket_of_illegalCommand hdec).symm.trans h; exact hrefuse _ _ _ hs
  | badOperand => cases (takePacket_of_badOperand hdec).symm.trans h; exact hrefuse _ _ _ hs

/-- Steps packaged once: what the waiting events have no part in, and every well-formed command, every refusal and
every clearing keeps, every step keeps. -/
theorem step_keeps (hqueue : ∀ s q, P s → P { s with inbox := q })
    (hexec : ∀ i s t, WellFormed s.cfg i = true → P s → exec i s = .next t → P t)
    (hrefuse : ∀ c m s, P s → P (refuse c m s)) (hclear : ∀ s, P s → P (clearAll s)) (hs : P s)
    (hstep : step s = .next t) : P t := by
  cases hin : s.inbox with
  | nil => cases (step_of_empty hin).symm.trans hstep; exact hs
  | cons e rest =>
    cases e with
    | reset => cases (step_of_reset hin).symm.trans hstep; exact hclear _ (hqueue s rest hs)
    | packet p =>
      rw [step_of_packet hin] at hstep
      exact takePacket_keeps hexec hrefuse (hqueue s rest hs) hstep

end Steps

/-- A refusal leaves the three stores and their registers. -/
theorem same_refuse (c : Cause) (m : Byte) (s : State) :
    SameTree s (refuse c m s) ∧ SameTable s (refuse c m s) ∧ SameCodes s (refuse c m s) :=
  have h := frame_refuse .items c m s
  ⟨h.tree nofun nofun, h.table nofun nofun nofun, h.codes nofun nofun nofun nofun⟩

/-- What a command can do to the Frequency Table: nothing, emptying it, or one count. -/
theorem table_exec_cases {i : Instr} (hexec : exec i s = .next t) :
    SameTable s t ∨ (t.ft = [] ∧ t.nft = 0 ∧ t.total = 0) ∨ ∃ x, i = .count x ∧ Counted x s t := by
  by_cases hcount : ∃ x, i = .count x
  · obtain ⟨x, rfl⟩ := hcount
    obtain h | ⟨-, h⟩ := counted_or_fault hexec
    · exact .inr (.inr ⟨x, rfl, h⟩)
    · exact .inl h
  by_cases hclear : i = .clear
  · subst hclear
    cases (exec_clear s).symm.trans hexec
    exact .inr (.inl ⟨rfl, rfl, rfl⟩)
  by_cases hbuild : i = .build
  · subst hbuild
    by_cases hacc : AcceptedIn .build s.mode
    · cases (exec_of_acceptedIn hacc).symm.trans hexec
      exact .inr (.inl ⟨rfl, rfl, rfl⟩)
    · cases (exec_of_not_acceptedIn hacc).symm.trans hexec
      exact .inl (same_refuse _ _ s).2.1
  exact .inl ((frame_exec hexec).table (fun x hx => hcount ⟨x, hx⟩) hbuild hclear)

/-- NODE and the tree registers hold nothing. -/
def NoTree (t : State) : Prop := t.node = [] ∧ t.treePresent = false ∧ t.root = 0 ∧ t.nleaf = 0 ∧ t.nnode = 0

/-- The Code Table is discarded. -/
def NoCodes (t : State) : Prop := t.ct = [] ∧ t.nct = 0 ∧ t.ctValid = false

/-- The Code Table is the one derived in `s`. -/
def Derived (s t : State) : Prop := t.ct = derivedTable s ∧ t.nct = (derivedTable s).length ∧ t.ctValid = true

/-- What a command can do to the tree and the codes: BUILD and CLEAR discard the codes and write the tree, every other
command leaves the tree and leaves, discards or derives the codes. -/
theorem stores_exec_cases {i : Instr} (hexec : exec i s = .next t) :
    (SameTree s t ∧ (SameCodes s t ∨ NoCodes t ∨ Derived s t)) ∨
      (NoCodes t ∧ (NoTree t ∨ (i = .build ∧ s.mode = .idle))) := by
  by_cases hacc : AcceptedIn i s.mode
  · cases (exec_of_acceptedIn hacc).symm.trans hexec
    have hframe := frame_ruleOf hacc
    by_cases hclear : i = .clear
    · subst hclear; exact .inr ⟨⟨rfl, rfl, rfl⟩, .inl ⟨rfl, rfl, rfl, rfl, rfl⟩⟩
    by_cases hbuild : i = .build
    · subst hbuild; exact .inr ⟨⟨rfl, rfl, rfl⟩, .inr ⟨rfl, hacc⟩⟩
    refine .inl ⟨hframe.tree hbuild hclear, ?_⟩
    by_cases hend : i = .encEnd
    · subst hend; exact .inr (.inl ⟨rfl, rfl, rfl⟩)
    by_cases hderive : i = .derive
    · subst hderive; exact .inr (.inr ⟨rfl, rfl, rfl⟩)
    exact .inl (hframe.codes hderive hbuild hend hclear)
  · cases (exec_of_not_acceptedIn hacc).symm.trans hexec
    obtain ⟨htree, -, hcodes⟩ := same_refuse .sequenceError i.opc s
    exact .inl ⟨htree, .inl hcodes⟩

/-! ### The canonical form of the stores (R21, R28) -/

theorem sorted_derivedTable (s : State) : Sorted (derivedTable s) := by
  unfold derivedTable
  split_ifs
  · exact sorted_tableOf _
  · exact List.Pairwise.nil

theorem Counted.memory_wf {sym : Symbol} (h : Counted sym s t) (hs : Memory.wf s) : Memory.wf t := by
  rw [h.eq, countSym_eq]
  exact memory_wf_store_count hs sym _ (Nat.le_add_left 1 _)

theorem memory_wf_of_same (hs : Memory.wf s) (hft : t.ft = s.ft) (hct : t.ct = s.ct) : Memory.wf t := by
  rw [Memory.wf, hft, hct]
  exact hs

theorem memory_wf_exec {i : Instr} (hs : Memory.wf s) (hexec : exec i s = .next t) : Memory.wf t := by
  obtain ⟨hsorted, hcounts, hcodes⟩ := hs
  have htable : Sorted t.ft ∧ ∀ e ∈ t.ft, 1 ≤ e.2 := by
    obtain ⟨hft, -, -⟩ | ⟨hft, -, -⟩ | ⟨x, -, hx⟩ := table_exec_cases hexec
    · rw [hft]; exact ⟨hsorted, hcounts⟩
    · rw [hft]; simp
    · obtain ⟨h1, h2, -⟩ := hx.memory_wf ⟨hsorted, hcounts, hcodes⟩
      exact ⟨h1, h2⟩
  refine ⟨htable.1, htable.2, ?_⟩
  obtain ⟨-, ⟨hct, -, -⟩ | ⟨hct, -, -⟩ | ⟨hct, -, -⟩⟩ | ⟨⟨hct, -, -⟩, -⟩ := stores_exec_cases hexec
  · rw [hct]; exact hcodes
  · rw [hct]; exact List.Pairwise.nil
  · rw [hct]; exact sorted_derivedTable s
  · rw [hct]; exact List.Pairwise.nil

/-- Settles O52: COUNT and DERIVE write ascending stores, and nothing else writes them but to empty them. -/
theorem stepKeepsStoresCanonical : Obligations.StepKeepsStoresCanonical := by
  have hrefuse (c : Cause) (m : Byte) (s : State) (h : Memory.wf s) : Memory.wf (refuse c m s) := by
    obtain ⟨-, ⟨hft, -, -⟩, hct, -, -⟩ := same_refuse c m s
    exact memory_wf_of_same h hft hct
  exact fun _ _ hs hstep => step_keeps (fun _ _ h => h) (fun _ _ _ _ h hexec => memory_wf_exec h hexec) hrefuse
    (fun s _ => memory_wf_empty (clearAll s)) hs hstep

/-! ### The Frequency Table's invariant (R22) -/

theorem tableInv_of_same (hs : TableInv s) (hsame : SameTable s t) (hcfg : t.cfg = s.cfg) : TableInv t := by
  obtain ⟨hft, hnft, htotal⟩ := hsame
  obtain ⟨hsorted, hsymbols, hcounts, hnft', htotal', hcapacity, hbound⟩ := hs
  constructor <;> simp only [hft, hnft, htotal, hcfg] <;> assumption

theorem tableInv_of_empty (hft : t.ft = []) (hnft : t.nft = 0) (htotal : t.total = 0) : TableInv t := by
  constructor <;> simp [hft, hnft, htotal]

theorem Counted.tableInv {sym : Symbol} (h : Counted sym s t) (hsym : Symbol.ok s.cfg sym = true) (hs : TableInv s) :
    TableInv t := by
  have hnft := h.nft_add_length hs.sorted
  have htotal := h.total_eq
  have hcfg : t.cfg = s.cfg := by rw [h.eq, countSym_eq]
  have hft : t.ft = store s.ft sym ((lookup s.ft sym).getD 0 + 1) := by rw [h.eq, countSym_eq]
  refine ⟨h.sorted hs.sorted, ?symbols, ?counts, ?nft, ?total, ?capacity, ?bound⟩
  case symbols =>
    rw [hft, hcfg]
    intro e he
    obtain rfl | he := mem_store he
    · exact hsym
    · exact hs.symbols e he
  case counts =>
    rw [hft]
    intro e he
    obtain rfl | he := mem_store he
    · exact Nat.le_add_left 1 _
    · exact hs.counts e he
  case nft => rw [hs.nft] at hnft; omega
  case total => rw [htotal, hft, sum_store_add_one _ hs.sorted, hs.total]
  case capacity =>
    have hcap := hs.capacity
    rw [h.eq, countSym_eq]
    simp only
    split_ifs with hnew
    · exact Nat.lt_of_le_of_ne hcap (h.room hnew)
    · exact hcap
  case bound =>
    rw [htotal, hcfg]
    exact Nat.lt_of_le_of_ne hs.bound h.total

theorem tableInv_exec {i : Instr} (hi : WellFormed s.cfg i = true) (hs : TableInv s) (hexec : exec i s = .next t) :
    TableInv t := by
  obtain hsame | ⟨hft, hnft, htotal⟩ | ⟨x, rfl, hx⟩ := table_exec_cases hexec
  · exact tableInv_of_same hs hsame (frame_exec hexec).cfg
  · exact tableInv_of_empty hft hnft htotal
  · exact hx.tableInv hi hs

/-- Settles O53: only COUNT fills the table, and its tests keep it within capacity. -/
theorem stepKeepsTheTable : Obligations.StepKeepsTheTable := by
  have hrefuse (c : Cause) (m : Byte) (s : State) (h : TableInv s) : TableInv (refuse c m s) := by
    obtain ⟨-, htable, -⟩ := same_refuse c m s
    exact tableInv_of_same h htable (frame_refuse .items c m s).cfg
  exact fun _ _ hs hstep => step_keeps (fun _ _ h => tableInv_of_same h ⟨rfl, rfl, rfl⟩ rfl)
    (fun _ _ _ hi h hexec => tableInv_exec hi h hexec) hrefuse (fun _ _ => tableInv_of_empty rfl rfl rfl) hs hstep

end Sys2Proof.Machine

/-! ## Proofs: the merges of BUILD (R111, R116, R117) -/

namespace Sys2Proof.Machine

/-! ### Slots -/

/-- The node indices in the slots that are not Absent. -/
def occupied (w : Work) : List Nat := w.slots.filterMap id

/-- The frequency of the record at an index. -/
abbrev freqAt (nodes : List Node) (i : Nat) : Nat := nodeFreq (readNode nodes i)

theorem rootOf_eq_headD (w : Work) : rootOf w = (occupied w).headD 0 := rfl

/-- The frequencies the scan reads are those of the occupied slots. -/
theorem filterMap_slotFreqs (w : Work) : (slotFreqs w).filterMap id = (occupied w).map (freqAt w.nodes) := by
  rw [slotFreqs, occupied, List.filterMap_map, List.map_filterMap]
  rfl

theorem slotFreqs_getElem?_eq_some {w : Work} {i f : Nat} (h : (slotFreqs w)[i]? = some (some f)) :
    ∃ x, w.slots[i]? = some (some x) ∧ f = freqAt w.nodes x := by
  rw [slotFreqs, List.getElem?_map] at h
  cases hi : w.slots[i]? with
  | none => simp [hi] at h
  | some slot =>
    cases slot with
    | none => simp [hi] at h
    | some x => exact ⟨x, rfl, by simpa [hi] using h.symm⟩

theorem slotFreqs_getElem? {w : Work} {i x : Nat} (h : w.slots[i]? = some (some x)) :
    (slotFreqs w)[i]? = some (some (freqAt w.nodes x)) := by
  simp [slotFreqs, h, freqAt]

theorem slotNode_eq {w : Work} {i x : Nat} (h : w.slots[i]? = some (some x)) : slotNode w i = x := by
  simp [slotNode, List.getD_eq_getElem?_getD, h]

/-- Emptying a slot gives up the index in it. -/
theorem filterMap_perm_cons_set_none {slots : List (Option Nat)} {p x : Nat} (h : slots[p]? = some (some x)) :
    (slots.filterMap id).Perm (x :: (slots.set p none).filterMap id) := by
  induction slots generalizing p with
  | nil => simp at h
  | cons slot slots ih =>
    cases p with
    | zero => simp at h; simp [h]
    | succ p =>
      have hperm := ih (p := p) (by simpa using h)
      cases slot with
      | none => simpa using hperm
      | some y =>
        have hswap := (hperm.cons y).trans (List.Perm.swap x y _)
        simpa using hswap

/-- An index put into a slot, whatever it held before. -/
theorem filterMap_set_some_perm {slots : List (Option Nat)} {p : Nat} (hp : p < slots.length) (v : Nat) :
    ((slots.set p (some v)).filterMap id).Perm (v :: (slots.set p none).filterMap id) := by
  have h : (slots.set p (some v))[p]? = some (some v) := by simp [hp]
  simpa using filterMap_perm_cons_set_none h

/-! ### One merge (R116) -/

/-- The two slots the scan selects, in the order of their positions. -/
theorem LeastTwo.slots {w : Work} {m1 f1 m2 f2 : Nat} (h : LeastTwo (slotFreqs w) m1 f1 m2 f2) :
    ∃ x y, w.slots[m1]? = some (some x) ∧ w.slots[m2]? = some (some y) ∧
      f1 = freqAt w.nodes x ∧ f2 = freqAt w.nodes y := by
  obtain ⟨x, hx, hf1⟩ := slotFreqs_getElem?_eq_some h.at1
  obtain ⟨y, hy, hf2⟩ := slotFreqs_getElem?_eq_some h.at2
  exact ⟨x, y, hx, hy, hf1, hf2⟩

/-- Two occupied slots have a least and a second-least. -/
theorem exists_leastTwo {w : Work} (h : 2 ≤ (occupied w).length) :
    ∃ m1 f1 m2 f2, LeastTwo (slotFreqs w) m1 f1 m2 f2 :=
  (scanFindsTheLeastTwo (slotFreqs w) (by rwa [filterMap_slotFreqs, List.length_map])).1

theorem LeastTwo.select2_eq {freqs : List (Option Nat)} {m1 f1 m2 f2 : Nat} (h : LeastTwo freqs m1 f1 m2 f2) :
    select2 freqs = (some ⟨m1, f1⟩, some ⟨m2, f2⟩) := by
  have h2 : (freqs.set m1 none)[m2]? = some (some f2) := by rw [List.getElem?_set_ne h.differ, h.at2]
  have hlen : 2 ≤ (freqs.filterMap id).length := by
    rw [(filterMap_perm_cons_set_none h.at1).length_eq, List.length_cons, (filterMap_perm_cons_set_none h2).length_eq,
      List.length_cons]
    omega
  exact (scanFindsTheLeastTwo freqs hlen).2 _ _ _ _ h

/-- Settles O28: the scan returns the two positions, and the slots there hold the two children. -/
theorem mergeFollowsTheSlotRule : Obligations.MergeFollowsTheSlotRule := by
  intro w m1 f1 m2 f2 h
  obtain ⟨x, y, hx, hy, rfl, rfl⟩ := h.slots
  obtain hlt | hlt := Nat.lt_or_gt_of_ne h.differ
  · refine ⟨x, y, by rwa [min_eq_left hlt.le], by rwa [max_eq_right hlt.le], ?_, ?_⟩ <;>
      simp [merge, h.select2_eq, min_eq_left hlt.le, max_eq_right hlt.le, slotNode_eq hx, slotNode_eq hy]
  · refine ⟨y, x, by rwa [min_eq_right hlt.le], by rwa [max_eq_left hlt.le], ?_, ?_⟩ <;>
      simp [merge, h.select2_eq, min_eq_right hlt.le, max_eq_left hlt.le, slotNode_eq hx, slotNode_eq hy, Nat.add_comm]

/-- What a merge does to the records and the occupied slots, under either reading of D12: the indices `l` and `r` leave,
the new one comes, and no other occupied slot holds less than those two. -/
structure MergeStep (w w' : Work) (l r : Nat) (rest : List Nat) : Prop where
  before : (occupied w).Perm (l :: r :: rest)
  after : (occupied w').Perm (w.nodes.length :: rest)
  nodes : w'.nodes = w.nodes ++ [.internal (freqAt w.nodes l + freqAt w.nodes r) l r]
  least : ∀ x ∈ rest, freqAt w.nodes l ≤ freqAt w.nodes x ∧ freqAt w.nodes r ≤ freqAt w.nodes x

/-- The slots a merge leaves: one of the two selected holds the new index, the other is Absent. -/
theorem merge_slots {w : Work} {m1 f1 m2 f2 : Nat} (h : LeastTwo (slotFreqs w) m1 f1 m2 f2) (ms : MergeSlot) :
    (merge ms w).slots = (w.slots.set m1 (some w.nodes.length)).set m2 none ∨
      (merge ms w).slots = (w.slots.set m2 (some w.nodes.length)).set m1 none := by
  obtain ⟨l, r, -, -, hlo, hm1⟩ := mergeFollowsTheSlotRule w m1 f1 m2 f2 h
  cases ms with
  | m1 => left; rw [hm1]
  | lo =>
    rw [hlo]
    obtain hlt | hlt := Nat.lt_or_gt_of_ne h.differ
    · left; rw [min_eq_left hlt.le, max_eq_right hlt.le]
    · right; rw [min_eq_right hlt.le, max_eq_left hlt.le]

/-- The record a merge writes: its children are the indices in the two selected slots, in one order or the other. -/
theorem merge_nodes {w : Work} {m1 f1 m2 f2 x y : Nat} (h : LeastTwo (slotFreqs w) m1 f1 m2 f2) (ms : MergeSlot)
    (hx : w.slots[m1]? = some (some x)) (hy : w.slots[m2]? = some (some y)) :
    ∃ l r, (l = x ∧ r = y ∨ l = y ∧ r = x) ∧
      (merge ms w).nodes = w.nodes ++ [.internal (freqAt w.nodes l + freqAt w.nodes r) l r] := by
  obtain ⟨l, r, hl, hr, hlo, hm1⟩ := mergeFollowsTheSlotRule w m1 f1 m2 f2 h
  refine ⟨l, r, ?_, by cases ms <;> simp [hlo, hm1]⟩
  obtain hlt | hlt := Nat.lt_or_gt_of_ne h.differ
  · rw [min_eq_left hlt.le, hx] at hl
    rw [max_eq_right hlt.le, hy] at hr
    simp_all
  · rw [min_eq_right hlt.le, hy] at hl
    rw [max_eq_left hlt.le, hx] at hr
    simp_all

/-- What is in the other slots when two of them are emptied. -/
def others (slots : List (Option Nat)) (p q : Nat) : List Nat := ((slots.set p none).set q none).filterMap id

theorem others_comm (slots : List (Option Nat)) {p q : Nat} (h : p ≠ q) : others slots p q = others slots q p := by
  rw [others, others, List.set_comm _ _ h]

theorem filterMap_perm_others {slots : List (Option Nat)} {p q x y : Nat} (hne : p ≠ q)
    (hp : slots[p]? = some (some x)) (hq : slots[q]? = some (some y)) :
    (slots.filterMap id).Perm (x :: y :: others slots p q) := by
  have hq' : (slots.set p none)[q]? = some (some y) := by rw [List.getElem?_set_ne hne, hq]
  exact (filterMap_perm_cons_set_none hp).trans ((filterMap_perm_cons_set_none hq').cons x)

theorem filterMap_replace_perm_others {slots : List (Option Nat)} {p q : Nat} (hne : p ≠ q) (hp : p < slots.length)
    (v : Nat) : (((slots.set p (some v)).set q none).filterMap id).Perm (v :: others slots p q) := by
  rw [List.set_comm _ _ hne, others, List.set_comm _ _ hne]
  exact filterMap_set_some_perm (by simpa using hp) v

theorem mem_others {slots : List (Option Nat)} {p q x : Nat} (h : x ∈ others slots p q) :
    ∃ j, slots[j]? = some (some x) ∧ j ≠ p ∧ j ≠ q := by
  obtain ⟨slot, hslot, rfl⟩ := List.mem_filterMap.1 h
  obtain ⟨j, hj⟩ := List.mem_iff_getElem?.1 hslot
  have hq : j ≠ q := by rintro rfl; simp [List.getElem?_set_self'] at hj
  have hp : j ≠ p := by rintro rfl; rw [List.getElem?_set_ne hq.symm] at hj; grind
  exact ⟨j, by rw [← hj, List.getElem?_set_ne hq.symm, List.getElem?_set_ne hp.symm], hp, hq⟩

/-- With two slots occupied a merge is a merge step. -/
theorem exists_mergeStep (ms : MergeSlot) {w : Work} (h : 2 ≤ (occupied w).length) :
    ∃ l r rest, MergeStep w (merge ms w) l r rest := by
  obtain ⟨m1, f1, m2, f2, hleast⟩ := exists_leastTwo h
  obtain ⟨x, y, hx, hy, hf1, hf2⟩ := hleast.slots
  have hbefore : (occupied w).Perm (x :: y :: others w.slots m1 m2) := filterMap_perm_others hleast.differ hx hy
  have hafter : (occupied (merge ms w)).Perm (w.nodes.length :: others w.slots m1 m2) := by
    have h1 : m1 < w.slots.length := (List.getElem?_eq_some_iff.1 hx).1
    have h2 : m2 < w.slots.length := (List.getElem?_eq_some_iff.1 hy).1
    obtain hslots | hslots := merge_slots hleast ms
    · rw [occupied, hslots]
      exact filterMap_replace_perm_others hleast.differ h1 _
    · rw [occupied, hslots, others_comm _ hleast.differ]
      exact filterMap_replace_perm_others hleast.differ.symm h2 _
  have hrest : ∀ z ∈ others w.slots m1 m2,
      freqAt w.nodes x ≤ freqAt w.nodes z ∧ freqAt w.nodes y ≤ freqAt w.nodes z := by
    intro z hz
    obtain ⟨j, hj, hj1, hj2⟩ := mem_others hz
    exact ⟨hf1 ▸ (hleast.least j _ (slotFreqs_getElem? hj) hj1).le,
      hf2 ▸ (hleast.second j _ (slotFreqs_getElem? hj) hj1 hj2).le⟩
  obtain ⟨l, r, ⟨rfl, rfl⟩ | ⟨rfl, rfl⟩, hnodes⟩ := merge_nodes hleast ms hx hy
  · exact ⟨_, _, _, hbefore, hafter, hnodes, hrest⟩
  · exact ⟨_, _, _, hbefore.trans (List.Perm.swap _ _ _), hafter, hnodes, fun z hz => (hrest z hz).symm⟩

/-! ### What the merges keep (R26, R119) -/

theorem readNode_append_of_lt {nodes : List Node} {i : Nat} (h : i < nodes.length) (more : List Node) :
    readNode (nodes ++ more) i = readNode nodes i := by
  simp [readNode, List.getD_eq_getElem?_getD, List.getElem?_append_left h]

theorem leafEntries_append (nodes more : List Node) :
    leafEntries (nodes ++ more) = leafEntries nodes ++ leafEntries more := List.filterMap_append

theorem childIndices_append (nodes more : List Node) :
    childIndices (nodes ++ more) = childIndices nodes ++ childIndices more := List.flatMap_append

theorem mem_childIndices {nodes : List Node} {c : Nat} :
    c ∈ childIndices nodes ↔ ∃ (i f l r : Nat), nodes[i]? = some (.internal f l r) ∧ (c = l ∨ c = r) := by
  constructor
  · intro h
    obtain ⟨n, hn, hc⟩ := List.mem_flatMap.1 h
    obtain ⟨i, hi⟩ := List.mem_iff_getElem?.1 hn
    cases n with
    | leaf s f => simp at hc
    | internal f l r => exact ⟨i, f, l, r, hi, by simpa using hc⟩
  · rintro ⟨i, f, l, r, hi, hc⟩
    exact List.mem_flatMap.2 ⟨_, List.mem_of_getElem? hi, by simpa using hc⟩

/-- The work of BUILD on `items`, after any number of merges: the leaves, the Internal records with smaller children and
summed frequencies, and every index either in one slot or the child of one record. -/
structure Grown (items : List (Symbol × Nat)) (w : Work) : Prop where
  leaf : ∀ (i : Nat) (e : Symbol × Nat), items[i]? = some e → w.nodes[i]? = some (.leaf e.1 e.2)
  internal : ∀ i, items.length ≤ i → i < w.nodes.length → ∃ f l r, w.nodes[i]? = some (.internal f l r) ∧
    l < i ∧ r < i ∧ f = freqAt w.nodes l + freqAt w.nodes r
  entries : leafEntries w.nodes = items
  owned : (occupied w ++ childIndices w.nodes).Perm (List.range w.nodes.length)
  sum : ((occupied w).map (freqAt w.nodes)).sum = (items.map Prod.snd).sum
  /-- No later merge can make a smaller frequency than an earlier one. -/
  ahead : ∀ j, items.length ≤ j → j < w.nodes.length → ∀ x ∈ occupied w, ∀ y ∈ occupied w, x ≠ y →
    freqAt w.nodes j ≤ freqAt w.nodes x + freqAt w.nodes y
  monotone : ∀ i j, items.length ≤ i → i ≤ j → j < w.nodes.length → freqAt w.nodes i ≤ freqAt w.nodes j

section

variable {items : List (Symbol × Nat)} {w w' : Work} {l r : Nat} {rest : List Nat}

theorem Grown.lt_of_mem_occupied (h : Grown items w) {x : Nat} (hx : x ∈ occupied w) : x < w.nodes.length :=
  List.mem_range.1 (h.owned.subset (List.mem_append_left _ hx))

theorem Grown.nodup_occupied (h : Grown items w) : (occupied w).Nodup :=
  ((h.owned.nodup_iff.2 List.nodup_range).sublist (List.sublist_append_left _ _))

/-- The newest record is in a slot: it is the child of none. -/
theorem Grown.newest_mem_occupied (h : Grown items w) (hne : w.nodes ≠ []) : w.nodes.length - 1 ∈ occupied w := by
  have hpos := List.length_pos_iff.2 hne
  have hmem := h.owned.symm.subset (List.mem_range.2 (Nat.sub_lt hpos one_pos))
  obtain hocc | hchild := List.mem_append.1 hmem
  · exact hocc
  · obtain ⟨i, f, l, r, hi, hc⟩ := mem_childIndices.1 hchild
    have hlt : i < w.nodes.length := (List.getElem?_eq_some_iff.1 hi).1
    have hge : items.length ≤ i := by
      by_contra hlt'
      have := h.leaf i _ (List.getElem?_eq_getElem (not_le.1 hlt'))
      simp [hi] at this
    obtain ⟨f', l', r', hi', hl, hr, -⟩ := h.internal i hge hlt
    obtain ⟨rfl, rfl, rfl⟩ : f = f' ∧ l = l' ∧ r = r' := by simpa [hi] using hi'
    omega

theorem leafEntries_map_leaf (items : List (Symbol × Nat)) :
    leafEntries (items.map fun e => .leaf e.1 e.2) = items := by
  simp [leafEntries, List.filterMap_map]

theorem childIndices_map_leaf (items : List (Symbol × Nat)) :
    childIndices (items.map fun e => .leaf e.1 e.2) = [] := by
  simp [childIndices, List.flatMap_map]

theorem occupied_leaves (items : List (Symbol × Nat)) : occupied (leaves items) = List.range items.length := by
  simp [occupied, leaves, List.filterMap_map]

theorem getElem?_leaves {i : Nat} {e : Symbol × Nat} (h : items[i]? = some e) :
    (leaves items).nodes[i]? = some (.leaf e.1 e.2) := by simp [leaves, h]

theorem map_freqAt_leaves (items : List (Symbol × Nat)) :
    (occupied (leaves items)).map (freqAt (leaves items).nodes) = items.map Prod.snd := by
  rw [occupied_leaves]
  refine List.ext_getElem (by simp) fun i hi _ => ?_
  have hi : i < items.length := by simpa using hi
  simp [freqAt, readNode_of_getElem? (getElem?_leaves (List.getElem?_eq_getElem hi)), nodeFreq]

/-- The work of step 1: the leaves alone, each in its own slot. -/
theorem grown_leaves (items : List (Symbol × Nat)) : Grown items (leaves items) := by
  have hlen : (leaves items).nodes.length = items.length := List.length_map ..
  refine ⟨fun _ _ => getElem?_leaves, fun i hi hi' => by omega, leafEntries_map_leaf items, ?owned,
    by rw [map_freqAt_leaves], fun j hj hj' => by omega, fun i j hi hij hj => by omega⟩
  case owned => rw [occupied_leaves, hlen, leaves, childIndices_map_leaf, List.append_nil]

/-! A merge step on a grown work. -/

section

variable (h : Grown items w) (hstep : MergeStep w w' l r rest)
include h hstep

theorem Grown.picked_lt : l < w.nodes.length ∧ r < w.nodes.length :=
  ⟨h.lt_of_mem_occupied (hstep.before.symm.subset (by simp)),
    h.lt_of_mem_occupied (hstep.before.symm.subset (by simp))⟩

theorem Grown.rest_lt {x : Nat} (hx : x ∈ rest) : x < w.nodes.length :=
  h.lt_of_mem_occupied (hstep.before.symm.subset (by simp [hx]))

theorem Grown.picked_ne : l ≠ r := by
  have hnodup := hstep.before.nodup_iff.1 h.nodup_occupied
  simp only [List.nodup_cons, List.mem_cons, not_or] at hnodup
  exact hnodup.1.1

omit h in
theorem MergeStep.length_nodes : w'.nodes.length = w.nodes.length + 1 := by simp [hstep.nodes]

omit h in
/-- The records written before keep their frequencies. -/
theorem MergeStep.freqAt_of_lt {i : Nat} (hi : i < w.nodes.length) : freqAt w'.nodes i = freqAt w.nodes i := by
  rw [freqAt, hstep.nodes, readNode_append_of_lt hi]

omit h in
theorem MergeStep.getElem?_new :
    w'.nodes[w.nodes.length]? = some (.internal (freqAt w.nodes l + freqAt w.nodes r) l r) := by simp [hstep.nodes]

omit h in
theorem MergeStep.freqAt_new : freqAt w'.nodes w.nodes.length = freqAt w.nodes l + freqAt w.nodes r := by
  rw [freqAt, readNode_of_getElem? hstep.getElem?_new]
  rfl

/-- No record's frequency is above that of the new one. -/
theorem Grown.freqAt_le_new {j : Nat} (hj : items.length ≤ j) (hj' : j < w'.nodes.length) :
    freqAt w'.nodes j ≤ freqAt w.nodes l + freqAt w.nodes r := by
  rw [hstep.length_nodes] at hj'
  obtain hlt | rfl := Nat.lt_succ_iff_lt_or_eq.1 hj'
  · rw [hstep.freqAt_of_lt hlt]
    exact h.ahead j hj hlt l (hstep.before.symm.subset (by simp)) r (hstep.before.symm.subset (by simp))
      (h.picked_ne hstep)
  · exact hstep.freqAt_new.le

/-- Two occupied slots after the merge hold at least the two frequencies merged: one of them is the new record, or
both are of those not picked. -/
theorem Grown.picked_le_of_occupied {x y : Nat} (hx : x ∈ occupied w') (hy : y ∈ occupied w') (hne : x ≠ y) :
    freqAt w.nodes l + freqAt w.nodes r ≤ freqAt w'.nodes x + freqAt w'.nodes y := by
  obtain rfl | hx := List.mem_cons.1 (hstep.after.subset hx)
  · rw [hstep.freqAt_new]
    exact Nat.le_add_right _ _
  · obtain rfl | hy := List.mem_cons.1 (hstep.after.subset hy)
    · rw [hstep.freqAt_new]
      exact Nat.le_add_left _ _
    · rw [hstep.freqAt_of_lt (h.rest_lt hstep hx), hstep.freqAt_of_lt (h.rest_lt hstep hy)]
      exact Nat.add_le_add (hstep.least x hx).1 (hstep.least y hy).2

/-- A merge keeps the work grown. -/
theorem Grown.step : Grown items w' := by
  obtain ⟨hl, hr⟩ := h.picked_lt hstep
  refine ⟨?leaf, ?internal, ?entries, ?owned, ?sum, ?ahead, ?monotone⟩
  case leaf =>
    intro i e hi
    have hi' := h.leaf i e hi
    rw [hstep.nodes, List.getElem?_append_left (List.getElem?_eq_some_iff.1 hi').1, hi']
  case internal =>
    intro i hi hi'
    rw [hstep.length_nodes] at hi'
    obtain hlt | rfl := Nat.lt_succ_iff_lt_or_eq.1 hi'
    · obtain ⟨f, a, b, hnode, ha, hb, hf⟩ := h.internal i hi hlt
      refine ⟨f, a, b, by rw [hstep.nodes, List.getElem?_append_left hlt, hnode], ha, hb, ?_⟩
      rw [hstep.freqAt_of_lt (ha.trans hlt), hstep.freqAt_of_lt (hb.trans hlt), hf]
    · exact ⟨_, l, r, hstep.getElem?_new, hl, hr, by rw [hstep.freqAt_of_lt hl, hstep.freqAt_of_lt hr]⟩
  case entries =>
    rw [hstep.nodes, leafEntries_append, h.entries]
    simp [leafEntries]
  case owned =>
    have hmove : (w.nodes.length :: rest ++ (childIndices w.nodes ++ [l, r])).Perm
        ((l :: r :: rest ++ childIndices w.nodes) ++ [w.nodes.length]) := by
      rw [List.perm_iff_count]
      intro i
      simp only [List.count_append, List.count_cons, List.count_nil]
      omega
    rw [hstep.length_nodes, List.range_succ, hstep.nodes, childIndices_append]
    exact (hstep.after.append_right _).trans
      (hmove.trans (((hstep.before.symm.append_right _).trans h.owned).append_right _))
  case sum =>
    rw [← h.sum, (hstep.after.map _).sum_eq, (hstep.before.map _).sum_eq]
    have hrest : rest.map (freqAt w'.nodes) = rest.map (freqAt w.nodes) :=
      List.map_congr_left fun x hx => hstep.freqAt_of_lt (h.rest_lt hstep hx)
    simp only [List.map_cons, List.sum_cons, hstep.freqAt_new, hrest]
    omega
  case ahead =>
    intro j hj hj' x hx y hy hne
    exact (h.freqAt_le_new hstep hj hj').trans (h.picked_le_of_occupied hstep hx hy hne)
  case monotone =>
    intro i j hi hij hj
    have hj' := hj
    rw [hstep.length_nodes] at hj'
    obtain hlt | rfl := Nat.lt_succ_iff_lt_or_eq.1 hj'
    · rw [hstep.freqAt_of_lt (hij.trans_lt hlt), hstep.freqAt_of_lt hlt]
      exact h.monotone i j hi hij hlt
    · rw [hstep.freqAt_new]
      exact h.freqAt_le_new hstep hi (hij.trans_lt hj)

end

end

end Sys2Proof.Machine

/-! ## Proofs: all merges of BUILD, and the tree registers (R110, R117, R118) -/

namespace Sys2Proof.Machine

variable {items : List (Symbol × Nat)}

theorem merges_eq_iterate (ms : MergeSlot) (k : Nat) (w : Work) : merges ms k w = (merge ms)^[k] w := by
  induction k generalizing w with
  | zero => rfl
  | succ k ih => exact ih (merge ms w)

/-- The work after `k` merges: one record more and one occupied slot fewer for each. -/
theorem grown_iterate (ms : MergeSlot) {k : Nat} (hk : k ≤ items.length - 1) :
    Grown items ((merge ms)^[k] (leaves items)) ∧
      ((merge ms)^[k] (leaves items)).nodes.length = items.length + k ∧
      (occupied ((merge ms)^[k] (leaves items))).length = items.length - k := by
  induction k with
  | zero => exact ⟨grown_leaves items, by simp [leaves], by simp [occupied_leaves]⟩
  | succ k ih =>
    obtain ⟨hgrown, hnodes, hocc⟩ := ih (by omega)
    rw [Function.iterate_succ_apply']
    obtain ⟨l, r, rest, hstep⟩ := exists_mergeStep ms (w := (merge ms)^[k] (leaves items)) (by omega)
    have hbefore := hstep.before.length_eq
    have hafter := hstep.after.length_eq
    simp only [List.length_cons] at hbefore hafter
    exact ⟨hgrown.step hstep, by rw [hstep.length_nodes]; omega, by omega⟩

/-- The finished work: 2n - 1 records, the last of them in the one occupied slot. -/
structure Finished (items : List (Symbol × Nat)) (w : Work) : Prop where
  grown : Grown items w
  length_nodes : w.nodes.length = 2 * items.length - 1
  occupied : occupied w = [2 * items.length - 2]

theorem finished_iterate (ms : MergeSlot) (hne : items ≠ []) :
    Finished items ((merge ms)^[items.length - 1] (leaves items)) := by
  have hpos := List.length_pos_iff.2 hne
  obtain ⟨hgrown, hnodes, hocc⟩ := grown_iterate ms (le_refl (items.length - 1))
  obtain ⟨x, hx⟩ := List.length_eq_one_iff.1 (hocc.trans (by omega))
  have hnewest := hgrown.newest_mem_occupied (List.length_pos_iff.1 (by omega))
  rw [hx, List.mem_singleton] at hnewest
  refine ⟨hgrown, by omega, ?_⟩
  rw [hx, ← hnewest]
  congr 1
  omega

theorem finished_buildWork (ms : MergeSlot) (hne : items ≠ []) : Finished items (buildWork ms items) := by
  rw [buildWork, merges_eq_iterate]
  exact finished_iterate ms hne

theorem Finished.rootOf_eq {w : Work} (h : Finished items w) : rootOf w = 2 * items.length - 2 := by
  rw [rootOf_eq_headD, h.occupied]
  rfl

/-! ### The slots under MERGE_SLOT = lo (R117, D12) -/

theorem length_slots_merge (ms : MergeSlot) {w : Work} (h : 2 ≤ (occupied w).length) :
    (merge ms w).slots.length = w.slots.length := by
  obtain ⟨m1, f1, m2, f2, hleast⟩ := exists_leastTwo h
  obtain hslots | hslots := merge_slots hleast ms <;> simp [hslots]

/-- Slot 0 is never the greater position, so it stays occupied. -/
theorem slot_zero_merge_lo {w : Work} (h : 2 ≤ (occupied w).length) (h0 : ∃ x, w.slots[0]? = some (some x)) :
    ∃ x, (merge .lo w).slots[0]? = some (some x) := by
  obtain ⟨x, hx⟩ := h0
  obtain ⟨m1, f1, m2, f2, hleast⟩ := exists_leastTwo h
  obtain ⟨l, r, -, -, hlo, -⟩ := mergeFollowsTheSlotRule w m1 f1 m2 f2 hleast
  have hmax : max m1 m2 ≠ 0 := by have := hleast.differ; omega
  rw [hlo, List.getElem?_set_ne hmax]
  by_cases hmin : min m1 m2 = 0
  · rw [hmin, List.getElem?_set_self (List.getElem?_eq_some_iff.1 hx).1]
    exact ⟨_, rfl⟩
  · rw [List.getElem?_set_ne hmin]
    exact ⟨x, hx⟩

theorem slots_iterate_lo (hne : items ≠ []) {k : Nat} (hk : k ≤ items.length - 1) :
    ((merge .lo)^[k] (leaves items)).slots.length = items.length ∧
      ∃ x, ((merge .lo)^[k] (leaves items)).slots[0]? = some (some x) := by
  induction k with
  | zero => exact ⟨by simp [leaves], 0, by simp [leaves, List.length_pos_iff.2 hne]⟩
  | succ k ih =>
    obtain ⟨hlen, h0⟩ := ih (by omega)
    have hocc := (grown_iterate .lo (items := items) (k := k) (by omega)).2.2
    rw [Function.iterate_succ_apply']
    exact ⟨(length_slots_merge .lo (by omega)).trans hlen, slot_zero_merge_lo (by omega) h0⟩

/-- A collection with one occupied slot, the first. -/
theorem slots_eq_of_filterMap {slots : List (Option Nat)} {x y : Nat} (h0 : slots[0]? = some (some x))
    (h : slots.filterMap id = [y]) : slots = some y :: List.replicate (slots.length - 1) none := by
  cases slots with
  | nil => simp at h0
  | cons slot slots =>
    simp only [List.getElem?_cons_zero, Option.some.injEq] at h0
    subst h0
    simp only [List.filterMap_cons_some (show id (some x) = some x from rfl), List.cons.injEq,
      List.filterMap_eq_nil_iff] at h
    obtain ⟨rfl, hnone⟩ := h
    simpa using List.eq_replicate_of_mem hnone

/-- Settles O29: the counts hold for either switch, and slot 0 stays occupied under `lo`. -/
theorem oneSlotRemains : Obligations.OneSlotRemains := by
  intro items hne
  obtain ⟨hlen, x, hx⟩ := slots_iterate_lo hne (le_refl (items.length - 1))
  refine ⟨?_, (finished_buildWork .lo hne).rootOf_eq, fun k hk => (grown_iterate .lo hk).2.2⟩
  rw [slots_eq_of_filterMap hx (finished_iterate .lo hne).occupied, hlen]

/-! ### BUILD (R110, R111, R118) -/

/-- The state BUILD leaves from a table with entries. -/
def built (s : State) : State :=
  { s with
    node := (buildWork s.cfg.mergeSlot s.ft).nodes, treePresent := true, root := 2 * s.nft - 2, nleaf := s.nft
    nnode := 2 * s.nft - 1, ft := [], nft := 0, total := 0, ct := [], nct := 0, ctValid := false
    outbox := s.outbox ++ [0x00 :: beBytes s.cfg.nodeB (2 * s.nft - 2)] }

theorem exec_build_eq_built {s : State} (hmode : s.mode = .idle) (hft : s.ft ≠ []) (hnft : s.nft = s.ft.length) :
    exec .build s = .next (built s) := by
  have hfin := finished_buildWork s.cfg.mergeSlot hft
  have hpos := List.length_pos_iff.2 hft
  rw [exec_build hmode (by omega), hfin.rootOf_eq, hfin.length_nodes, ← hnft]
  rfl

/-- Settles O32: the work of BUILD is finished. -/
theorem buildMakesTheTree : Obligations.BuildMakesTheTree := by
  intro s hmode hft hnft
  have hfin := finished_buildWork s.cfg.mergeSlot hft
  refine ⟨_, exec_build_eq_built hmode hft hnft, by rw [hfin.length_nodes, hnft], hfin.grown.leaf, ?_⟩
  rw [buildWork, merges_eq_iterate]

end Sys2Proof.Machine

/-! ## Proofs: tree values (R23, R26, R131 to R133, R176) -/

namespace Sys2Proof.Machine

namespace HuffTree

/-! ### Counting leaves and Internal nodes -/

theorem leaves_ne_nil (t : HuffTree) : t.leaves ≠ [] := by
  induction t with
  | leaf s f => simp [leaves]
  | node f l r ihl _ => simp [leaves, ihl]

theorem length_leaves (t : HuffTree) : t.leaves.length = t.internalFreqs.length + 1 := by
  induction t with
  | leaf s f => rfl
  | node f l r ihl ihr => simp [leaves, internalFreqs, ihl, ihr]; omega

theorem height_le_length_internalFreqs (t : HuffTree) : t.height ≤ t.internalFreqs.length := by
  induction t with
  | leaf s f => rfl
  | node f l r ihl ihr => simp [height, internalFreqs]; omega

/-- The number of nodes. -/
def size : HuffTree → Nat
  | .leaf _ _ => 1
  | .node _ l r => l.size + r.size + 1

theorem size_pos (t : HuffTree) : 0 < t.size := by cases t <;> simp [size]

/-! ### Sums (R26 (a), R176) -/

theorem summed_node_iff (f : Nat) (l r : HuffTree) :
    (HuffTree.node f l r).summed = true ↔ f = l.freq + r.freq ∧ l.summed = true ∧ r.summed = true := by
  simp [summed, and_assoc]

/-- With sums everywhere the root's frequency is the sum of the leaves'. -/
theorem sum_leaves {t : HuffTree} (h : t.summed = true) : (t.leaves.map Prod.snd).sum = t.freq := by
  induction t with
  | leaf s f => rfl
  | node f l r ihl ihr =>
    obtain ⟨rfl, hl, hr⟩ := (summed_node_iff f l r).1 h
    simp [leaves, freq, ihl hl, ihr hr]

/-- With sums everywhere the weighted path length is the sum of the Internal frequencies. -/
theorem weightFrom_eq {t : HuffTree} (h : t.summed = true) (d : Nat) :
    t.weightFrom d = t.freq * d + t.internalFreqs.sum := by
  induction t generalizing d with
  | leaf s f => simp [weightFrom, freq, internalFreqs]
  | node f l r ihl ihr =>
    obtain ⟨rfl, hl, hr⟩ := (summed_node_iff f l r).1 h
    simp only [weightFrom, ihl hl, ihr hr, freq, internalFreqs, List.sum_cons, List.sum_append]
    ring

theorem weight_eq {t : HuffTree} (h : t.summed = true) : t.weight = t.internalFreqs.sum := by
  rw [weight, weightFrom_eq h]
  omega

/-! ### Codes (R132, R133) -/

theorem map_fst_codes (t : HuffTree) : t.codes.map Prod.fst = t.leaves.map Prod.fst := by
  induction t with
  | leaf s f => rfl
  | node f l r ihl ihr => simp [codes, leaves, ← ihl, ← ihr, Function.comp_def]

theorem length_codes (t : HuffTree) : t.codes.length = t.leaves.length := by
  simpa using congrArg List.length (map_fst_codes t)

/-- The subtree a digit leads to: '0' left, '1' right (R151). -/
def branch : Digit → HuffTree → HuffTree → HuffTree
  | .zero, l, _ => l
  | .one, _, r => r

/-- The first digit of a code says in which subtree its leaf is. -/
theorem mem_codes_node {f : Nat} {l r : HuffTree} {x : Symbol} {c : Digits} :
    (x, c) ∈ (HuffTree.node f l r).codes ↔ ∃ d code, c = d :: code ∧ (x, code) ∈ (branch d l r).codes := by
  simp only [codes, List.mem_append, List.mem_map, Prod.mk.injEq]
  constructor
  · rintro (⟨e, he, rfl, rfl⟩ | ⟨e, he, rfl, rfl⟩)
    · exact ⟨.zero, e.2, rfl, he⟩
    · exact ⟨.one, e.2, rfl, he⟩
  · rintro ⟨_ | _, code, rfl, h⟩
    · exact .inl ⟨_, h, rfl, rfl⟩
    · exact .inr ⟨_, h, rfl, rfl⟩

theorem mem_codes_leaf {s x : Symbol} {f : Nat} {c : Digits} :
    (x, c) ∈ (HuffTree.leaf s f).codes ↔ x = s ∧ c = [] := by
  simp [codes]

/-- No code begins another: two leaves on one path are the same leaf (R133 (a)). -/
theorem eq_of_codes_isPrefix {t : HuffTree} {x y : Symbol} {c c' : Digits} (h : (x, c) ∈ t.codes)
    (h' : (y, c') ∈ t.codes) (hp : c <+: c') : x = y ∧ c = c' := by
  induction t generalizing c c' with
  | leaf s f =>
    obtain ⟨rfl, rfl⟩ := mem_codes_leaf.1 h
    obtain ⟨rfl, rfl⟩ := mem_codes_leaf.1 h'
    exact ⟨rfl, rfl⟩
  | node f l r ihl ihr =>
    obtain ⟨d, code, rfl, hx⟩ := mem_codes_node.1 h
    obtain ⟨d', code', rfl, hy⟩ := mem_codes_node.1 h'
    obtain ⟨rfl, hcode⟩ := List.cons_prefix_cons.1 hp
    cases d with
    | zero => simpa using ihl hx hy hcode
    | one => simpa using ihr hx hy hcode

theorem length_le_height {t : HuffTree} {x : Symbol} {c : Digits} (h : (x, c) ∈ t.codes) : c.length ≤ t.height := by
  induction t generalizing c with
  | leaf s f => simp [(mem_codes_leaf.1 h).2]
  | node f l r ihl ihr =>
    obtain ⟨d, code, rfl, hx⟩ := mem_codes_node.1 h
    cases d with
    | zero => have := ihl hx; simp [height]; omega
    | one => have := ihr hx; simp [height]; omega

theorem exists_mem_codes (t : HuffTree) : ∃ x c, (x, c) ∈ t.codes := by
  cases hcodes : t.codes with
  | nil => exact absurd (List.length_eq_zero_iff.1 (t.length_codes ▸ congrArg List.length hcodes)) t.leaves_ne_nil
  | cons e codes => exact ⟨e.1, e.2, List.mem_cons_self ..⟩

/-- Every digit string begins with a code, or ends inside one. -/
theorem code_isPrefix_or_within (t : HuffTree) (ds : Digits) :
    (∃ x c, (x, c) ∈ t.codes ∧ c <+: ds) ∨ (∃ x c, (x, c) ∈ t.codes ∧ ds <+: c ∧ ds ≠ c) := by
  induction t generalizing ds with
  | leaf s f => exact .inl ⟨s, [], by simp [codes], List.nil_prefix⟩
  | node f l r ihl ihr =>
    cases ds with
    | nil =>
      obtain ⟨x, c, h⟩ := (HuffTree.node f l r).exists_mem_codes
      obtain ⟨d, code, rfl, -⟩ := mem_codes_node.1 h
      exact .inr ⟨x, _, h, List.nil_prefix, nofun⟩
    | cons d ds =>
      have ih : (∃ x c, (x, c) ∈ (branch d l r).codes ∧ c <+: ds) ∨
          (∃ x c, (x, c) ∈ (branch d l r).codes ∧ ds <+: c ∧ ds ≠ c) := by
        cases d with
        | zero => exact ihl ds
        | one => exact ihr ds
      obtain ⟨x, c, h, hp⟩ | ⟨x, c, h, hp, hne⟩ := ih
      · exact .inl ⟨x, d :: c, mem_codes_node.2 ⟨d, c, rfl, h⟩, List.cons_prefix_cons.2 ⟨rfl, hp⟩⟩
      · exact .inr ⟨x, d :: c, mem_codes_node.2 ⟨d, c, rfl, h⟩, List.cons_prefix_cons.2 ⟨rfl, hp⟩, by simpa using hne⟩

/-- A digit string as long as the tree is high begins with a code (R133 (d)). -/
theorem exists_code_isPrefix {t : HuffTree} {ds : Digits} (h : t.height ≤ ds.length) :
    ∃ x c, (x, c) ∈ t.codes ∧ c <+: ds := by
  obtain hcode | ⟨x, c, hc, hp, hne⟩ := t.code_isPrefix_or_within ds
  · exact hcode
  · exact absurd (hp.eq_of_length_le ((length_le_height hc).trans h)) hne

end HuffTree

/-! ### The tree at an index (R23) -/

/-- The children of every record stand below it. -/
def Descending (nodes : List Node) : Prop :=
  ∀ (i f l r : Nat), nodes[i]? = some (.internal f l r) → l < i ∧ r < i

/-- The tree value at an index; the leaf given where there is none plays no part. -/
def subtree (nodes : List Node) (i : Nat) : HuffTree := (treeAt nodes (i + 1) i).getD (.leaf [] 0)

section

variable {nodes : List Node} (hdesc : Descending nodes) {i f l r : Nat} {sym : Symbol}
include hdesc

/-- Above the index the bound on the levels does not matter. -/
theorem treeAt_congr {k k' : Nat} (hk : i < k) (hk' : i < k') : treeAt nodes k i = treeAt nodes k' i := by
  induction i using Nat.strong_induction_on generalizing k k' with
  | _ i ih =>
    obtain ⟨k, rfl⟩ := Nat.exists_eq_add_of_lt hk
    obtain ⟨k', rfl⟩ := Nat.exists_eq_add_of_lt hk'
    cases hn : nodes[i]? with
    | none => simp [treeAt, hn]
    | some n =>
      cases n with
      | leaf s f => simp [treeAt, hn]
      | internal f l r =>
        obtain ⟨hl, hr⟩ := hdesc i f l r hn
        simp only [treeAt, hn, ih l hl (k := i + k) (k' := i + k') (by omega) (by omega),
          ih r hr (k := i + k) (k' := i + k') (by omega) (by omega)]

/-- Every record is the root of a tree value. -/
theorem treeAt_eq_subtree {k : Nat} (hk : i < k) (hi : i < nodes.length) :
    treeAt nodes k i = some (subtree nodes i) := by
  induction i using Nat.strong_induction_on generalizing k with
  | _ i ih =>
    have hsome : ∃ t, treeAt nodes (i + 1) i = some t := by
      have hn := List.getElem?_eq_getElem hi
      cases hrec : nodes[i] with
      | leaf s f => exact ⟨.leaf s f, by simp [treeAt, hn, hrec]⟩
      | internal f l r =>
        rw [hrec] at hn
        obtain ⟨hl, hr⟩ := hdesc i f l r hn
        exact ⟨.node f (subtree nodes l) (subtree nodes r),
          by simp only [treeAt, hn, ih l hl hl (hl.trans hi), ih r hr hr (hr.trans hi)]⟩
    obtain ⟨t, ht⟩ := hsome
    rw [treeAt_congr hdesc hk (Nat.lt_succ_self i), subtree, ht]
    rfl

omit hdesc in
theorem subtree_of_leaf (h : nodes[i]? = some (.leaf sym f)) : subtree nodes i = .leaf sym f := by
  simp [subtree, treeAt, h]

theorem subtree_of_internal (h : nodes[i]? = some (.internal f l r)) :
    subtree nodes i = .node f (subtree nodes l) (subtree nodes r) := by
  obtain ⟨hl, hr⟩ := hdesc i f l r h
  have hi : i < nodes.length := (List.getElem?_eq_some_iff.1 h).1
  have htree : treeAt nodes (i + 1) i = some (.node f (subtree nodes l) (subtree nodes r)) := by
    simp only [treeAt, h, treeAt_eq_subtree hdesc hl (hl.trans hi), treeAt_eq_subtree hdesc hr (hr.trans hi)]
  rw [subtree, htree]
  rfl

theorem freq_subtree (hi : i < nodes.length) : (subtree nodes i).freq = freqAt nodes i := by
  have hn := List.getElem?_eq_getElem hi
  rw [freqAt, readNode_of_getElem? hn]
  cases hrec : nodes[i] with
  | leaf s f => rw [subtree_of_leaf (hrec ▸ hn)]; rfl
  | internal f l r => rw [subtree_of_internal hdesc (hrec ▸ hn)]; rfl

/-- Sums in the records are sums in the tree value (R26 (a)). -/
theorem summed_subtree (hi : i < nodes.length)
    (hsum : ∀ (i f l r : Nat), nodes[i]? = some (.internal f l r) → f = freqAt nodes l + freqAt nodes r) :
    (subtree nodes i).summed = true := by
  induction i using Nat.strong_induction_on with
  | _ i ih =>
    have hn := List.getElem?_eq_getElem hi
    cases hrec : nodes[i] with
    | leaf s f => rw [subtree_of_leaf (hrec ▸ hn)]; rfl
    | internal f l r =>
      rw [hrec] at hn
      obtain ⟨hl, hr⟩ := hdesc i f l r hn
      rw [subtree_of_internal hdesc hn, HuffTree.summed_node_iff, freq_subtree hdesc (hl.trans hi),
        freq_subtree hdesc (hr.trans hi)]
      exact ⟨hsum i f l r hn, ih l hl (hl.trans hi), ih r hr (hr.trans hi)⟩

/-! ### Sums over a tree as sums over the records (R26 (c)) -/

variable {M : Type} [AddCommMonoid M]

/-- A quantity that adds up over a tree: its part at a record, and the whole at a tree value. -/
structure Additive (atNode : Node → M) (total : HuffTree → M) : Prop where
  leaf : ∀ s f, total (.leaf s f) = atNode (.leaf s f)
  node : ∀ f (l r : Nat) a b, total (.node f a b) = atNode (.internal f l r) + (total a + total b)

/-- Over the first `k` records: the totals of their trees are their own parts and the totals of the children's trees. -/
theorem sum_subtree_range {atNode : Node → M} {total : HuffTree → M} (hadd : Additive atNode total) {k : Nat}
    (hk : k ≤ nodes.length) :
    ((List.range k).map fun i => total (subtree nodes i)).sum =
      ((nodes.take k).map atNode).sum + ((childIndices (nodes.take k)).map fun i => total (subtree nodes i)).sum := by
  induction k with
  | zero => simp [childIndices]
  | succ k ih =>
    have hlt : k < nodes.length := hk
    have hn := List.getElem?_eq_getElem hlt
    have htotal : total (subtree nodes k) = atNode nodes[k] +
        ((childIndices [nodes[k]]).map fun i => total (subtree nodes i)).sum := by
      cases hrec : nodes[k] with
      | leaf s f => simp [subtree_of_leaf (hrec ▸ hn), hadd.leaf, childIndices]
      | internal f l r => simp [subtree_of_internal hdesc (hrec ▸ hn), hadd.node f l r, childIndices]
    rw [List.range_succ, List.take_succ_eq_append_getElem hlt, childIndices_append]
    simp only [List.map_append, List.sum_append, ih hlt.le, htotal, List.map_singleton, List.sum_singleton]
    abel

end

/-- The trees whose roots are given own all the records: every other index is the child of exactly one record. -/
theorem sum_subtree_roots {M : Type} [AddCancelCommMonoid M] {nodes : List Node} (hdesc : Descending nodes)
    {atNode : Node → M} {total : HuffTree → M} (hadd : Additive atNode total) {roots : List Nat}
    (howned : (roots ++ childIndices nodes).Perm (List.range nodes.length)) :
    (roots.map fun i => total (subtree nodes i)).sum = (nodes.map atNode).sum := by
  have hrange := sum_subtree_range hdesc hadd (le_refl nodes.length)
  rw [List.take_length, ← (howned.map _).sum_eq, List.map_append, List.sum_append] at hrange
  exact add_right_cancel hrange

end Sys2Proof.Machine

/-! ## Proofs: sound trees and the tree BUILD makes (R25, R26, R119) -/

namespace Sys2Proof.Machine

/-! ### What adds up over a tree -/

/-- The entry of a record: one for a Leaf, none for an Internal record. -/
def entryOf : Node → Multiset (Symbol × Nat)
  | .leaf s f => {(s, f)}
  | .internal _ _ _ => 0

/-- The frequency of an Internal record, 0 for a Leaf. -/
def internalFreq : Node → Nat
  | .leaf _ _ => 0
  | .internal f _ _ => f

theorem additive_leaves : Additive entryOf (fun t => (t.leaves : Multiset (Symbol × Nat))) where
  leaf _ _ := rfl
  node _ _ _ _ _ := by simp [entryOf, HuffTree.leaves]

theorem additive_internalFreqs : Additive internalFreq (fun t => t.internalFreqs.sum) where
  leaf _ _ := rfl
  node _ _ _ _ _ := by simp [internalFreq, HuffTree.internalFreqs]

theorem additive_size : Additive (fun _ => 1) HuffTree.size where
  leaf _ _ := rfl
  node _ _ _ _ _ := by simp [HuffTree.size]; omega

theorem sum_map_entryOf (nodes : List Node) : (nodes.map entryOf).sum = leafEntries nodes := by
  induction nodes with
  | nil => rfl
  | cons n nodes ih =>
    cases n with
    | leaf s f => rw [List.map_cons, List.sum_cons, ih]; rfl
    | internal f l r => rw [List.map_cons, List.sum_cons, ih, entryOf, zero_add]; rfl

theorem HuffTree.size_eq (t : HuffTree) : t.size = t.leaves.length + t.internalFreqs.length := by
  induction t with
  | leaf s f => rfl
  | node f l r ihl ihr => simp [size, leaves, internalFreqs, ihl, ihr]; omega

/-! ### Sound trees -/

section

variable {s : State}

/-- The tree value of the records of a state, without a bound on the levels. -/
def treeOf (s : State) : HuffTree := subtree s.node s.root

variable (hinv : TreeInv s) (hpresent : s.treePresent = true)
include hinv hpresent

theorem length_node : s.node.length = 2 * s.nleaf - 1 := by
  rw [hinv.records, (hinv.present hpresent).nnode]

theorem root_eq : s.root = 2 * s.nleaf - 2 := by
  rw [(hinv.present hpresent).root, (hinv.present hpresent).nnode]
  omega

theorem length_node_eq_root_add_one : s.node.length = s.root + 1 := by
  have := (hinv.present hpresent).nleaf_pos
  rw [length_node hinv hpresent, root_eq hinv hpresent]
  omega

theorem root_lt_length : s.root < s.node.length := by
  rw [length_node_eq_root_add_one hinv hpresent]
  exact Nat.lt_succ_self _

/-- A record is Internal exactly when it does not stand among the leaves. -/
theorem nleaf_le_of_internal {i f l r : Nat} (h : s.node[i]? = some (.internal f l r)) : s.nleaf ≤ i := by
  by_contra hlt
  obtain ⟨sym, g, hleaf, -⟩ := (hinv.present hpresent).leaves i (not_le.1 hlt)
  simp [h] at hleaf

theorem internal_facts {i f l r : Nat} (h : s.node[i]? = some (.internal f l r)) :
    l < i ∧ r < i ∧ f = freqAt s.node l + freqAt s.node r := by
  have hlt : i < s.nnode := hinv.records ▸ (List.getElem?_eq_some_iff.1 h).1
  obtain ⟨f', l', r', h', hfacts⟩ :=
    (hinv.present hpresent).internals i (nleaf_le_of_internal hinv hpresent h) hlt
  obtain ⟨rfl, rfl, rfl⟩ : f = f' ∧ l = l' ∧ r = r' := by simpa [h] using h'
  exact hfacts

theorem descending : Descending s.node := fun _ _ _ _ h =>
  have hfacts := internal_facts hinv hpresent h
  ⟨hfacts.1, hfacts.2.1⟩

theorem owned_root : ([s.root] ++ childIndices s.node).Perm (List.range s.node.length) := by
  rw [length_node_eq_root_add_one hinv hpresent, List.range_succ]
  exact List.perm_append_comm.trans ((hinv.present hpresent).children.append_right _)

theorem currentTree_eq : currentTree s = some (treeOf s) := by
  rw [currentTree, if_pos hpresent, ← hinv.records]
  exact treeAt_eq_subtree (descending hinv hpresent) (root_lt_length hinv hpresent) (root_lt_length hinv hpresent)

theorem leaves_treeOf_perm : (treeOf s).leaves.Perm (leafEntries s.node) := by
  rw [← Multiset.coe_eq_coe, ← sum_map_entryOf,
    ← sum_subtree_roots (descending hinv hpresent) additive_leaves (owned_root hinv hpresent)]
  simp [treeOf]

theorem internalFreqs_treeOf_sum : (treeOf s).internalFreqs.sum = (s.node.map internalFreq).sum := by
  rw [← sum_subtree_roots (descending hinv hpresent) additive_internalFreqs (owned_root hinv hpresent)]
  simp [treeOf]

theorem size_treeOf : (treeOf s).size = s.node.length := by
  have hsum := sum_subtree_roots (descending hinv hpresent) additive_size (owned_root hinv hpresent)
  simpa [treeOf] using hsum

/-- The tree has NLEAF leaves and one Internal node fewer (R25). -/
theorem length_leaves_treeOf : (treeOf s).leaves.length = s.nleaf ∧ (treeOf s).internalFreqs.length = s.nleaf - 1 := by
  have hsize := (treeOf s).size_eq
  have hleaves := (treeOf s).length_leaves
  rw [size_treeOf hinv hpresent, length_node hinv hpresent] at hsize
  have := (hinv.present hpresent).nleaf_pos
  omega

theorem summed_treeOf : (treeOf s).summed = true :=
  summed_subtree (descending hinv hpresent) (root_lt_length hinv hpresent) fun _ _ _ _ h =>
    (internal_facts hinv hpresent h).2.2

theorem height_treeOf : (treeOf s).height ≤ s.nleaf - 1 :=
  (treeOf s).height_le_length_internalFreqs.trans (length_leaves_treeOf hinv hpresent).2.le

/-- Different leaves have different Symbols (R26 (d)). -/
theorem nodup_symbols_treeOf : ((treeOf s).codes.map Prod.fst).Nodup := by
  have horder : ((leafEntries s.node).map Prod.fst).Nodup := by
    rw [List.Nodup, List.pairwise_map]
    exact (hinv.present hpresent).order.imp symLt_ne
  rw [HuffTree.map_fst_codes]
  exact ((leaves_treeOf_perm hinv hpresent).map Prod.fst).nodup_iff.2 horder

/-- No record's frequency is above the root's: going up from child to parent it does not fall. -/
theorem freqAt_le_root {i : Nat} (hi : i ≤ s.root) : freqAt s.node i ≤ freqAt s.node s.root := by
  induction hk : s.root - i using Nat.strong_induction_on generalizing i with
  | _ k ih =>
    obtain rfl | hlt := Nat.eq_or_lt_of_le hi
    · exact le_rfl
    · have hchild : i ∈ childIndices s.node :=
        (hinv.present hpresent).children.symm.subset (List.mem_range.2 hlt)
      obtain ⟨j, f, l, r, hj, hc⟩ := mem_childIndices.1 hchild
      obtain ⟨hl, hr, hf⟩ := internal_facts hinv hpresent hj
      have hjroot : j ≤ s.root := by
        have := (List.getElem?_eq_some_iff.1 hj).1
        rw [length_node_eq_root_add_one hinv hpresent] at this
        omega
      have hup : freqAt s.node i ≤ freqAt s.node j := by
        have hfj : freqAt s.node j = f := by rw [freqAt, readNode_of_getElem? hj]; rfl
        obtain rfl | rfl := hc <;> omega
      exact hup.trans (ih (s.root - j) (by omega) hjroot rfl)

end

/-! ### The tree BUILD makes (R119) -/

section

variable {s : State} (htable : TableInv s) (hne : s.ft ≠ [])
include htable hne

/-- The shape of the tree registers after BUILD. -/
theorem treeShape_built : TreeShape (built s) := by
  have hpos := List.length_pos_iff.2 hne
  have hnft := htable.nft
  obtain ⟨hgrown, hlen, hocc⟩ := finished_buildWork s.cfg.mergeSlot hne
  refine ⟨?_, htable.capacity, rfl, ?_, ?leaves, ?order, ?internals, ?children, ?bound⟩
  · change 1 ≤ s.nft
    omega
  · change 2 * s.nft - 2 = 2 * s.nft - 1 - 1
    omega
  case leaves =>
    intro i hi
    have hi : i < s.ft.length := hnft ▸ hi
    exact ⟨_, _, hgrown.leaf i _ (List.getElem?_eq_getElem hi), htable.symbols _ (List.getElem_mem hi),
      htable.counts _ (List.getElem_mem hi)⟩
  case order =>
    rw [show leafEntries (built s).node = s.ft from hgrown.entries]
    exact htable.sorted
  case internals =>
    intro i hi hi'
    have hi' : i < 2 * s.nft - 1 := hi'
    exact hgrown.internal i (hnft ▸ hi) (by omega)
  case children =>
    have howned := hgrown.owned
    rw [hocc, hlen, show 2 * s.ft.length - 1 = (2 * s.ft.length - 2) + 1 by omega, List.range_succ] at howned
    have hroot : (built s).root = 2 * s.ft.length - 2 := by rw [← hnft]; rfl
    rw [hroot]
    exact (List.perm_append_right_iff _).1 (List.perm_append_comm.trans howned)
  case bound =>
    have hsum := hgrown.sum
    rw [hocc, List.map_singleton, List.sum_singleton, ← htable.total, ← hnft] at hsum
    exact hsum.le.trans htable.bound

theorem treeInv_built : TreeInv (built s) where
  records := by
    rw [show (built s).node.length = 2 * s.ft.length - 1 from (finished_buildWork s.cfg.mergeSlot hne).length_nodes,
      ← htable.nft]
    rfl
  absent h := by cases h
  present _ := treeShape_built htable hne

theorem leaves_built_perm : (treeOf (built s)).leaves.Perm s.ft := by
  have hleaves := leaves_treeOf_perm (treeInv_built htable hne) rfl
  rwa [show leafEntries (built s).node = s.ft from (finished_buildWork s.cfg.mergeSlot hne).grown.entries] at hleaves

theorem freq_built : (treeOf (built s)).freq = s.total := by
  have hsummed := summed_treeOf (treeInv_built htable hne) rfl
  rw [← HuffTree.sum_leaves hsummed, ((leaves_built_perm htable hne).map _).sum_eq, htable.total]

end

/-- Settles O33: the facts about sound trees, and what the merges keep. -/
theorem builtTreeFacts : Obligations.BuiltTreeFacts := by
  intro s t hmode htable hne hexec
  cases (exec_build_eq_built hmode hne htable.nft).symm.trans hexec
  have hinv := treeInv_built htable hne
  obtain ⟨hgrown, hlen, -⟩ := finished_buildWork s.cfg.mergeSlot hne
  refine ⟨treeShape_built htable hne, fun i j hi hij hj => ?_, treeOf (built s), currentTree_eq hinv rfl,
    leaves_built_perm htable hne, htable.nft ▸ (length_leaves_treeOf hinv rfl).2, summed_treeOf hinv rfl,
    freq_built htable hne, htable.nft ▸ height_treeOf hinv rfl⟩
  have hi : s.nft ≤ i := hi
  have hj : j < 2 * s.nft - 1 := hj
  rw [htable.nft] at hi hj
  exact hgrown.monotone i j hi hij (by omega)

/-! ### Widths (R7, R20) -/

theorem two_mul_nMax_lt (c : Config) : 2 * c.nMax - 1 < 2 ^ c.nodeW := Nat.lt_log2_self

theorem maxCount_lt (c : Config) : c.maxCount < 2 ^ c.freqW := Nat.sub_lt (Nat.two_pow_pos _) one_pos

section

variable {s : State}

/-- The tree registers are within the capacity, without a tree too. -/
theorem tree_registers_le (hinv : TreeInv s) :
    s.nleaf ≤ s.cfg.nMax ∧ s.nnode ≤ 2 * s.cfg.nMax - 1 ∧ s.root ≤ 2 * s.cfg.nMax - 2 := by
  cases hpresent : s.treePresent with
  | false =>
    obtain ⟨hroot, hnleaf, hnnode⟩ := hinv.absent hpresent
    omega
  | true =>
    have hshape := hinv.present hpresent
    have hle := hshape.nleaf_le
    have hroot := root_eq hinv hpresent
    have hnnode := hshape.nnode
    omega

theorem nct_le (htree : TreeInv s) (hcodes : CodeInv s) : s.nct ≤ s.cfg.nMax := by
  have hzero (h : s.ct = []) : s.nct ≤ s.cfg.nMax := by simp [hcodes.nct, h]
  cases hvalid : s.ctValid with
  | false => exact hzero (hcodes.invalid hvalid)
  | true =>
    cases hpresent : s.treePresent with
    | false => exact hzero (hcodes.absent hvalid hpresent)
    | true => exact (hcodes.present hvalid hpresent).1.le.trans (tree_registers_le htree).1

theorem nodeFreq_le_maxCount (hinv : TreeInv s) {n : Node} (h : n ∈ s.node) : nodeFreq n ≤ s.cfg.maxCount := by
  obtain ⟨i, hi⟩ := List.mem_iff_getElem?.1 h
  have hlt := (List.getElem?_eq_some_iff.1 hi).1
  cases hpresent : s.treePresent with
  | false =>
    obtain ⟨-, -, hnnode⟩ := hinv.absent hpresent
    rw [hinv.records, hnnode] at hlt
    exact absurd hlt (Nat.not_lt_zero i)
  | true =>
    rw [length_node_eq_root_add_one hinv hpresent] at hlt
    have hroot := freqAt_le_root hinv hpresent (Nat.le_of_lt_succ hlt)
    rw [freqAt, readNode_of_getElem? hi] at hroot
    exact hroot.trans (hinv.present hpresent).bound

end

/-- Settles O21: indices are below 2 N_MAX, counts at most TOTAL, and frequencies at most the root's. -/
theorem registersFitTheirWidths : Obligations.RegistersFitTheirWidths := by
  intro s hinv
  have hnode := two_mul_nMax_lt s.cfg
  have hcount := maxCount_lt s.cfg
  obtain ⟨-, -, hnMax, -, -⟩ := hinv.config
  obtain ⟨hnleaf, hnnode, hroot⟩ := tree_registers_le hinv.tree
  have hnct := nct_le hinv.tree hinv.codes
  have hnft := hinv.table.capacity
  have hcur := hinv.sequence.cur
  refine ⟨by omega, by omega, by omega, by omega, by omega, by omega, hinv.table.bound.trans_lt hcount,
    fun e he => ?_, fun n hn => (nodeFreq_le_maxCount hinv.tree hn).trans_lt hcount⟩
  have hle : e.2 ≤ s.total := hinv.table.total ▸ List.le_sum_of_mem (List.mem_map_of_mem he)
  exact (hle.trans hinv.table.bound).trans_lt hcount

end Sys2Proof.Machine

/-! ## Proofs: DERIVE and the codes (R28, R130 to R133) -/

namespace Sys2Proof.Machine

/-! ### The traversal (R131) -/

/-- The codes of the tree at a node, each after the path to the node. -/
def codesFrom (nodes : List Node) (e : Nat × Digits) : List (Symbol × Digits) :=
  (subtree nodes e.1).codes.map fun c => (c.1, e.2 ++ c.2)

theorem codesFrom_of_leaf {nodes : List Node} {x f : Nat} {sym : Symbol} (h : nodes[x]? = some (.leaf sym f))
    (p : Digits) : codesFrom nodes (x, p) = [(sym, p)] := by
  simp [codesFrom, subtree_of_leaf h, HuffTree.codes]

theorem codesFrom_of_internal {nodes : List Node} (hdesc : Descending nodes) {x f l r : Nat}
    (h : nodes[x]? = some (.internal f l r)) (p : Digits) :
    codesFrom nodes (x, p) = codesFrom nodes (l, p ++ [.zero]) ++ codesFrom nodes (r, p ++ [.one]) := by
  simp [codesFrom, subtree_of_internal hdesc h, HuffTree.codes, Function.comp_def]

/-- With as many dequeues as the queued trees have nodes the traversal produces the codes of all their leaves. -/
theorem bfs_perm {nodes : List Node} (hdesc : Descending nodes) {k : Nat} {q : List (Nat × Digits)}
    (hq : ∀ e ∈ q, e.1 < nodes.length) (hk : (q.map fun e => (subtree nodes e.1).size).sum ≤ k) :
    (bfs nodes k q).Perm (q.flatMap (codesFrom nodes)) := by
  induction k generalizing q with
  | zero =>
    cases q with
    | nil => exact List.Perm.nil
    | cons e q =>
      have := (subtree nodes e.1).size_pos
      rw [List.map_cons, List.sum_cons] at hk
      omega
  | succ k ih =>
    cases q with
    | nil => exact List.Perm.nil
    | cons e q =>
      obtain ⟨x, p⟩ := e
      rw [List.forall_mem_cons] at hq
      have hx := List.getElem?_eq_getElem hq.1
      rw [List.map_cons, List.sum_cons] at hk
      rw [List.flatMap_cons]
      cases hrec : nodes[x]'hq.1 with
      | leaf sym f =>
        rw [hrec] at hx
        simp only [subtree_of_leaf hx, HuffTree.size] at hk
        rw [bfs, readNode_of_getElem? hx, codesFrom_of_leaf hx]
        exact (ih hq.2 (by omega)).cons _
      | internal f l r =>
        rw [hrec] at hx
        obtain ⟨hl, hr⟩ := hdesc x f l r hx
        simp only [subtree_of_internal hdesc hx, HuffTree.size] at hk
        rw [bfs, readNode_of_getElem? hx, codesFrom_of_internal hdesc hx]
        refine (ih (q := q ++ [(l, p ++ [.zero]), (r, p ++ [.one])]) ?_ ?_).trans ?_
        · simp only [List.forall_mem_append, List.forall_mem_cons]
          exact ⟨hq.2, hl.trans hq.1, hr.trans hq.1, nofun⟩
        · simp only [List.map_append, List.map_cons, List.map_nil, List.sum_append, List.sum_cons, List.sum_nil]
          omega
        · rw [List.flatMap_append, List.flatMap_cons, List.flatMap_singleton]
          exact List.perm_append_comm

/-! ### The table of distinct pairs (R130) -/

theorem lookup_foldl_store (pairs m : List (Symbol × Digits)) (hnodup : (pairs.map Prod.fst).Nodup) (k : Symbol)
    (c : Digits) :
    lookup (pairs.foldl (fun m e => store m e.1 e.2) m) k = some c ↔
      (k, c) ∈ pairs ∨ (k ∉ pairs.map Prod.fst ∧ lookup m k = some c) := by
  induction pairs generalizing m with
  | nil => simp
  | cons e pairs ih =>
    obtain ⟨x, d⟩ := e
    rw [List.map_cons, List.nodup_cons] at hnodup
    rw [List.foldl_cons, ih _ hnodup.2, lookup_store]
    by_cases hk : k = x
    · subst hk
      have hnot : (k, c) ∉ pairs := fun h => hnodup.1 (List.mem_map.2 ⟨_, h, rfl⟩)
      simp only [hnodup.1, hnot, not_false_eq_true, true_and, false_or, if_true, Option.some.injEq, List.mem_cons,
        Prod.mk.injEq, List.map_cons, not_true_eq_false, false_and, or_false, eq_comm]
    · simp [hk]

/-- The table of pairs with distinct Symbols reads as the pairs. -/
theorem lookup_tableOf {pairs : List (Symbol × Digits)} (hnodup : (pairs.map Prod.fst).Nodup) (k : Symbol)
    (c : Digits) : lookup (tableOf pairs) k = some c ↔ (k, c) ∈ pairs := by
  simp [tableOf, lookup_foldl_store _ _ hnodup]

theorem length_tableOf {pairs : List (Symbol × Digits)} (hnodup : (pairs.map Prod.fst).Nodup) :
    (tableOf pairs).length = pairs.length := by
  rw [length_eq_card_of_lookup (sorted_tableOf pairs) (pairs.map Prod.fst).toFinset fun k => ?_,
    List.toFinset_card_of_nodup hnodup, List.length_map]
  simp only [Option.ne_none_iff_exists', lookup_tableOf hnodup]
  simp

/-! ### DERIVE (R130, R132) -/

section

variable {s : State} (hinv : TreeInv s) (hpresent : s.treePresent = true)
include hinv hpresent

theorem bfs_root_perm : (bfs s.node s.nnode [(s.root, [])]).Perm (treeOf s).codes := by
  have hperm := bfs_perm (descending hinv hpresent) (k := s.nnode) (q := [(s.root, [])])
    (by simpa using root_lt_length hinv hpresent)
    (by simpa [hinv.records, treeOf] using (size_treeOf hinv hpresent).le)
  simpa [codesFrom, treeOf] using hperm

/-- The derived table holds the path of every leaf, and nothing else. -/
theorem derivedTable_facts : (derivedTable s).length = s.nleaf ∧
    ∀ sym code, lookup (derivedTable s) sym = some code ↔ (sym, code) ∈ (treeOf s).codes := by
  have hperm := bfs_root_perm hinv hpresent
  have hnodup := (hperm.map Prod.fst).nodup_iff.2 (nodup_symbols_treeOf hinv hpresent)
  rw [derivedTable, if_pos hpresent]
  refine ⟨?_, fun sym code => by rw [lookup_tableOf hnodup, hperm.mem_iff]⟩
  rw [length_tableOf hnodup, hperm.length_eq, HuffTree.length_codes, (length_leaves_treeOf hinv hpresent).1]

end

theorem derivedTable_of_absent {s : State} (h : s.treePresent = false) : derivedTable s = [] := by
  simp [derivedTable, h]

theorem length_derivedTable {s : State} (hinv : TreeInv s) : (derivedTable s).length = s.nleaf := by
  cases hpresent : s.treePresent with
  | false => rw [derivedTable_of_absent hpresent, (hinv.absent hpresent).2.1]; rfl
  | true => exact (derivedTable_facts hinv hpresent).1

/-- Settles O37: the traversal produces the leaves' paths, and the table of distinct Symbols reads as them. -/
theorem deriveGivesThePaths : Obligations.DeriveGivesThePaths := by
  intro s hmode hinv
  have hexec := exec_derive hmode
  rw [length_derivedTable hinv] at hexec
  exact ⟨derivedTable s, hexec, sorted_derivedTable s, length_derivedTable hinv, derivedTable_of_absent,
    fun hpresent => ⟨_, currentTree_eq hinv hpresent, (derivedTable_facts hinv hpresent).2⟩⟩

/-! ### Valid tables (R28, R133) -/

section

variable {s : State} (htree : TreeInv s) (hcodes : CodeInv s) (hvalid : s.ctValid = true)
include htree hcodes hvalid

/-- A valid table reads as the codes of the current tree. -/
theorem lookup_ct_iff (hpresent : s.treePresent = true) (sym : Symbol) (code : Digits) :
    lookup s.ct sym = some code ↔ (sym, code) ∈ (treeOf s).codes := by
  obtain ⟨-, t, ht, hlookup⟩ := hcodes.present hvalid hpresent
  obtain rfl : t = treeOf s := Option.some.inj (ht.symm.trans (currentTree_eq htree hpresent))
  exact hlookup sym code

end

/-- With two leaves or more no code is empty. -/
theorem code_ne_nil {s : State} (hinv : TreeInv s) (hpresent : s.treePresent = true) (hn : 2 ≤ s.nleaf) {x : Symbol}
    {c : Digits} (h : (x, c) ∈ (treeOf s).codes) : c ≠ [] := by
  cases htr : treeOf s with
  | leaf sym f =>
    have hleaves := (length_leaves_treeOf hinv hpresent).1
    simp [htr, HuffTree.leaves] at hleaves
    omega
  | node f l r =>
    rw [htr] at h
    obtain ⟨d, code, rfl, -⟩ := HuffTree.mem_codes_node.1 h
    exact nofun

/-- Settles O38: the codes are the paths of the tree's leaves. -/
theorem codesFormACompletePrefixCode : Obligations.CodesFormACompletePrefixCode := by
  intro s hinv hvalid hpresent
  have hct := lookup_ct_iff hinv.tree hinv.codes hvalid hpresent
  have hheight := height_treeOf hinv.tree hpresent
  have hbound {a : Symbol} {ca : Digits} (h : lookup s.ct a = some ca) : ca.length ≤ s.nleaf - 1 :=
    (HuffTree.length_le_height ((hct a ca).1 h)).trans hheight
  refine ⟨(hinv.codes.present hvalid hpresent).1, ?prefixFree, ?bounds, ?single, ?complete⟩
  case prefixFree =>
    intro a b ca cb ha hb hne hp
    exact hne (HuffTree.eq_of_codes_isPrefix ((hct a ca).1 ha) ((hct b cb).1 hb) hp).1
  case bounds =>
    intro hn a ca ha
    exact ⟨List.length_pos_iff.2 (code_ne_nil hinv.tree hpresent hn ((hct a ca).1 ha)), hbound ha⟩
  case single =>
    intro hn a ca ha
    have := hbound ha
    exact List.length_eq_zero_iff.1 (by omega)
  case complete =>
    intro ds hds
    obtain ⟨a, ca, hmem, hp⟩ := HuffTree.exists_code_isPrefix (hheight.trans hds)
    exact ⟨a, ca, (hct a ca).2 hmem, hp⟩

end Sys2Proof.Machine

/-! ## Proofs: the invariant (R22, R25, R26, R28, R29, R30, R32, R153) -/

namespace Sys2Proof.Machine

variable {s t : State}

/-! ### The tree -/

theorem treeShape_of_same (hs : TreeShape s) (hsame : SameTree s t) (hcfg : t.cfg = s.cfg) : TreeShape t := by
  obtain ⟨hnode, -, hroot, hnleaf, hnnode⟩ := hsame
  obtain ⟨h1, h2, h3, h4, h5, h6, h7, h8, h9⟩ := hs
  constructor <;> simp only [hnode, hroot, hnleaf, hnnode, hcfg] <;> assumption

theorem treeInv_of_same (hs : TreeInv s) (hsame : SameTree s t) (hcfg : t.cfg = s.cfg) : TreeInv t := by
  obtain ⟨hnode, hpresent, hroot, hnleaf, hnnode⟩ := hsame
  refine ⟨by rw [hnode, hnnode, hs.records], fun h => ?_, fun h => ?_⟩
  · rw [hroot, hnleaf, hnnode]
    exact hs.absent (hpresent ▸ h)
  · exact treeShape_of_same (hs.present (hpresent ▸ h)) ⟨hnode, hpresent, hroot, hnleaf, hnnode⟩ hcfg

theorem treeInv_of_noTree (h : NoTree t) : TreeInv t := by
  obtain ⟨hnode, hpresent, hroot, hnleaf, hnnode⟩ := h
  exact ⟨by rw [hnode, hnnode]; rfl, fun _ => ⟨hroot, hnleaf, hnnode⟩, fun h => by simp [hpresent] at h⟩

/-- BUILD makes a sound tree of a sound table, or none of the empty one. -/
theorem treeInv_build (hmode : s.mode = .idle) (htable : TableInv s) (hexec : exec .build s = .next t) :
    TreeInv t := by
  by_cases hft : s.ft = []
  · have hnft : s.nft = 0 := by rw [htable.nft, hft]; rfl
    cases (buildOfNothingIsAbsent s hmode hft hnft).symm.trans hexec
    exact treeInv_of_noTree ⟨rfl, rfl, rfl, rfl, rfl⟩
  · cases (exec_build_eq_built hmode hft htable.nft).symm.trans hexec
    exact treeInv_built htable hft

theorem treeInv_exec {i : Instr} (htable : TableInv s) (htree : TreeInv s) (hexec : exec i s = .next t) :
    TreeInv t := by
  obtain ⟨hsame, -⟩ | ⟨-, hno | ⟨rfl, hmode⟩⟩ := stores_exec_cases hexec
  · exact treeInv_of_same htree hsame (frame_exec hexec).cfg
  · exact treeInv_of_noTree hno
  · exact treeInv_build hmode htable hexec

/-! ### The codes -/

theorem currentTree_of_same (hsame : SameTree s t) : currentTree t = currentTree s := by
  obtain ⟨hnode, hpresent, hroot, -, hnnode⟩ := hsame
  rw [currentTree, currentTree, hnode, hpresent, hroot, hnnode]

theorem codeInv_of_noCodes (h : NoCodes t) : CodeInv t := by
  obtain ⟨hct, hnct, hvalid⟩ := h
  constructor <;> simp [hct, hnct, hvalid]

theorem codeInv_of_same (hs : CodeInv s) (hcodes : SameCodes s t) (htree : SameTree s t) : CodeInv t := by
  have hcurrent := currentTree_of_same htree
  obtain ⟨hct, hnct, hvalid⟩ := hcodes
  obtain ⟨-, hpresent, -, hnleaf, -⟩ := htree
  obtain ⟨h1, h2, h3, h4, h5⟩ := hs
  constructor <;> simp only [hct, hnct, hvalid, hpresent, hnleaf, hcurrent] <;> assumption

/-- A derived table is sound: the paths of the leaves, and nothing without a tree. -/
theorem codeInv_of_derived (hs : TreeInv s) (hderived : Derived s t) (htree : SameTree s t) : CodeInv t := by
  have hcurrent := currentTree_of_same htree
  obtain ⟨hct, hnct, hvalid⟩ := hderived
  obtain ⟨-, hpresent, -, hnleaf, -⟩ := htree
  constructor <;> simp only [hct, hnct, hvalid, hpresent, hnleaf, hcurrent]
  case sorted => exact sorted_derivedTable s
  case invalid => exact nofun
  case absent => exact fun _ => derivedTable_of_absent
  case present =>
    intro _ hpresent
    obtain ⟨hlength, hlookup⟩ := derivedTable_facts hs hpresent
    exact ⟨hlength, _, currentTree_eq hs hpresent, hlookup⟩

theorem codeInv_exec {i : Instr} (htree : TreeInv s) (hcodes : CodeInv s) (hexec : exec i s = .next t) : CodeInv t := by
  obtain ⟨hsame, hcases⟩ | ⟨hno, -⟩ := stores_exec_cases hexec
  · obtain h | h | h := hcases
    · exact codeInv_of_same hcodes h hsame
    · exact codeInv_of_noCodes h
    · exact codeInv_of_derived htree h hsame
  · exact codeInv_of_noCodes hno

/-! ### The sequencing registers -/

theorem SequenceInv.quiet (h : SequenceInv s) (hmode : s.mode ≠ .fault) : s.fcause = 0 ∧ s.fcmd = 0 :=
  ⟨not_not.1 fun hne => hmode (h.fault.2 hne), h.noFault hmode⟩

theorem sequenceInv_of_quiet (hmode : t.mode ≠ .fault) (hquiet : t.fcause = 0 ∧ t.fcmd = 0)
    (henc : t.mode = .enc → t.ctValid = true) (hdec : t.mode = .dec → t.treePresent = true ∧
      (t.cur = t.root ∨ ∃ f l r, t.node[t.cur]? = some (.internal f l r))) (hcur : t.cur ≤ 2 * t.cfg.nMax - 2) :
    SequenceInv t where
  fault := ⟨fun h => absurd h hmode, fun h => absurd hquiet.1 h⟩
  noFault _ := hquiet.2
  encode := henc
  decode h := (hdec h).1
  walk h := (hdec h).2
  cur := hcur

theorem sequenceInv_of_idle (hmode : t.mode = .idle) (hquiet : t.fcause = 0 ∧ t.fcmd = 0)
    (hcur : t.cur ≤ 2 * t.cfg.nMax - 2) : SequenceInv t :=
  sequenceInv_of_quiet (by simp [hmode]) hquiet (by simp [hmode]) (by simp [hmode]) hcur

theorem sequenceInv_answered (h : SequenceInv s) (p : Packet) : SequenceInv (answered p s) :=
  ⟨h.fault, h.noFault, h.encode, h.decode, h.walk, h.cur⟩

/-- The codes of the causes are not the 0 of a register without a fault (R201). -/
theorem code_ne_zero (c : Cause) : c.code ≠ 0 := by cases c <;> decide

theorem sequenceInv_faulted (h : SequenceInv s) (c : Cause) (m : Byte) : SequenceInv (faulted c.code m s) :=
  ⟨⟨fun _ => code_ne_zero c, fun _ => rfl⟩, fun h => absurd rfl h, nofun, nofun, nofun, h.cur⟩

theorem sequenceInv_faultEntry (h : SequenceInv s) (c : Cause) (m : Byte) : SequenceInv (faultEntry c m s) :=
  sequenceInv_faulted h c m

theorem sequenceInv_refuse (h : SequenceInv s) (c : Cause) (m : Byte) : SequenceInv (refuse c m s) := by
  by_cases hmode : s.mode = .fault
  · rw [refuse_of_fault hmode]; exact sequenceInv_answered h _
  · rw [refuse_of_not_fault hmode]; exact sequenceInv_faulted h c m

/-- The child of an Internal record is a record below it. -/
theorem child_lt (hinv : TreeInv s) (hpresent : s.treePresent = true) {i f l r : Nat}
    (h : s.node[i]? = some (.internal f l r)) (d : Digit) : child d l r < i := by
  obtain ⟨hl, hr, -⟩ := internal_facts hinv hpresent h
  cases d
  · exact hl
  · exact hr

theorem sequenceInv_arrive (hinv : Inv s) (hmode : s.mode = .dec) {f l r : Nat}
    (hnode : s.node[s.cur]? = some (.internal f l r)) (d : Digit) : SequenceInv (arrive (child d l r) s) := by
  have hseq := hinv.sequence
  have hpresent := hseq.decode hmode
  have hquiet := hseq.quiet (by simp [hmode])
  have hlt := child_lt hinv.tree hpresent hnode d
  have hlen := hlt.trans (List.getElem?_eq_some_iff.1 hnode).1
  have hrec := List.getElem?_eq_getElem hlen
  cases hchild : s.node[child d l r] with
  | leaf sym g =>
    rw [hchild] at hrec
    rw [arrive_of_leaf hrec]
    refine sequenceInv_of_quiet (by simp [hmode]) hquiet (by simp [hmode]) (fun _ => ⟨hpresent, .inl rfl⟩) ?_
    exact (tree_registers_le hinv.tree).2.2
  | internal g a b =>
    rw [hchild] at hrec
    rw [arrive_of_internal hrec]
    refine sequenceInv_of_quiet (by simp [hmode]) hquiet (by simp [hmode])
      (fun _ => ⟨hpresent, .inr ⟨g, a, b, hrec⟩⟩) ?_
    exact hlt.le.trans hseq.cur

/-- In a decode session CUR holds a record. -/
theorem cur_lt_length (hinv : Inv s) (hmode : s.mode = .dec) : s.cur < s.node.length := by
  obtain hroot | ⟨f, l, r, hnode⟩ := hinv.sequence.walk hmode
  · rw [hroot]
    exact root_lt_length hinv.tree (hinv.sequence.decode hmode)
  · exact (List.getElem?_eq_some_iff.1 hnode).1

theorem sequenceInv_ruleOf {i : Instr} (hinv : Inv s) (hacc : AcceptedIn i s.mode) : SequenceInv (ruleOf i s) := by
  have hseq := hinv.sequence
  cases i with
  | clear => exact sequenceInv_of_idle rfl ⟨rfl, rfl⟩ (Nat.zero_le _)
  | rdsr r =>
    simp only [ruleOf]
    split
    · exact sequenceInv_refuse hseq _ _
    · exact sequenceInv_answered hseq _
  | count sym =>
    have hmode : s.mode = .idle := hacc
    simp only [ruleOf]
    split_ifs
    · exact sequenceInv_faultEntry hseq _ _
    · exact sequenceInv_faultEntry hseq _ _
    · rw [countSym_eq]
      exact sequenceInv_of_idle hmode (hseq.quiet (by simp [hmode])) hseq.cur
  | items => exact sequenceInv_answered hseq _
  | build =>
    have hmode : s.mode = .idle := hacc
    exact sequenceInv_of_idle hmode (hseq.quiet (by simp [hmode])) hseq.cur
  | rdnode n =>
    simp only [ruleOf]
    split_ifs <;> exact sequenceInv_answered hseq _
  | derive =>
    have hmode : s.mode = .idle := hacc
    exact sequenceInv_of_idle hmode (hseq.quiet (by simp [hmode])) hseq.cur
  | rdcode sym =>
    simp only [ruleOf]
    split <;> exact sequenceInv_answered hseq _
  | encBegin =>
    have hmode : s.mode = .idle := hacc
    simp only [ruleOf]
    split_ifs with hvalid
    · exact sequenceInv_faultEntry hseq _ _
    · exact sequenceInv_of_quiet (by simp) (hseq.quiet (by simp [hmode])) (fun _ => by simpa using hvalid) (by simp)
        hseq.cur
  | encSym sym =>
    have hmode : s.mode = .enc := hacc
    simp only [ruleOf]
    split
    · exact sequenceInv_faultEntry hseq _ _
    · exact sequenceInv_of_quiet (by simp [hmode]) (hseq.quiet (by simp [hmode])) hseq.encode (by simp [hmode]) hseq.cur
  | encEnd =>
    have hmode : s.mode = .enc := hacc
    exact sequenceInv_of_idle rfl (hseq.quiet (by simp [hmode])) hseq.cur
  | decBegin =>
    have hmode : s.mode = .idle := hacc
    simp only [ruleOf]
    split_ifs with hpresent
    · exact sequenceInv_faultEntry hseq _ _
    · exact sequenceInv_of_quiet (by simp) (hseq.quiet (by simp [hmode])) (by simp)
        (fun _ => ⟨by simpa using hpresent, .inl rfl⟩) (tree_registers_le hinv.tree).2.2
  | decBit c =>
    have hmode : s.mode = .dec := hacc
    have hcur := List.getElem?_eq_getElem (cur_lt_length hinv hmode)
    simp only [ruleOf]
    split
    · exact sequenceInv_faultEntry hseq _ _
    · next d _ =>
      rw [readNode_of_getElem? hcur]
      cases hrec : s.node[s.cur]'(cur_lt_length hinv hmode) with
      | leaf sym f => exact sequenceInv_faultEntry hseq _ _
      | internal f l r => exact sequenceInv_arrive hinv hmode (hrec ▸ hcur) d
  | decEnd =>
    have hmode : s.mode = .dec := hacc
    simp only [ruleOf]
    split_ifs
    · exact sequenceInv_faultEntry hseq _ _
    · exact sequenceInv_of_idle rfl (hseq.quiet (by simp [hmode])) hseq.cur

theorem sequenceInv_exec {i : Instr} (hinv : Inv s) (hexec : exec i s = .next t) : SequenceInv t := by
  by_cases hacc : AcceptedIn i s.mode
  · cases (exec_of_acceptedIn hacc).symm.trans hexec
    exact sequenceInv_ruleOf hinv hacc
  · cases (exec_of_not_acceptedIn hacc).symm.trans hexec
    exact sequenceInv_refuse hinv.sequence _ _

/-! ### The whole invariant -/

/-- A well-formed command keeps the invariant, in every mode. -/
theorem inv_exec {i : Instr} (hi : WellFormed s.cfg i = true) (hinv : Inv s) (hexec : exec i s = .next t) : Inv t where
  config := (frame_exec hexec).cfg ▸ hinv.config
  table := tableInv_exec hi hinv.table hexec
  tree := treeInv_exec hinv.table hinv.tree hexec
  codes := codeInv_exec hinv.tree hinv.codes hexec
  sequence := sequenceInv_exec hinv hexec

theorem inv_of_cleared (hwf : t.cfg.wf) (h : t = { State.initial t.cfg with inbox := t.inbox, outbox := t.outbox }) :
    Inv t := by
  rw [h]
  exact ⟨hwf, tableInv_of_empty rfl rfl rfl, treeInv_of_noTree ⟨rfl, rfl, rfl, rfl, rfl⟩,
    codeInv_of_noCodes ⟨rfl, rfl, rfl⟩, sequenceInv_of_idle rfl ⟨rfl, rfl⟩ (Nat.zero_le _)⟩

/-- Settles O51. -/
theorem invAtReset : Obligations.InvAtReset :=
  ⟨fun _ h => inv_of_cleared h rfl, inv_of_cleared (by decide) rfl⟩

theorem inv_refuse (hinv : Inv s) (c : Cause) (m : Byte) : Inv (refuse c m s) := by
  obtain ⟨htree, htable, hcodes⟩ := same_refuse c m s
  have hcfg := (frame_refuse .items c m s).cfg
  exact ⟨hcfg ▸ hinv.config, tableInv_of_same hinv.table htable hcfg, treeInv_of_same hinv.tree htree hcfg,
    codeInv_of_same hinv.codes hcodes htree, sequenceInv_refuse hinv.sequence c m⟩

/-- The waiting events are no part of the invariant. -/
theorem inv_queue (hinv : Inv s) (q : List HostEvent) : Inv { s with inbox := q } :=
  have h := hinv.sequence
  ⟨hinv.config, tableInv_of_same hinv.table ⟨rfl, rfl, rfl⟩ rfl,
    treeInv_of_same hinv.tree ⟨rfl, rfl, rfl, rfl, rfl⟩ rfl,
    codeInv_of_same hinv.codes ⟨rfl, rfl, rfl⟩ ⟨rfl, rfl, rfl, rfl, rfl⟩,
    ⟨h.fault, h.noFault, h.encode, h.decode, h.walk, h.cur⟩⟩

/-- Settles O54: every well-formed command, every refusal and every clearing keeps the invariant. -/
theorem stepKeepsInv : Obligations.StepKeepsInv := fun _ _ hinv hstep =>
  step_keeps (fun _ q h => inv_queue h q) (fun _ _ _ hi h hexec => inv_exec hi h hexec)
    (fun c m _ h => inv_refuse h c m) (fun _ h => inv_of_cleared h.config rfl) hinv hstep

/-! ### Decode sessions (R153) -/

/-- ROOT is a Leaf exactly in the tree of one leaf. -/
theorem root_leaf_iff (hinv : TreeInv s) (hpresent : s.treePresent = true) :
    (∃ sym f, s.node[s.root]? = some (.leaf sym f)) ↔ s.nleaf = 1 := by
  have hshape := hinv.present hpresent
  have hroot := root_eq hinv hpresent
  have hpos := hshape.nleaf_pos
  constructor
  · rintro ⟨sym, f, hleaf⟩
    by_contra hne
    have hlt : s.root < s.nnode := hinv.records ▸ root_lt_length hinv hpresent
    obtain ⟨g, l, r, hnode, -⟩ := hshape.internals s.root (by omega) hlt
    simp [hleaf] at hnode
  · intro hone
    obtain ⟨sym, f, hnode, -⟩ := hshape.leaves s.root (by omega)
    exact ⟨sym, f, hnode⟩

/-- An Internal record means more than one leaf. -/
theorem nleaf_ne_one_of_internal (hinv : TreeInv s) (hpresent : s.treePresent = true) {i f l r : Nat}
    (h : s.node[i]? = some (.internal f l r)) : s.nleaf ≠ 1 := by
  have hge := nleaf_le_of_internal hinv hpresent h
  have hlt := (List.getElem?_eq_some_iff.1 h).1
  rw [length_node hinv hpresent] at hlt
  omega

/-- In a decode session CUR is at a Leaf exactly in the tree of one leaf. -/
theorem cur_leaf_iff (hinv : Inv s) (hmode : s.mode = .dec) :
    (∃ sym f, s.node[s.cur]? = some (.leaf sym f)) ↔ s.nleaf = 1 := by
  have hpresent := hinv.sequence.decode hmode
  obtain hcur | ⟨f, l, r, hcur⟩ := hinv.sequence.walk hmode
  · rw [hcur]
    exact root_leaf_iff hinv.tree hpresent
  · simp [hcur, nleaf_ne_one_of_internal hinv.tree hpresent hcur]

theorem degen_iff_nleaf (hinv : TreeInv s) (hpresent : s.treePresent = true) : s.nleaf = 1 ↔ degen s = true := by
  have hroot := List.getElem?_eq_getElem (root_lt_length hinv hpresent)
  rw [← root_leaf_iff hinv hpresent, degen_iff, readNode_of_getElem? hroot, hroot]
  simp [hpresent]

/-- Settles O46: CUR at a Leaf is CUR at ROOT, and of the outcomes of DEC_BIT only a digit there is LeafTransition. -/
theorem leafTransitionOnlyInTheSingleLeafTree : Obligations.LeafTransitionOnlyInTheSingleLeafTree := by
  intro s hinv hmode
  have hpresent := hinv.sequence.decode hmode
  refine ⟨cur_leaf_iff hinv hmode, degen_iff_nleaf hinv.tree hpresent, fun c t hexec => ?_⟩
  rw [← cur_leaf_iff hinv hmode, ← exists_chr_iff]
  by_cases hc : ∃ d, c = chr d
  · obtain ⟨d, rfl⟩ := hc
    have hcur := List.getElem?_eq_getElem (cur_lt_length hinv hmode)
    cases hrec : s.node[s.cur]'(cur_lt_length hinv hmode) with
    | leaf sym f =>
      rw [hrec] at hcur
      cases (exec_decBit_of_leaf hmode hcur).symm.trans hexec
      exact ⟨fun _ => ⟨⟨sym, f, hcur⟩, d, rfl⟩, fun _ => ⟨rfl, rfl⟩⟩
    | internal f l r =>
      rw [hrec] at hcur
      cases (exec_decBit_of_internal hmode hcur).symm.trans hexec
      simp [hmode, hcur]
  · have hdigit := hc
    rw [exists_chr_iff, not_or] at hdigit
    cases (exec_decBit_of_no_digit hmode hdigit.1 hdigit.2).symm.trans hexec
    simp [hc]

end Sys2Proof.Machine

/-! ## Proofs: the tree BUILD makes has minimal weighted path length (R119 (d)) -/

namespace Sys2Proof.Machine

namespace HuffTree

/-! ### Leaves with their depths -/

/-- The leaves, left to right: Symbol, frequency and depth. -/
def placed : HuffTree → List (Symbol × Nat × Nat)
  | .leaf s f => [(s, f, 0)]
  | .node _ l r => (l.placed ++ r.placed).map fun e => (e.1, e.2.1, e.2.2 + 1)

theorem map_entry_placed (t : HuffTree) : t.placed.map (fun e => (e.1, e.2.1)) = t.leaves := by
  induction t with
  | leaf s f => rfl
  | node f l r ihl ihr => simp [placed, leaves, ← ihl, ← ihr, Function.comp_def]

/-- The depth of a leaf is the length of its code. -/
theorem map_depth_placed (t : HuffTree) :
    t.placed.map (fun e => (e.1, e.2.2)) = t.codes.map fun e => (e.1, e.2.length) := by
  induction t with
  | leaf s f => rfl
  | node f l r ihl ihr =>
    have hdeeper (c : HuffTree) : c.placed.map (fun e => (e.1, e.2.2 + 1)) =
        (c.placed.map fun e => (e.1, e.2.2)).map fun e => (e.1, e.2 + 1) := by simp
    simp [placed, codes, hdeeper, ihl, ihr, Function.comp_def]

theorem weightFrom_eq_sum_placed (t : HuffTree) (d : Nat) :
    t.weightFrom d = (t.placed.map fun e => e.2.1 * (e.2.2 + d)).sum := by
  induction t generalizing d with
  | leaf s f => simp [weightFrom, placed]
  | node f l r ihl ihr =>
    have hdeeper (c : HuffTree) : c.placed.map (fun e => e.2.1 * (e.2.2 + (d + 1))) =
        c.placed.map fun e => e.2.1 * (e.2.2 + 1 + d) := by simp only [Nat.add_assoc, Nat.add_comm 1 d]
    simp [weightFrom, placed, ihl, ihr, hdeeper, Function.comp_def]

/-- The frequencies of the leaves, each with its depth. -/
def depthPairs (t : HuffTree) : Multiset (Nat × Nat) := t.placed.map Prod.snd

theorem map_fst_depthPairs (t : HuffTree) : t.depthPairs.map Prod.fst = t.leaves.map Prod.snd := by
  simp [depthPairs, ← map_entry_placed, Function.comp_def]

/-- The depths of the leaves. -/
def depths (t : HuffTree) : Multiset Nat := t.depthPairs.map Prod.snd

theorem depths_leaf (s : Symbol) (f : Nat) : (leaf s f).depths = {0} := rfl

theorem depths_node (f : Nat) (l r : HuffTree) : (node f l r).depths = (l.depths + r.depths).map (· + 1) := by
  simp [depths, depthPairs, placed, Function.comp_def]

theorem le_height_of_mem_depths {t : HuffTree} {x : Nat} (h : x ∈ t.depths) : x ≤ t.height := by
  induction t generalizing x with
  | leaf s f => simpa [depths_leaf, height] using h
  | node f l r ihl ihr =>
    simp only [depths_node, Multiset.mem_map, Multiset.mem_add] at h
    obtain ⟨y, hy | hy, rfl⟩ := h
    · have := ihl hy; simp [height]; omega
    · have := ihr hy; simp [height]; omega

/-- In a tree with an edge two leaves stand together at the greatest depth, and putting one leaf in their parent's place
leaves a tree. -/
theorem exists_deepest {t : HuffTree} {d : Nat} (h : t.height = d + 1) :
    ∃ (t' : HuffTree) (D : Multiset Nat), t.depths = (d + 1) ::ₘ (d + 1) ::ₘ D ∧ t'.depths = d ::ₘ D := by
  induction t generalizing d with
  | leaf s f => simp [height] at h
  | node f l r ihl ihr =>
    have hd : max l.height r.height = d := by simpa [height] using h
    cases d with
    | zero =>
      cases l with
      | node => simp [height] at hd
      | leaf s g =>
        cases r with
        | node => simp [height] at hd
        | leaf s' g' => exact ⟨.leaf s g, 0, by simp [depths_node, depths_leaf], by simp [depths_leaf]⟩
    | succ d =>
      obtain hl | hr : l.height = d + 1 ∨ r.height = d + 1 := by omega
      · obtain ⟨l', D, hdepths, hdepths'⟩ := ihl hl
        refine ⟨.node f l' r, (D + r.depths).map (· + 1), ?_, ?_⟩ <;> simp [depths_node, hdepths, hdepths']
      · obtain ⟨r', D, hdepths, hdepths'⟩ := ihr hr
        refine ⟨.node f l r', (l.depths + D).map (· + 1), ?_, ?_⟩ <;> simp [depths_node, hdepths, hdepths']

end HuffTree

/-! ### Exchanging leaves -/

/-- The sum of frequency times depth. -/
def cost (P : Multiset (Nat × Nat)) : Nat := (P.map fun e => e.1 * e.2).sum

@[simp] theorem cost_cons (e : Nat × Nat) (P : Multiset (Nat × Nat)) : cost (e ::ₘ P) = e.1 * e.2 + cost P := by
  simp [cost]

theorem cost_depthPairs (t : HuffTree) : cost t.depthPairs = t.weight := by
  simp [cost, HuffTree.depthPairs, HuffTree.weight, HuffTree.weightFrom_eq_sum_placed, Function.comp_def]

/-- A least frequency can take a greatest depth: the leaf that is there takes the place it leaves, at no greater
cost. -/
theorem exists_exchange {P : Multiset (Nat × Nat)} {a m : Nat} {N D : Multiset Nat} (hfst : P.map Prod.fst = a ::ₘ N)
    (hsnd : P.map Prod.snd = m ::ₘ D) (hmin : ∀ x ∈ N, a ≤ x) (hmax : ∀ x ∈ D, x ≤ m) :
    ∃ Q : Multiset (Nat × Nat), Q.map Prod.fst = N ∧ Q.map Prod.snd = D ∧ a * m + cost Q ≤ cost P := by
  by_cases hmem : (a, m) ∈ P
  · obtain ⟨Q, rfl⟩ := Multiset.exists_cons_of_mem hmem
    rw [Multiset.map_cons] at hfst hsnd
    exact ⟨Q, (Multiset.cons_inj_right _).1 hfst, (Multiset.cons_inj_right _).1 hsnd, by simp⟩
  · obtain ⟨⟨a, k⟩, ha, rfl⟩ := Multiset.mem_map.1 (hfst ▸ Multiset.mem_cons_self a N)
    obtain ⟨⟨x, m⟩, hx, rfl⟩ := Multiset.mem_map.1 (hsnd ▸ Multiset.mem_cons_self m D)
    obtain ⟨P, rfl⟩ := Multiset.exists_cons_of_mem ha
    have hne : (x, m) ≠ (a, k) := by rintro ⟨⟩; exact hmem ha
    obtain ⟨R, rfl⟩ := Multiset.exists_cons_of_mem ((Multiset.mem_cons.1 hx).resolve_left hne)
    simp only [Multiset.map_cons] at hfst hsnd
    have hN : x ::ₘ R.map Prod.fst = N := (Multiset.cons_inj_right _).1 hfst
    have hD : k ::ₘ R.map Prod.snd = D := by
      rw [Multiset.cons_swap] at hsnd
      exact (Multiset.cons_inj_right _).1 hsnd
    have hax : a ≤ x := hmin x (hN ▸ Multiset.mem_cons_self ..)
    have hkm : k ≤ m := hmax k (hD ▸ Multiset.mem_cons_self ..)
    refine ⟨(x, k) ::ₘ R, by simpa using hN, by simpa using hD, ?_⟩
    obtain ⟨u, rfl⟩ := Nat.exists_eq_add_of_le hax
    obtain ⟨v, rfl⟩ := Nat.exists_eq_add_of_le hkm
    have hgain : a * (k + v) + (a + u) * k + u * v = a * k + (a + u) * (k + v) := by ring
    simp only [cost_cons]
    omega

/-! ### Merging the two least frequencies -/

/-- `Merging M h`: from the frequencies `M` the merges of two least ones, down to one, make the frequencies that sum to
`h`. -/
inductive Merging : Multiset Nat → Nat → Prop
  | one (a : Nat) : Merging {a} 0
  | merge {a b h : Nat} {M : Multiset Nat} (hab : a ≤ b) (hM : ∀ x ∈ M, b ≤ x) (hrest : Merging ((a + b) ::ₘ M) h) :
      Merging (a ::ₘ b ::ₘ M) (a + b + h)

/-- No tree with those frequencies at its leaves costs less: by the merges, moving the two least to the deepest pair
and putting their sum in their parent's place. -/
theorem Merging.le_cost {M : Multiset Nat} {h : Nat} (hM : Merging M h) {P : Multiset (Nat × Nat)} {t : HuffTree}
    (hfst : P.map Prod.fst = M) (hsnd : P.map Prod.snd = t.depths) : h ≤ cost P := by
  induction hM generalizing P t with
  | one a => exact Nat.zero_le _
  | @merge a b h M hab hM _ ih =>
    have hheight : t.height ≠ 0 := by
      intro h0
      cases t with
      | node => simp [HuffTree.height] at h0
      | leaf s f =>
        have htwo : Multiset.card P = Multiset.card M + 2 := by
          rw [← Multiset.card_map Prod.fst P, hfst, Multiset.card_cons, Multiset.card_cons]
        have hone : Multiset.card P = 1 := by
          rw [← Multiset.card_map Prod.snd P, hsnd, HuffTree.depths_leaf, Multiset.card_singleton]
        omega
    obtain ⟨d, hd⟩ := Nat.exists_eq_succ_of_ne_zero hheight
    obtain ⟨t', D, hdepths, hdepths'⟩ := HuffTree.exists_deepest hd
    have hdeep : ∀ x ∈ D, x ≤ d + 1 := fun x hx =>
      (HuffTree.le_height_of_mem_depths (by rw [hdepths]; simp [hx])).trans hd.le
    obtain ⟨Q, hQfst, hQsnd, hQ⟩ := exists_exchange hfst (hsnd.trans hdepths)
      (by simpa using ⟨hab, fun x hx => hab.trans (hM x hx)⟩) (by simpa using hdeep)
    obtain ⟨R, hRfst, hRsnd, hR⟩ := exists_exchange hQfst hQsnd hM hdeep
    have hih := ih (P := (a + b, d) ::ₘ R) (t := t') (by simp [hRfst]) (by simp [hRsnd, hdepths'])
    have hsum : (a + b) * d + (a + b) = a * (d + 1) + b * (d + 1) := by ring
    simp only [cost_cons] at hih
    omega

/-! ### The merges of BUILD -/

/-- The frequencies in the occupied slots. -/
def slotFreqSet (w : Work) : Multiset Nat := (occupied w).map (freqAt w.nodes)

theorem MergeStep.slotFreqSet_before {w w' : Work} {l r : Nat} {rest : List Nat} (hstep : MergeStep w w' l r rest) :
    slotFreqSet w = freqAt w.nodes l ::ₘ freqAt w.nodes r ::ₘ (rest.map (freqAt w.nodes) : List Nat) :=
  Multiset.coe_eq_coe.2 (hstep.before.map _)

theorem MergeStep.slotFreqSet_after {items : List (Symbol × Nat)} {w w' : Work} {l r : Nat} {rest : List Nat}
    (h : Grown items w) (hstep : MergeStep w w' l r rest) :
    slotFreqSet w' = (freqAt w.nodes l + freqAt w.nodes r) ::ₘ (rest.map (freqAt w.nodes) : List Nat) := by
  have hrest : rest.map (freqAt w'.nodes) = rest.map (freqAt w.nodes) :=
    List.map_congr_left fun x hx => hstep.freqAt_of_lt (h.rest_lt hstep hx)
  rw [slotFreqSet, Multiset.coe_eq_coe.2 (hstep.after.map _), List.map_cons, hstep.freqAt_new, hrest]
  rfl

/-- The indices a merge takes hold two least frequencies. -/
theorem MergeStep.merging {items : List (Symbol × Nat)} {w w' : Work} {l r h : Nat} {rest : List Nat}
    (hgrown : Grown items w) (hstep : MergeStep w w' l r rest) (hrest : Merging (slotFreqSet w') h) :
    Merging (slotFreqSet w) (freqAt w.nodes l + freqAt w.nodes r + h) := by
  rw [hstep.slotFreqSet_after hgrown] at hrest
  rw [hstep.slotFreqSet_before]
  have hleast : ∀ f ∈ (rest.map (freqAt w.nodes) : Multiset Nat), freqAt w.nodes l ≤ f ∧ freqAt w.nodes r ≤ f := by
    simpa using hstep.least
  obtain hle | hle := le_total (freqAt w.nodes l) (freqAt w.nodes r)
  · exact .merge hle (fun f hf => (hleast f hf).2) hrest
  · rw [Multiset.cons_swap, Nat.add_comm (freqAt w.nodes l)]
    exact .merge hle (fun f hf => (hleast f hf).1) (by rwa [Nat.add_comm])

/-- The merges of BUILD, down to one slot, make Internal frequencies as merging two least ones does. -/
theorem exists_merging_merges {items : List (Symbol × Nat)} (ms : MergeSlot) {k : Nat} {w : Work}
    (hgrown : Grown items w) (hocc : (occupied w).length = k + 1) :
    ∃ h, Merging (slotFreqSet w) h ∧
      ((merges ms k w).nodes.map internalFreq).sum = (w.nodes.map internalFreq).sum + h := by
  induction k generalizing w with
  | zero =>
    obtain ⟨x, hx⟩ := List.length_eq_one_iff.1 hocc
    exact ⟨0, by rw [slotFreqSet, hx]; exact .one _, rfl⟩
  | succ k ih =>
    obtain ⟨l, r, rest, hstep⟩ := exists_mergeStep ms (w := w) (by omega)
    have hbefore := hstep.before.length_eq
    have hafter := hstep.after.length_eq
    simp only [List.length_cons] at hbefore hafter
    obtain ⟨h, hmerging, hsum⟩ := ih (hgrown.step hstep) (by omega)
    refine ⟨_, hstep.merging hgrown hmerging, ?_⟩
    rw [merges, hsum, hstep.nodes]
    simp [internalFreq, add_assoc]

/-- The sum of the Internal frequencies of the tree BUILD makes is that of merging two least ones of the counts. -/
theorem merging_built {s : State} (htable : TableInv s) (hne : s.ft ≠ []) :
    Merging (s.ft.map Prod.snd : List Nat) (treeOf (built s)).internalFreqs.sum := by
  have hpos := List.length_pos_iff.2 hne
  obtain ⟨h, hmerging, hsum⟩ := exists_merging_merges s.cfg.mergeSlot (k := s.ft.length - 1) (grown_leaves s.ft)
    (by rw [occupied_leaves, List.length_range]; omega)
  have hleaves : ((leaves s.ft).nodes.map internalFreq).sum = 0 := by
    simp [leaves, Function.comp_def, internalFreq]
  rw [slotFreqSet, map_freqAt_leaves] at hmerging
  rw [hleaves, Nat.zero_add] at hsum
  rw [internalFreqs_treeOf_sum (treeInv_built htable hne) rfl]
  exact hsum.symm ▸ hmerging

/-- Settles O34: the tree's weight is the sum of what the merges make, and no tree with its leaves costs less. -/
theorem builtTreeIsOptimal : Obligations.BuiltTreeIsOptimal := by
  intro s t tr other hmode htable hexec htr hleaves
  by_cases hne : s.ft = []
  · have hnft : s.nft = 0 := by rw [htable.nft, hne]; rfl
    cases (buildOfNothingIsAbsent s hmode hne hnft).symm.trans hexec
    simp [currentTree] at htr
  · cases (exec_build_eq_built hmode hne htable.nft).symm.trans hexec
    have hinv := treeInv_built htable hne
    obtain rfl : treeOf (built s) = tr := Option.some.inj ((currentTree_eq hinv rfl).symm.trans htr)
    have hfst : other.depthPairs.map Prod.fst = (s.ft.map Prod.snd : List Nat) := by
      rw [HuffTree.map_fst_depthPairs]
      exact Multiset.coe_eq_coe.2 ((hleaves.trans (leaves_built_perm htable hne)).map _)
    rw [HuffTree.weight_eq (summed_treeOf hinv rfl), ← cost_depthPairs]
    exact (merging_built htable hne).le_cost hfst rfl

end Sys2Proof.Machine

/-! ## Proofs: the pseudo-commands ENCODE and DECODE (R173, R174) -/

namespace Sys2Proof.Machine

variable {s a : State} {codes : List (Symbol × Digits)} {w : List Symbol} {b : Digits}

/-- The tree of a sound state is the one at its ROOT. -/
theorem present_of_currentTree (hinv : TreeInv s) {tr : HuffTree} (h : currentTree s = some tr) :
    s.treePresent = true ∧ tr = treeOf s := by
  have hpresent : s.treePresent = true := by
    by_contra habsent
    rw [currentTree, if_neg habsent] at h
    cases h
  exact ⟨hpresent, Option.some.inj (h.symm.trans (currentTree_eq hinv hpresent))⟩

/-! ### Encoding (R140 to R142, R173) -/

/-- The state DERIVE leaves. -/
def derivedState (s : State) : State :=
  { s with
    ct := derivedTable s, nct := (derivedTable s).length, ctValid := true
    outbox := s.outbox ++ [0x00 :: beBytes s.cfg.nodeB (derivedTable s).length] }

/-- The state in which DERIVE and ENC_BEGIN leave HTB. -/
def encodeOpened (s : State) : State :=
  { derivedState s with ebuf := [], mode := .enc, outbox := (derivedState s).outbox ++ [[0x00]] }

theorem execAll_encodeOpened (hmode : s.mode = .idle) (rest : List Instr) :
    execAll ([.derive, .encBegin] ++ rest) s = execAll rest (encodeOpened s) :=
  (execAll_cons (exec_derive hmode) (.encBegin :: rest)).trans
    (execAll_cons (exec_encBegin (s := derivedState s) hmode rfl) rest)

/-- A stream of Symbols in the table has an encoding. -/
theorem exists_encodes (h : ∀ x ∈ w, x ∈ codes.map Prod.fst) : ∃ b, Encodes codes w b := by
  induction w with
  | nil => exact ⟨[], rfl⟩
  | cons x w ih =>
    rw [List.forall_mem_cons] at h
    obtain ⟨⟨x, c⟩, hc, rfl⟩ := List.mem_map.1 h.1
    obtain ⟨b, hb⟩ := ih h.2
    exact ⟨c ++ b, c, b, hc, rfl, hb⟩

/-- ENC_SYM of each Symbol of a stream in the table appends the codes, one response for each. -/
theorem execAll_encSym (hmode : a.mode = .enc) (hct : ∀ x c, (x, c) ∈ codes → lookup a.ct x = some c)
    (h : Encodes codes w b) :
    ∃ sent : List Packet, sent.length = w.length ∧ sent.flatten = chars b ∧ execAll (w.map .encSym) a =
      .next { a with ebuf := a.ebuf ++ b, outbox := a.outbox ++ sent.map (fun p => 0x00 :: p) } := by
  induction w generalizing a b with
  | nil => obtain rfl : b = [] := h; exact ⟨[], rfl, rfl, by simp⟩
  | cons x w ih =>
    obtain ⟨c, b, hc, rfl, hb⟩ := h
    have hexec := exec_encSym_of_code hmode (hct x c hc)
    obtain ⟨sent, hlen, hflat, hrest⟩ :=
      ih (a := { a with ebuf := a.ebuf ++ c, outbox := a.outbox ++ [0x00 :: chars c] }) hmode hct hb
    refine ⟨chars c :: sent, by simp [hlen], by simp [hflat, chars], ?_⟩
    rw [List.map_cons, execAll_cons hexec, hrest]
    simp

/-- At a Symbol without a code the rest of the stream and ENC_END get the standing fault. -/
theorem execAll_encSym_unknown {x : Symbol} (hmode : a.mode = .enc) (hx : lookup a.ct x = none) (v : List Symbol) :
    execAll ((x :: v).map .encSym ++ [.encEnd]) a = .next { faulted 0x10 0x41 a with
      outbox := a.outbox ++ List.replicate (v.length + 2) [0xFF, 0x10] } := by
  have hrest : ∀ i ∈ v.map Instr.encSym ++ [.encEnd], ¬ AcceptedIn i .fault := by
    simp only [List.forall_mem_append, List.forall_mem_map]
    simp [AcceptedIn]
  rw [List.map_cons, List.cons_append, execAll_cons (exec_encSym_of_none hmode hx),
    execAll_of_fault (s := faulted 0x10 0x41 a) rfl hrest]
  simp [List.replicate_succ]

section

variable (hinv : TreeInv s) (hpresent : s.treePresent = true)
include hinv hpresent

theorem lookup_opened {x : Symbol} {c : Digits} (h : (x, c) ∈ (treeOf s).codes) :
    lookup (encodeOpened s).ct x = some c := ((derivedTable_facts hinv hpresent).2 x c).2 h

theorem lookup_opened_eq_none {x : Symbol} (h : x ∉ (treeOf s).codes.map Prod.fst) :
    lookup (encodeOpened s).ct x = none := by
  by_contra hne
  obtain ⟨c, hc⟩ := Option.ne_none_iff_exists'.1 hne
  exact h (List.mem_map.2 ⟨_, ((derivedTable_facts hinv hpresent).2 x c).1 hc, rfl⟩)

/-- ENCODE of a stream of the tree's Symbols completes with its encoding in EBUF. -/
theorem execAll_encode (hmode : s.mode = .idle) (h : Encodes (treeOf s).codes w b) :
    ∃ out, execAll (Pseudo.encode w).expand s = .next { s with
      ct := [], nct := 0, ctValid := false, ebuf := b, outbox := out ++ [[0x00]] } := by
  obtain ⟨sent, -, -, hsent⟩ :=
    execAll_encSym (a := encodeOpened s) rfl (fun _ _ => lookup_opened hinv hpresent) h
  have hnct : (derivedTable s).length ≠ 0 := by
    have := (hinv.present hpresent).nleaf_pos
    rw [length_derivedTable hinv]
    omega
  refine ⟨(encodeOpened s).outbox ++ sent.map (fun p => 0x00 :: p), ?_⟩
  rw [Pseudo.expand, List.append_assoc, execAll_encodeOpened hmode, execAll_append hsent,
    execAll_cons (exec_encEnd (by rfl)), execAll_nil]
  simp [encodeOpened, derivedState, hnct, hmode]

/-- ENCODE of a stream with an unknown Symbol sends the codes before it and ends in LookupFailure. -/
theorem execAll_encode_unknown {x : Symbol} {v : List Symbol} (hmode : s.mode = .idle)
    (h : Encodes (treeOf s).codes w b) (hx : x ∉ (treeOf s).codes.map Prod.fst) :
    ∃ sent : List Packet, sent.length = w.length ∧ sent.flatten = chars b ∧
      execAll (Pseudo.encode (w ++ x :: v)).expand s = .next { encodeOpened s with
        ebuf := b, mode := .fault, fcause := 0x10, fcmd := 0x41
        outbox := (encodeOpened s).outbox ++ sent.map (fun p => 0x00 :: p) ++
          List.replicate (v.length + 2) [0xFF, 0x10] } := by
  obtain ⟨sent, hlen, hflat, hsent⟩ :=
    execAll_encSym (a := encodeOpened s) rfl (fun _ _ => lookup_opened hinv hpresent) h
  refine ⟨sent, hlen, hflat, ?_⟩
  rw [Pseudo.expand, List.append_assoc, execAll_encodeOpened hmode, List.map_append, List.append_assoc,
    execAll_append hsent]
  exact execAll_encSym_unknown (a := { encodeOpened s with
    ebuf := b, outbox := (encodeOpened s).outbox ++ sent.map (fun p => 0x00 :: p) })
    rfl (lookup_opened_eq_none hinv hpresent hx) v

end

/-- Settles O42: the table is the derived one, empty without a tree; each outcome is one run of the Encoder on it. -/
theorem encodeOutcomes : Obligations.EncodeOutcomes := by
  intro s w hinv hmode
  refine ⟨?absentEmpty, ?absentUnknown, ?encoded, ?unknown⟩
  case absentEmpty =>
    rintro habsent rfl
    refine ⟨_, (execAll_encodeOpened hmode [.encEnd]).trans (execAll_cons (exec_encEnd (by rfl)) []), rfl, rfl, ?_⟩
    simp [encodeOpened, derivedState, derivedTable_of_absent habsent]
  case absentUnknown =>
    intro habsent hne
    obtain ⟨x, v, rfl⟩ := List.exists_cons_of_ne_nil hne
    have hx : lookup (encodeOpened s).ct x = none := by
      simp [encodeOpened, derivedState, derivedTable_of_absent habsent]
    have hexec := (execAll_encodeOpened hmode ((x :: v).map .encSym ++ [.encEnd])).trans
      (execAll_encSym_unknown rfl hx v)
    exact ⟨_, 0x00 :: beBytes s.cfg.nodeB (derivedTable s).length, hexec, rfl, rfl,
      by simp [encodeOpened, derivedState, List.replicate_succ]⟩
  case encoded =>
    intro tr htr hw
    obtain ⟨hpresent, rfl⟩ := present_of_currentTree hinv.tree htr
    obtain ⟨b, hb⟩ := exists_encodes hw
    obtain ⟨out, hexec⟩ := execAll_encode hinv.tree hpresent hmode hb
    exact ⟨_, hexec, hmode, rfl, by simp, hb⟩
  case unknown =>
    rintro tr u x v htr rfl hu hx
    obtain ⟨hpresent, rfl⟩ := present_of_currentTree hinv.tree htr
    obtain ⟨b, hb⟩ := exists_encodes hu
    obtain ⟨sent, hlen, hflat, hexec⟩ := execAll_encode_unknown (v := v) hinv.tree hpresent hmode hb hx
    exact ⟨_, 0x00 :: beBytes s.cfg.nodeB (derivedTable s).length, sent, hexec, rfl, rfl, hb, hlen, hflat,
      by simp [encodeOpened, derivedState]⟩

/-! ### Decoding (R150 to R154, R174) -/

/-- DEC_BIT of each digit of a string (R174). -/
def decBits (ds : Digits) : List Instr := ds.map fun d => .decBit (chr d)

theorem decBits_append (ds ds' : Digits) : decBits (ds ++ ds') = decBits ds ++ decBits ds' := List.map_append

/-- After a fault the rest of a DECODE is turned away. -/
theorem decoding_not_acceptedIn_fault (ds : Digits) : ∀ i ∈ decBits ds ++ [Instr.decEnd], ¬ AcceptedIn i .fault := by
  simp only [decBits, List.forall_mem_append, List.forall_mem_map]
  simp [AcceptedIn]

/-- The state in which DEC_BEGIN leaves HTB. -/
def decodeOpened (s : State) : State :=
  { s with cur := s.root, dbuf := [], mode := .dec, outbox := s.outbox ++ [[0x00]] }

theorem execAll_decodeOpened (hmode : s.mode = .idle) (hpresent : s.treePresent = true) (b : Digits) :
    execAll (Pseudo.decode b).expand s = execAll (decBits b ++ [.decEnd]) (decodeOpened s) :=
  execAll_cons (exec_decBegin hmode hpresent) (decBits b ++ [Instr.decEnd])

section

variable {ds : Digits} {d : Digit} {x : Symbol}

/-- At a subtree with a non-empty code the record is Internal, and the code's first digit leads to the subtree with the
rest of the code. -/
theorem internal_of_code (hdesc : Descending a.node) (hcur : a.cur < a.node.length)
    (h : (x, d :: ds) ∈ (subtree a.node a.cur).codes) :
    ∃ f l r, a.node[a.cur]? = some (.internal f l r) ∧ child d l r < a.cur ∧
      (x, ds) ∈ (subtree a.node (child d l r)).codes := by
  have hn := List.getElem?_eq_getElem hcur
  cases hrec : a.node[a.cur] with
  | leaf sym f =>
    rw [hrec] at hn
    rw [subtree_of_leaf hn, HuffTree.mem_codes_leaf] at h
    exact absurd h.2 nofun
  | internal f l r =>
    rw [hrec] at hn
    obtain ⟨hl, hr⟩ := hdesc _ f l r hn
    rw [subtree_of_internal hdesc hn] at h
    obtain ⟨d, code, ⟨⟩, hmem⟩ := HuffTree.mem_codes_node.1 h
    cases d
    · exact ⟨f, l, r, hn, hl, hmem⟩
    · exact ⟨f, l, r, hn, hr, hmem⟩

/-- A digit inside a code moves CUR down to the subtree with the rest of the code. -/
theorem exec_decBit_within (hdesc : Descending a.node) (hmode : a.mode = .dec) (hcur : a.cur < a.node.length)
    (h : (x, d :: ds) ∈ (subtree a.node a.cur).codes) (hds : ds ≠ []) :
    ∃ j < a.cur, (x, ds) ∈ (subtree a.node j).codes ∧
      exec (.decBit (chr d)) a = .next { a with cur := j, outbox := a.outbox ++ [[0x00]] } := by
  obtain ⟨f, l, r, hn, hlt, hmem⟩ := internal_of_code hdesc hcur h
  obtain ⟨d', ds', rfl⟩ := List.exists_cons_of_ne_nil hds
  obtain ⟨g, l', r', hn', -, -⟩ := internal_of_code (a := { a with cur := child d l r }) hdesc (hlt.trans hcur) hmem
  exact ⟨child d l r, hlt, hmem, by rw [exec_decBit_of_internal hmode hn, arrive_of_internal (s := a) hn']⟩

/-- The last digit of a code emits the leaf's Symbol and leads back to the root. -/
theorem exec_decBit_last (hdesc : Descending a.node) (hmode : a.mode = .dec) (hcur : a.cur < a.node.length)
    (h : (x, [d]) ∈ (subtree a.node a.cur).codes) :
    exec (.decBit (chr d)) a =
      .next { a with dbuf := a.dbuf ++ [x], cur := a.root, outbox := a.outbox ++ [0x00 :: x] } := by
  obtain ⟨f, l, r, hn, hlt, hmem⟩ := internal_of_code hdesc hcur h
  have hchild := List.getElem?_eq_getElem (hlt.trans hcur)
  cases hrec : a.node[child d l r]'(hlt.trans hcur) with
  | leaf sym g =>
    rw [hrec] at hchild
    rw [subtree_of_leaf hchild, HuffTree.mem_codes_leaf] at hmem
    obtain ⟨rfl, -⟩ := hmem
    rw [exec_decBit_of_internal hmode hn, arrive_of_leaf hchild]
  | internal g l' r' =>
    rw [hrec] at hchild
    rw [subtree_of_internal hdesc hchild] at hmem
    obtain ⟨d', code, hcode, -⟩ := HuffTree.mem_codes_node.1 hmem
    exact absurd hcode nofun

/-- The digits of a code, from the node where they begin, emit the Symbol. -/
theorem execAll_code (hdesc : Descending a.node) (hmode : a.mode = .dec) (hcur : a.cur < a.node.length)
    (h : (x, ds) ∈ (subtree a.node a.cur).codes) (hds : ds ≠ []) :
    ∃ out, execAll (decBits ds) a = .next { a with dbuf := a.dbuf ++ [x], cur := a.root, outbox := out } := by
  induction ds generalizing a with
  | nil => exact absurd rfl hds
  | cons d ds ih =>
    by_cases hnil : ds = []
    · subst hnil
      exact ⟨_, execAll_cons (exec_decBit_last hdesc hmode hcur h) []⟩
    · obtain ⟨j, hj, hmem, hexec⟩ := exec_decBit_within hdesc hmode hcur h hnil
      obtain ⟨out, hrest⟩ := ih (a := { a with cur := j, outbox := a.outbox ++ [[0x00]] }) hdesc hmode (hj.trans hcur)
        hmem hnil
      exact ⟨out, (execAll_cons hexec (decBits ds)).trans hrest⟩

/-- The digits of a proper beginning of a code lead to a node below. -/
theorem execAll_within {p : Digits} (hdesc : Descending a.node) (hmode : a.mode = .dec) (hcur : a.cur < a.node.length)
    (h : (x, p ++ ds) ∈ (subtree a.node a.cur).codes) (hp : p ≠ []) (hds : ds ≠ []) :
    ∃ j < a.cur, ∃ out, execAll (decBits p) a = .next { a with cur := j, outbox := out } := by
  induction p generalizing a with
  | nil => exact absurd rfl hp
  | cons d p ih =>
    obtain ⟨j, hj, hmem, hexec⟩ := exec_decBit_within hdesc hmode hcur h (by simp [hds])
    by_cases hnil : p = []
    · subst hnil
      exact ⟨j, hj, _, execAll_cons hexec []⟩
    · obtain ⟨k, hk, out, hrest⟩ := ih (a := { a with cur := j, outbox := a.outbox ++ [[0x00]] }) hdesc hmode
        (hj.trans hcur) hmem hnil
      exact ⟨k, hk.trans hj, out, (execAll_cons hexec (decBits p)).trans hrest⟩

/-- The digits of an encoding, from the root, emit its stream. -/
theorem execAll_encoding (hdesc : Descending a.node) (hmode : a.mode = .dec) (hroot : a.root < a.node.length)
    (hcur : a.cur = a.root) (hne : ∀ x c, (x, c) ∈ (treeOf a).codes → c ≠ []) (h : Encodes (treeOf a).codes w b) :
    ∃ out, execAll (decBits b) a = .next { a with dbuf := a.dbuf ++ w, outbox := out } := by
  induction w generalizing a b with
  | nil =>
    obtain rfl : b = [] := h
    exact ⟨a.outbox, by simp [decBits]⟩
  | cons x w ih =>
    obtain ⟨c, b, hc, rfl, hb⟩ := h
    obtain ⟨out, hcode⟩ := execAll_code hdesc hmode (hcur ▸ hroot) (by rw [hcur]; exact hc) (hne x c hc)
    obtain ⟨out', hrest⟩ := ih (a := { a with dbuf := a.dbuf ++ [x], cur := a.root, outbox := out }) hdesc hmode hroot
      rfl hne hb
    refine ⟨out', ?_⟩
    rw [decBits_append, execAll_append hcode, hrest]
    simp [hcur]

end

/-- Every digit string is an encoding followed by a proper beginning of a code (R174). -/
theorem exists_encoding_append {t : HuffTree} (hne : ∀ x c, (x, c) ∈ t.codes → c ≠ []) (b : Digits) :
    ∃ w b1 p, Encodes t.codes w b1 ∧ b = b1 ++ p ∧ ∃ x c, (x, c) ∈ t.codes ∧ p <+: c ∧ p ≠ c := by
  induction hk : b.length using Nat.strong_induction_on generalizing b with
  | _ k ih =>
    obtain ⟨x, c, hc, b', rfl⟩ | hwithin := t.code_isPrefix_or_within b
    · have hpos := List.length_pos_iff.2 (hne x c hc)
      rw [List.length_append] at hk
      obtain ⟨w, b1, p, hw, rfl, hp⟩ := ih b'.length (by omega) b' rfl
      exact ⟨x :: w, c ++ b1, p, ⟨c, b1, hc, rfl, hw⟩, by simp, hp⟩
    · exact ⟨[], [], b, rfl, rfl, hwithin⟩

section

variable (hinv : TreeInv s) (hpresent : s.treePresent = true)
include hinv hpresent

/-- DECODE of an encoding, in a tree of two leaves or more, completes with its stream in DBUF. -/
theorem execAll_decode (hmode : s.mode = .idle) (hn : 2 ≤ s.nleaf) (h : Encodes (treeOf s).codes w b) :
    ∃ out, execAll (Pseudo.decode b).expand s =
      .next { s with dbuf := w, cur := s.root, outbox := out ++ [[0x00]] } := by
  have hdesc := descending hinv hpresent
  have hroot := root_lt_length hinv hpresent
  obtain ⟨out, hdigits⟩ := execAll_encoding (a := decodeOpened s) hdesc rfl hroot rfl
    (fun _ _ => code_ne_nil hinv hpresent hn) h
  refine ⟨out, ?_⟩
  rw [execAll_decodeOpened hmode hpresent, execAll_append hdigits, execAll_cons (exec_decEnd_at_root (by rfl) (by rfl))]
  simp [decodeOpened, hmode]

/-- DECODE of a string that ends inside a code ends in Truncated, with the stream before it in DBUF. -/
theorem execAll_decode_truncated {p ds : Digits} {x : Symbol} (hmode : s.mode = .idle) (hn : 2 ≤ s.nleaf)
    (h : Encodes (treeOf s).codes w b) (hx : (x, p ++ ds) ∈ (treeOf s).codes) (hp : p ≠ []) (hds : ds ≠ []) :
    ∃ t, execAll (Pseudo.decode (b ++ p)).expand s = .next t ∧ t.mode = .fault ∧ t.fcause = 0x21 ∧ t.dbuf = w := by
  have hdesc := descending hinv hpresent
  have hroot := root_lt_length hinv hpresent
  obtain ⟨out, hdigits⟩ := execAll_encoding (a := decodeOpened s) hdesc rfl hroot rfl
    (fun _ _ => code_ne_nil hinv hpresent hn) h
  obtain ⟨j, hj, out', hwithin⟩ := execAll_within (a := { decodeOpened s with dbuf := w, outbox := out })
    hdesc rfl hroot hx hp hds
  have hend := exec_decEnd_away (s := { decodeOpened s with dbuf := w, cur := j, outbox := out' }) rfl
    (Nat.ne_of_lt hj)
  have hexec : execAll (decBits b ++ (decBits p ++ [.decEnd])) (decodeOpened s) = _ :=
    (execAll_append hdigits).trans ((execAll_append hwithin).trans (execAll_cons hend []))
  rw [← List.append_assoc, ← decBits_append, ← execAll_decodeOpened hmode hpresent] at hexec
  exact ⟨_, hexec, rfl, rfl, rfl⟩

end

/-- Settles O47: each outcome is one walk of the Decoder. -/
theorem decodeOutcomes : Obligations.DecodeOutcomes := by
  intro s b hinv hmode
  refine ⟨?noTree, ?decoded, ?truncated, ?total, ?singleEmpty, ?single⟩
  case noTree =>
    intro habsent
    have hexec := (execAll_cons (exec_decBegin_of_treePresent_false hmode habsent) (decBits b ++ [Instr.decEnd])).trans
      (execAll_of_fault rfl (decoding_not_acceptedIn_fault b))
    exact ⟨_, hexec, rfl, rfl⟩
  case decoded =>
    intro tr w htr hn hw
    obtain ⟨hpresent, rfl⟩ := present_of_currentTree hinv.tree htr
    obtain ⟨out, hexec⟩ := execAll_decode hinv.tree hpresent hmode hn hw
    exact ⟨_, hexec, hmode, rfl, rfl, by simp⟩
  case truncated =>
    rintro tr w b1 p c x htr hn hw rfl hp hx ⟨ds, rfl⟩ hne
    obtain ⟨hpresent, rfl⟩ := present_of_currentTree hinv.tree htr
    exact execAll_decode_truncated hinv.tree hpresent hmode hn hw hx hp (by simpa using hne)
  case total =>
    intro tr htr hn
    obtain ⟨hpresent, rfl⟩ := present_of_currentTree hinv.tree htr
    exact exists_encoding_append (fun _ _ => code_ne_nil hinv.tree hpresent hn) b
  case singleEmpty =>
    rintro hpresent - rfl
    exact ⟨_, (execAll_decodeOpened hmode hpresent []).trans (execAll_cons (exec_decEnd_at_root rfl rfl) []), rfl, rfl⟩
  case single =>
    intro hpresent hone hne
    obtain ⟨d, b, rfl⟩ := List.exists_cons_of_ne_nil hne
    obtain ⟨sym, f, hroot⟩ := (root_leaf_iff hinv.tree hpresent).2 hone
    have hbit : exec (.decBit (chr d)) (decodeOpened s) = _ := exec_decBit_of_leaf rfl hroot
    have hexec := (execAll_decodeOpened hmode hpresent (d :: b)).trans
      ((execAll_cons hbit (decBits b ++ [Instr.decEnd])).trans
        (execAll_of_fault rfl (decoding_not_acceptedIn_fault b)))
    exact ⟨_, hexec, rfl, rfl, rfl⟩

end Sys2Proof.Machine

/-! ## Proofs: the laws of the source's operations (R175 to R179) -/

namespace Sys2Proof.Machine

variable {s t : State} {w : List Symbol}

/-! ### Absence (R178) -/

/-- Settles O58: BUILD of nothing, then DERIVE of no tree, ENC_BEGIN, and ENC_END of an empty table. -/
theorem absenceRunsThroughTheChain : Obligations.AbsenceRunsThroughTheChain := by
  intro s hmode hft hnft
  have hbuild := buildOfNothingIsAbsent s hmode hft hnft
  have hexec := (execAll_cons hbuild ([.derive, .encBegin] ++ [.encEnd])).trans
    ((execAll_encodeOpened (by exact hmode) [.encEnd]).trans (execAll_cons (exec_encEnd (by rfl)) []))
  refine ⟨_, hexec, rfl, rfl, rfl, rfl, ?_⟩
  simp [encodeOpened, derivedState, derivedTable]

/-! ### Counting a stream from an empty table -/

/-- FREQ of a stream within capacity, from an empty table: the state it leaves and what its table holds. -/
theorem execAll_freq (htable : TableInv s) (hmode : s.mode = .idle) (hft : s.ft = [])
    (hdistinct : w.dedup.length ≤ s.cfg.nMax) (hlength : w.length ≤ s.cfg.maxCount) :
    ∃ t, execAll (Pseudo.freq w).expand s = .next t ∧ CountedAll w s t ∧
      t = { s with ft := t.ft, nft := t.nft, total := t.total, outbox := t.outbox } := by
  have hnft : s.nft = 0 := by rw [htable.nft, hft]; rfl
  have htotal : s.total = 0 := by rw [htable.total, hft]; rfl
  obtain ⟨t, ht, heq⟩ := execAll_count_completes hmode hft hnft htotal hdistinct hlength
  exact ⟨t, ht, countedAll_of_idle (by simp [hft]) ht (by rw [heq]; exact hmode), heq⟩

/-! ### Permuted streams (R177) -/

theorem derivedTable_congr (hsame : SameTree s t) : derivedTable t = derivedTable s := by
  obtain ⟨hnode, hpresent, hroot, -, hnnode⟩ := hsame
  rw [derivedTable, derivedTable, hnode, hpresent, hroot, hnnode]

/-- TREE and CODES after FREQ: BUILD's own rule, then DERIVE. -/
theorem execAll_freq_tree_codes (ht : execAll (Pseudo.freq w).expand s = .next t) (hmode : t.mode = .idle) :
    execAll ((Pseudo.freq w).expand ++ Pseudo.tree.expand ++ Pseudo.codes.expand) s =
      .next (derivedState (ruleOf .build t)) := by
  rw [List.append_assoc, execAll_append ht]
  exact (execAll_cons (exec_of_acceptedIn (i := .build) hmode) [.derive]).trans
    (execAll_cons (exec_derive (s := ruleOf .build t) hmode) [])

/-- Settles O57: the tables of both streams are equal, BUILD takes the tree from the items alone, and DERIVE the codes
from the tree. -/
theorem permutedStreamsGiveTheSameCodes : Obligations.PermutedStreamsGiveTheSameCodes := by
  intro s w w' hinv hmode hft hperm hdistinct hlength
  obtain ⟨t, ht, hw, heq⟩ := execAll_freq hinv.table hmode hft hdistinct hlength
  obtain ⟨t', ht', hw', heq'⟩ := execAll_freq (w := w') hinv.table hmode hft
    (hperm.dedup.length_eq ▸ hdistinct) (hperm.length_eq ▸ hlength)
  have hidle : t.mode = .idle := by rw [heq]; exact hmode
  have hidle' : t'.mode = .idle := by rw [heq']; exact hmode
  have hcfg : t.cfg = t'.cfg := by rw [heq, heq']
  obtain ⟨hft, hnft, -⟩ := countingOrderDoesNotMatter s t t' w w' (by simp [hft]) hperm ht ht' hidle hidle'
  obtain ⟨hnode, hroot, hnleaf, hnnode, hpresent⟩ := treeDependsOnItemsOnly t t' _ _ hidle hidle' hft hnft
    (congrArg Config.mergeSlot hcfg) (exec_of_acceptedIn (i := .build) hidle)
    (exec_of_acceptedIn (i := .build) hidle')
  exact ⟨_, _, execAll_freq_tree_codes ht hidle, execAll_freq_tree_codes ht' hidle', hidle, hidle', hnode, hroot,
    (derivedTable_congr ⟨hnode.symm, hpresent.symm, hroot.symm, hnleaf.symm, hnnode.symm⟩).symm⟩

/-! ### From the stream to its tree (R175, R176) -/

/-- A sequence of well-formed commands keeps the invariant. -/
theorem inv_execAll {is : List Instr} (his : ∀ i ∈ is, WellFormed s.cfg i = true) (hinv : Inv s)
    (h : execAll is s = .next t) : Inv t := by
  induction is generalizing s with
  | nil => cases h; exact hinv
  | cons i is ih =>
    rw [List.forall_mem_cons] at his
    obtain ⟨u, hu⟩ := exec_ends i s
    rw [execAll_cons hu] at h
    exact ih ((frame_exec hu).cfg ▸ his.2) (inv_exec his.1 hinv hu) h

/-- What holds after FREQ and TREE of a non-empty stream `w`: a sound state in IDLE, with a tree of the distinct Symbols
of `w` and their occurrences. -/
structure TreeOfStream (w : List Symbol) (t : State) : Prop where
  inv : Inv t
  mode : t.mode = .idle
  present : t.treePresent = true
  nleaf : t.nleaf = w.dedup.length
  leaves : ∀ x f, (x, f) ∈ (treeOf t).leaves ↔ x ∈ w ∧ f = w.count x

theorem exists_treeOfStream (hinv : Inv s) (hmode : s.mode = .idle) (hft : s.ft = [])
    (hok : ∀ x ∈ w, Symbol.ok s.cfg x = true) (hne : w ≠ []) (hdistinct : w.dedup.length ≤ s.cfg.nMax)
    (hlength : w.length ≤ s.cfg.maxCount) :
    ∃ t, execAll ((Pseudo.freq w).expand ++ Pseudo.tree.expand) s = .next t ∧ TreeOfStream w t := by
  obtain ⟨u, hu, hw, heq⟩ := execAll_freq hinv.table hmode hft hdistinct hlength
  have huinv : Inv u := inv_execAll (by simpa [Pseudo.expand, WellFormed] using hok) hinv hu
  have humode : u.mode = .idle := by rw [heq]; exact hmode
  have hunft : u.nft = w.dedup.length := by rw [huinv.table.nft, hw.length_eq hft]
  have huft : u.ft ≠ [] := by
    obtain ⟨x, hx⟩ := List.exists_mem_of_ne_nil w hne
    have hpos := List.length_pos_iff_exists_mem.2 ⟨x, List.mem_dedup.2 hx⟩
    rw [← List.length_pos_iff, hw.length_eq hft]
    exact hpos
  have hbuild := exec_build_eq_built humode huft huinv.table.nft
  refine ⟨built u, by rw [execAll_append hu]; exact execAll_cons hbuild [], inv_exec rfl huinv hbuild, humode, rfl,
    hunft, fun x f => ?_⟩
  rw [(leaves_built_perm huinv.table huft).mem_iff, ← lookup_eq_some_iff huinv.table.sorted, hw.lookup, hft]
  simp [eq_comm]

theorem TreeOfStream.mem_codes_iff (h : TreeOfStream w t) (x : Symbol) :
    x ∈ (treeOf t).codes.map Prod.fst ↔ x ∈ w := by
  rw [HuffTree.map_fst_codes, List.mem_map]
  constructor
  · rintro ⟨⟨x, f⟩, hmem, rfl⟩
    exact ((h.leaves x f).1 hmem).1
  · exact fun hx => ⟨(x, w.count x), (h.leaves x _).2 ⟨hx, rfl⟩, rfl⟩

/-- ENCODE of a stream of its Symbols, after FREQ and TREE. -/
theorem TreeOfStream.execAll_encode (h : TreeOfStream w t) {v : List Symbol} (hv : ∀ x ∈ v, x ∈ w) :
    ∃ b out, Encodes (treeOf t).codes v b ∧ execAll (Pseudo.encode v).expand t = .next { t with
      ct := [], nct := 0, ctValid := false, ebuf := b, outbox := out ++ [[0x00]] } := by
  obtain ⟨b, hb⟩ := exists_encodes fun x hx => (h.mem_codes_iff x).2 (hv x hx)
  obtain ⟨out, hexec⟩ := Machine.execAll_encode h.inv.tree h.present h.mode hb
  exact ⟨b, out, hb, hexec⟩

/-- Settles O55: the codes of the stream's tree encode, and the walk in the same tree decodes. -/
theorem roundTrip : Obligations.RoundTrip := by
  intro s w v hinv hmode hft hok htwo hdistinct hlength hv
  have hne : w ≠ [] := by rintro rfl; simp at htwo
  obtain ⟨t, ht, htree⟩ := exists_treeOfStream hinv hmode hft hok hne hdistinct hlength
  obtain ⟨b, out, hb, hencode⟩ := htree.execAll_encode hv
  have hsound : TreeInv { t with ct := [], nct := 0, ctValid := false, ebuf := b, outbox := out ++ [[0x00]] } :=
    treeInv_of_same htree.inv.tree ⟨rfl, rfl, rfl, rfl, rfl⟩ rfl
  obtain ⟨out', hdecode⟩ := Machine.execAll_decode hsound htree.present htree.mode
    (htwo.trans htree.nleaf.symm.le) hb
  exact ⟨_, _, (execAll_append ht).trans hencode, htree.mode, by simp, hdecode, htree.mode, by simp, rfl⟩

/-! ### The length of an encoding (R176) -/

/-- The length of the code of a Symbol, 0 without one. -/
def codeLength (codes : List (Symbol × Digits)) (x : Symbol) : Nat := ((lookup codes x).getD []).length

theorem lookup_of_mem {codes : List (Symbol × Digits)} (hnodup : (codes.map Prod.fst).Nodup) {x : Symbol}
    {c : Digits} (h : (x, c) ∈ codes) : lookup codes x = some c := by
  induction codes with
  | nil => cases h
  | cons e codes ih =>
    obtain ⟨y, d⟩ := e
    rw [List.map_cons, List.nodup_cons] at hnodup
    obtain heq | hmem := List.mem_cons.1 h
    · cases heq
      simp [lookup_cons]
    · have hne : y ≠ x := by rintro rfl; exact hnodup.1 (List.mem_map.2 ⟨_, hmem, rfl⟩)
      rw [lookup_cons, if_neg hne, ih hnodup.2 hmem]

theorem codeLength_of_mem {codes : List (Symbol × Digits)} (hnodup : (codes.map Prod.fst).Nodup) {x : Symbol}
    {c : Digits} (h : (x, c) ∈ codes) : codeLength codes x = c.length := by
  rw [codeLength, lookup_of_mem hnodup h]
  rfl

/-- The length of an encoding is the sum of the lengths of its codes. -/
theorem length_of_encodes {codes : List (Symbol × Digits)} (hnodup : (codes.map Prod.fst).Nodup) {b : Digits}
    (h : Encodes codes w b) : b.length = (w.map (codeLength codes)).sum := by
  induction w generalizing b with
  | nil =>
    obtain rfl : b = [] := h
    rfl
  | cons x w ih =>
    obtain ⟨c, b, hc, rfl, hb⟩ := h
    rw [List.length_append, ih hb, List.map_cons, List.sum_cons, codeLength_of_mem hnodup hc]

/-- The weighted path length of the stream's tree: each distinct Symbol's occurrences times the length of its code. -/
theorem TreeOfStream.weight_eq (h : TreeOfStream w t) :
    (treeOf t).weight = (w.map (codeLength (treeOf t).codes)).sum := by
  have hnodup := nodup_symbols_treeOf h.inv.tree h.present
  have hterm : ∀ e ∈ (treeOf t).placed, e.2.1 * (e.2.2 + 0) = w.count e.1 * codeLength (treeOf t).codes e.1 := by
    intro e he
    have hleaf : (e.1, e.2.1) ∈ (treeOf t).leaves := by
      rw [← HuffTree.map_entry_placed]
      exact List.mem_map.2 ⟨e, he, rfl⟩
    have hcode : (e.1, e.2.2) ∈ (treeOf t).codes.map fun e => (e.1, e.2.length) := by
      rw [← HuffTree.map_depth_placed]
      exact List.mem_map.2 ⟨e, he, rfl⟩
    obtain ⟨⟨x, c⟩, hc, heq⟩ := List.mem_map.1 hcode
    obtain ⟨hx, hlen⟩ := Prod.mk.inj heq
    rw [((h.leaves _ _).1 hleaf).2, ← hx, codeLength_of_mem hnodup hc, ← hlen]
    rfl
  have hsymbols : (treeOf t).placed.map (fun e => e.1) = (treeOf t).codes.map Prod.fst := by
    rw [HuffTree.map_fst_codes, ← HuffTree.map_entry_placed, List.map_map]
    rfl
  have hfinset : ((treeOf t).codes.map Prod.fst).toFinset = w.toFinset := by
    ext x
    rw [List.mem_toFinset, List.mem_toFinset, h.mem_codes_iff]
  calc (treeOf t).weight
      = ((treeOf t).placed.map fun e => w.count e.1 * codeLength (treeOf t).codes e.1).sum := by
        rw [HuffTree.weight, HuffTree.weightFrom_eq_sum_placed, List.map_congr_left hterm]
    _ = (((treeOf t).codes.map Prod.fst).map fun x => w.count x * codeLength (treeOf t).codes x).sum := by
        rw [← hsymbols, List.map_map]
        rfl
    _ = ∑ x ∈ w.toFinset, w.count x * codeLength (treeOf t).codes x := by
        rw [← List.sum_toFinset _ hnodup, hfinset]
    _ = (w.map (codeLength (treeOf t).codes)).sum := by
        simp only [Finset.sum_list_map_count, smul_eq_mul]
        congr! 3
        exact lawful_beq_subsingleton _ _

/-- Settles O56: the encoding's length is the sum of the code lengths over the stream, Symbol by Symbol the weighted
path length, which is the sum of the Internal frequencies. -/
theorem encodedLength : Obligations.EncodedLength := by
  intro s w hinv hmode hft hok hne hdistinct hlength
  obtain ⟨t, ht, htree⟩ := exists_treeOfStream hinv hmode hft hok hne hdistinct hlength
  obtain ⟨b, out, hb, hencode⟩ := htree.execAll_encode (v := w) fun _ hx => hx
  have hlen : b.length = (treeOf t).weight := by
    rw [htree.weight_eq, length_of_encodes (nodup_symbols_treeOf htree.inv.tree htree.present) hb]
  have hcurrent : currentTree t = some (treeOf t) := currentTree_eq htree.inv.tree htree.present
  exact ⟨_, treeOf t, (execAll_append ht).trans hencode, hcurrent, hlen,
    hlen.trans (HuffTree.weight_eq (summed_treeOf htree.inv.tree htree.present))⟩

/-! ### One distinct Symbol (R179) -/

/-- The state in which FREQ of `n` copies of `x`, and BUILD, leave HTB: one Leaf. -/
structure OneLeaf (x : Symbol) (n : Nat) (t : State) : Prop where
  mode : t.mode = .idle
  present : t.treePresent = true
  root : t.root = 0
  node : t.node = [.leaf x n]
  nnode : t.nnode = 1

theorem CountedAll.ft_replicate {x : Symbol} {n : Nat} (hw : CountedAll (List.replicate n x) s t) (hft : s.ft = [])
    (hpos : n ≠ 0) : t.ft = [(x, n)] := by
  refine sorted_ext hw.sorted (List.pairwise_singleton _ _) fun k => ?_
  rw [hw.lookup, hft, lookup_cons]
  by_cases hk : x = k
  · simp [hk, hpos]
  · simp [hk, Ne.symm hk]

theorem exists_oneLeaf (hinv : Inv s) (hmode : s.mode = .idle) (hft : s.ft = []) (x : Symbol) {n : Nat}
    (hpos : n ≠ 0) (hlength : n ≤ s.cfg.maxCount) :
    ∃ t, execAll ((Pseudo.freq (List.replicate n x)).expand ++ Pseudo.tree.expand) s = .next t ∧ OneLeaf x n t := by
  obtain ⟨-, -, hnMax, -, -⟩ := hinv.config
  obtain ⟨u, hu, hw, heq⟩ := execAll_freq (w := List.replicate n x) hinv.table hmode hft
    (by rw [List.replicate_dedup hpos]; exact hnMax) (by rwa [List.length_replicate])
  have hunft : u.nft = 1 := by
    rw [hw.nft_eq hft (by rw [hinv.table.nft, hft]; rfl), List.replicate_dedup hpos]
    rfl
  have humode : u.mode = .idle := by rw [heq]; exact hmode
  obtain ⟨t, hbuild, ht, -, -⟩ := buildOfOneSymbol u x n humode (hw.ft_replicate hft hpos) hunft
  refine ⟨t, by rw [execAll_append hu]; exact execAll_cons hbuild [], ?_⟩
  rw [ht]
  exact ⟨humode, rfl, rfl, rfl, rfl⟩

section

variable {x : Symbol} {n : Nat} (h : OneLeaf x n t)
include h

/-- The Leaf at the root has the empty code. -/
theorem OneLeaf.derivedTable_eq : derivedTable t = [(x, [])] := by
  simp [derivedTable, h.present, h.root, h.node, h.nnode, bfs, readNode, tableOf, store]

theorem OneLeaf.degen : Machine.degen t = true :=
  (degen_iff t).2 ⟨h.present, x, n, by rw [h.root, h.node]; rfl⟩

omit h in
theorem encodes_replicate (x : Symbol) (n : Nat) : Encodes [(x, [])] (List.replicate n x) [] := by
  induction n with
  | zero => rfl
  | succ n ih => exact ⟨[], [], List.mem_singleton_self _, rfl, ih⟩

/-- ENCODE of copies of the one Symbol completes with an empty record. -/
theorem OneLeaf.execAll_encode (m : Nat) : ∃ out, execAll (Pseudo.encode (List.replicate m x)).expand t =
    .next { t with ct := [], nct := 0, ctValid := false, ebuf := [], outbox := out ++ [[0x00]] } := by
  have hct : ∀ y c, (y, c) ∈ [(x, ([] : Digits))] → lookup (encodeOpened t).ct y = some c := by
    simp [encodeOpened, derivedState, h.derivedTable_eq, lookup_cons, eq_comm]
  obtain ⟨sent, -, -, hsent⟩ := execAll_encSym (a := encodeOpened t) rfl hct (encodes_replicate x m)
  refine ⟨(encodeOpened t).outbox ++ sent.map (fun p => 0x00 :: p), ?_⟩
  rw [Pseudo.expand, List.append_assoc, execAll_encodeOpened h.mode, execAll_append hsent,
    execAll_cons (exec_encEnd (by rfl)), execAll_nil]
  simp [encodeOpened, derivedState, h.derivedTable_eq, h.mode]

end

/-- Settles O59: the table is one entry, the tree one Leaf, and its code empty. -/
theorem singleSymbolStreamIsLost : Obligations.SingleSymbolStreamIsLost := by
  intro s x n hinv hmode hft hpos hlength
  obtain ⟨t, ht, hleaf⟩ := exists_oneLeaf hinv hmode hft x (Nat.ne_of_gt hpos) hlength
  obtain ⟨out, hencode⟩ := hleaf.execAll_encode n
  have hdegen : degen { t with ct := [], nct := 0, ctValid := false, ebuf := [], outbox := out ++ [[0x00]] } = true :=
    hleaf.degen
  have hdecode := (execAll_decodeOpened
    (s := { t with ct := [], nct := 0, ctValid := false, ebuf := [], outbox := out ++ [[0x00]] })
    hleaf.mode hleaf.present []).trans (execAll_cons (exec_decEnd_at_root rfl rfl) [])
  exact ⟨_, _, (execAll_append ht).trans hencode, hleaf.mode, by simp, hleaf.root, hdegen, rfl, hleaf.node, hdecode,
    rfl, by simp, rfl⟩

end Sys2Proof.Machine
